-- ==== Sys2Proof/Word.lean ====
section
/-!
DEFINITION. The value types of the block (spec 00 R7, R9): unsigned values of a stated width. A byte of the output port, a
16-bit coordinate, a 24-bit colour, a 32-bit command word. Fields that the rules add, shift or emit are bit vectors; the
arithmetic of a rule is done on their natural values and stored again (R9).
-/

namespace Sys2Proof

/-- One byte: the output port is 8 bits wide (R7 OUTW), a pixel index is 8 bits (R7 PIXW). -/
abbrev Byte := BitVec 8

/-- A canvas or frame coordinate, size or delay (R7 COORDW). -/
abbrev Half := BitVec 16

/-- A palette entry, 0xRRGGBB (R7 RGBW, 20 R67). -/
abbrev Rgb := BitVec 24

/-- A command word (R7 CMDW, 30 R80). -/
abbrev Word := BitVec 32

end Sys2Proof
end

