-- ==== Sys2Proof/Syntax.lean ====
section
/-!
DEFINITION. The sixteen commands of GLZW-CMD version 1 (spec 30 R82), one constructor per row of the opcode table, with the
argument fields of the row's format (R81). Every field has exactly the width the format gives it, so a term of this type is a
well-formed command (see WellFormed.lean).
-/

namespace Sys2Proof

/-- A command word, decoded (30 R82). -/
inductive Instr where
  /-- RST, format Z (42 R161). -/
  | rst
  /-- SETW v, format H (42 R162). -/
  | setw (v : Half)
  /-- SETH v, format H (42 R163). -/
  | seth (v : Half)
  /-- SETNF v, format H (42 R164). -/
  | setnf (v : Half)
  /-- SETLOOP lp, format L (42 R165). -/
  | setloop (lp : BitVec 1)
  /-- SETTR tv, ti, format T (42 R166). -/
  | settr (tv : BitVec 1) (ti : Byte)
  /-- PAL rgb, format C (42 R167). -/
  | pal (r g b : Byte)
  /-- BEGIN, format Z (41 R141). -/
  | begin
  /-- SETFX v, format H (42 R168). -/
  | setfx (v : Half)
  /-- SETFY v, format H (42 R169). -/
  | setfy (v : Half)
  /-- SETFW v, format H (42 R170). -/
  | setfw (v : Half)
  /-- SETFH v, format H (42 R171). -/
  | setfh (v : Half)
  /-- SETFD v, format H (42 R172). -/
  | setfd (v : Half)
  /-- SETFF tr, il, format F (42 R173). -/
  | setff (tr il : BitVec 1)
  /-- FRAME, format Z (41 R146). -/
  | frame
  /-- PIX c, format B (40 R121). -/
  | pix (c : Byte)
  deriving DecidableEq, Repr

end Sys2Proof
end

