-- ==== Sys2Proof/Decode.lean ====
section
/-!
DEFINITION. The decoder, total on the 2^32 command words (spec 30 R80 to R83), and the encoder. The opcode table of R82 is written
once, as `opcodeRow`: a word w is the command exactly when `w & mask = match`.
-/

namespace Sys2Proof

/-- A row of the opcode map (30 R82). -/
structure Row where
  mask : Word
  mat : Word
  deriving DecidableEq, Repr

/-- The mask and match columns of 30 R82, by command. -/
def opcodeRow : Instr → Row
  | .rst         => ⟨0xFFFFFFFF#32, 0x01000000#32⟩
  | .setw _      => ⟨0xFFFF0000#32, 0x10000000#32⟩
  | .seth _      => ⟨0xFFFF0000#32, 0x11000000#32⟩
  | .setnf _     => ⟨0xFFFF0000#32, 0x12000000#32⟩
  | .setloop _   => ⟨0xFFFFFFFE#32, 0x13000000#32⟩
  | .settr _ _   => ⟨0xFFFFFE00#32, 0x14000000#32⟩
  | .pal _ _ _   => ⟨0xFF000000#32, 0x15000000#32⟩
  | .begin       => ⟨0xFFFFFFFF#32, 0x20000000#32⟩
  | .setfx _     => ⟨0xFFFF0000#32, 0x30000000#32⟩
  | .setfy _     => ⟨0xFFFF0000#32, 0x31000000#32⟩
  | .setfw _     => ⟨0xFFFF0000#32, 0x32000000#32⟩
  | .setfh _     => ⟨0xFFFF0000#32, 0x33000000#32⟩
  | .setfd _     => ⟨0xFFFF0000#32, 0x34000000#32⟩
  | .setff _ _   => ⟨0xFFFFFFFC#32, 0x35000000#32⟩
  | .frame       => ⟨0xFFFFFFFF#32, 0x40000000#32⟩
  | .pix _       => ⟨0xFFFFFF00#32, 0x41000000#32⟩

/-- The opcode `op`, bits 31:24 (30 R80). -/
def opField (w : Word) : Byte := w.extractLsb' 24 8

/-- `arg[15:0]`, the value of format H (30 R81). -/
def argHalf (w : Word) : Half := w.extractLsb' 0 16

/-- `arg[23:16]`, the red byte of format C (30 R81). -/
def argRed (w : Word) : Byte := w.extractLsb' 16 8

/-- `arg[15:8]`, the green byte of format C (30 R81). -/
def argGreen (w : Word) : Byte := w.extractLsb' 8 8

/-- `arg[7:0]`: the value of format B, the blue byte of format C, `ti` of format T (30 R81). -/
def argByte (w : Word) : Byte := w.extractLsb' 0 8

/-- `arg[8]`, `tv` of format T (30 R81). -/
def argBit8 (w : Word) : BitVec 1 := w.extractLsb' 8 1

/-- `arg[1]`, `tr` of format F (30 R81). -/
def argBit1 (w : Word) : BitVec 1 := w.extractLsb' 1 1

/-- `arg[0]`, `lp` of format L and `il` of format F (30 R81). -/
def argBit0 (w : Word) : BitVec 1 := w.extractLsb' 0 1

/-- The command of a word's opcode, its fields read as the row's format says; `none` for an opcode that is not one of the sixteen
(30 R82). Reserved bits are not looked at here. -/
def commandOf (w : Word) : Option Instr :=
  match (opField w).toNat with
  | 0x01 => some .rst
  | 0x10 => some (.setw (argHalf w))
  | 0x11 => some (.seth (argHalf w))
  | 0x12 => some (.setnf (argHalf w))
  | 0x13 => some (.setloop (argBit0 w))
  | 0x14 => some (.settr (argBit8 w) (argByte w))
  | 0x15 => some (.pal (argRed w) (argGreen w) (argByte w))
  | 0x20 => some .begin
  | 0x30 => some (.setfx (argHalf w))
  | 0x31 => some (.setfy (argHalf w))
  | 0x32 => some (.setfw (argHalf w))
  | 0x33 => some (.setfh (argHalf w))
  | 0x34 => some (.setfd (argHalf w))
  | 0x35 => some (.setff (argBit1 w) (argBit0 w))
  | 0x40 => some .frame
  | 0x41 => some (.pix (argByte w))
  | _    => none

/-- Why a word is illegal (30 R83). -/
inductive Reject where
  /-- Its opcode is not one of the sixteen. -/
  | unassignedOpcode (op : Byte)
  /-- Its opcode is one of them and a reserved bit of its format is 1. -/
  | reservedBit (op : Byte)
  deriving DecidableEq, Repr

/-- The decoder: the command whose row the word matches under its mask (30 R82), or why there is none (R83). -/
def decode (w : Word) : Except Reject Instr :=
  match commandOf w with
  | none => .error (.unassignedOpcode (opField w))
  | some i => if w &&& (opcodeRow i).mask = (opcodeRow i).mat then .ok i else .error (.reservedBit (opField w))

/-- A word of format Z (30 R81). -/
def wordZ (op : Byte) : Word := op ++ 0#24

/-- A word of format H (30 R81). -/
def wordH (op : Byte) (v : Half) : Word := op ++ 0#8 ++ v

/-- A word of format B (30 R81). -/
def wordB (op : Byte) (c : Byte) : Word := op ++ 0#16 ++ c

/-- A word of format C (30 R81). -/
def wordC (op : Byte) (r g b : Byte) : Word := op ++ r ++ g ++ b

/-- A word of format T (30 R81). -/
def wordT (op : Byte) (tv : BitVec 1) (ti : Byte) : Word := op ++ 0#8 ++ 0#7 ++ tv ++ ti

/-- A word of format F (30 R81). -/
def wordF (op : Byte) (tr il : BitVec 1) : Word := op ++ 0#16 ++ 0#6 ++ tr ++ il

/-- A word of format L (30 R81). -/
def wordL (op : Byte) (lp : BitVec 1) : Word := op ++ 0#16 ++ 0#7 ++ lp

/-- The encoder: the word of a command, from the opcode and format columns of 30 R82. -/
def encode : Instr → Word
  | .rst         => wordZ 0x01#8
  | .setw v      => wordH 0x10#8 v
  | .seth v      => wordH 0x11#8 v
  | .setnf v     => wordH 0x12#8 v
  | .setloop lp  => wordL 0x13#8 lp
  | .settr tv ti => wordT 0x14#8 tv ti
  | .pal r g b   => wordC 0x15#8 r g b
  | .begin       => wordZ 0x20#8
  | .setfx v     => wordH 0x30#8 v
  | .setfy v     => wordH 0x31#8 v
  | .setfw v     => wordH 0x32#8 v
  | .setfh v     => wordH 0x33#8 v
  | .setfd v     => wordH 0x34#8 v
  | .setff tr il => wordF 0x35#8 tr il
  | .frame       => wordZ 0x40#8
  | .pix c       => wordB 0x41#8 c

/-- The command whose bits are `w`, numbered as the opcode table numbers them (every row has 32 bits); bits at and above `nbits` are 0. -/
def decodeTableWord (nbits w : Nat) : Option Instr :=
  match decode (BitVec.ofNat 32 (w % 2 ^ nbits)) with
  | .ok i => some i
  | .error _ => none

end Sys2Proof
end

