-- ==== Sys2Proof/Config.lean ====
section
/-!
DEFINITION. The parameters of the block (spec 00 R7) and the two values the spec leaves open: HSIZE (R7, 92 D26), which nothing
reads, and CBITS outside its range (10 R34), a free value. An opaque constant has no body, so no proof can learn its value.
-/

namespace Sys2Proof

/-- MAXBITS: ceiling of the LZW code width NBITS (00 R7). -/
@[simp] abbrev Config.maxBits : Nat := 12

/-- MAXCODES: size of the code space (00 R7); the dictionary is full at NEXTCODE = 4096 (40 R110). -/
@[simp] abbrev Config.maxCodes : Nat := 4096

/-- SUBMAX: most data bytes in one sub-block (00 R7), and the number of entries of SBBUF (10 R47). -/
@[simp] abbrev Config.subMax : Nat := 254

/-- PALMAX: most palette entries (00 R7, 10 R26, R27). -/
@[simp] abbrev Config.palMax : Nat := 256

/-- Width of the accumulator ACC, "the most that is ever needed" (10 R45). -/
@[simp] abbrev Config.accBits : Nat := 19

/-- HSIZE, OPEN (00 R7): the slots of an implementation's hash table. Nothing in the model reads it, since no output byte, status
bit or fault depends on it (10 R53, 40 R123, 93 U1); named here because R7 lists it. Log 12. -/
opaque Config.hsize : Nat

/-- CBITS where 10 R34 does not define it: for PALN = 0 ("undefined"; no rule evaluates it then, because BEGIN faults first) and for
PALN above 256 (outside the register's range, R26). A free value, applied to PALN. Log 9. -/
opaque Config.cbitsUndefined : Nat → Nat

end Sys2Proof
end

