-- ==== Sys2Proof/Machine/State.lean ====
section
/-!
DEFINITION. The state of the machine (spec 10 R20 to R52): the block's registers and stores (`Regs`, exactly the list of R20), the
delivered history OUT (R51), and the environment a step reads (00 R13: the host's moves, the sink's answers) with the step the sink
is holding (R14 (c)). All of it is plain data.
-/

namespace Sys2Proof.Machine

/-- PHASE (10 R36). The encodings 5 to 7 never occur, so they are no value of this type (log 7). -/
inductive Phase where
  /-- configuration; nothing emitted yet (encoding 0) -/
  | idle
  /-- stream opened; between frames (encoding 1) -/
  | stream
  /-- inside a frame; pixel indices expected (encoding 2) -/
  | pixels
  /-- trailer delivered; the run ended successfully (encoding 3) -/
  | done
  /-- a fault was raised (encoding 4) -/
  | error
  deriving DecidableEq, Repr

/-- The block's seven fault classes (60 R190). Raising one is a next state, `enterError` (R200), never a `Fault` of the model. -/
inductive ErrorClass where
  /-- code 1, raised by PAL (R191) -/
  | tooManyColors
  /-- code 2, raised by BEGIN (R192) -/
  | emptyAnimation
  /-- code 3, raised by any Out (R193) -/
  | sinkIOError
  /-- code 4, raised by PackCode, unreachable (R194) -/
  | invariantViolation
  /-- code 5, raised by BEGIN and FRAME (R195) -/
  | badConfig
  /-- code 6, raised by PIX (R196) -/
  | pixelRange
  /-- code 7, raised by the dispatcher (R197) -/
  | illegalCommand
  deriving DecidableEq, Repr

/-- The registers and stores of the block: "exactly the following, and nothing else" (10 R20). A store is a list of (index, value)
pairs in the canonical form of Machine/Store.lean; an index of PAL or SBBUF that is not listed holds 0, a pair that is not listed in
DICT is absent (log 8). -/
structure Regs where
  /-- CANVW (R21) -/
  canvw : Half
  /-- CANVH (R22) -/
  canvh : Half
  /-- NFRAMES (R23) -/
  nframes : Half
  /-- LOOP (R24) -/
  loop : BitVec 1
  /-- TRV (R25) -/
  trv : BitVec 1
  /-- TRIDX (R25) -/
  tridx : Byte
  /-- PALN (R26) -/
  paln : BitVec 9
  /-- PAL (R27) -/
  pal : List (Nat × Rgb)
  /-- FX (R28) -/
  fx : Half
  /-- FY (R29) -/
  fy : Half
  /-- FW (R30) -/
  fw : Half
  /-- FH (R31) -/
  fh : Half
  /-- FDELAY (R32) -/
  fdelay : Half
  /-- FIL (R33) -/
  fil : BitVec 1
  /-- FTR (R33) -/
  ftr : BitVec 1
  /-- PHASE (R36) -/
  phase : Phase
  /-- ERRCODE (R37); `none` is code 0 -/
  errcode : Option ErrorClass
  /-- FDONE (R38) -/
  fdone : Half
  /-- NPIX (R39) -/
  npix : BitVec 32
  /-- PIXCNT (R40) -/
  pixcnt : BitVec 32
  /-- CUR (R41) -/
  cur : BitVec 12
  /-- NEXTCODE (R42) -/
  nextcode : BitVec 13
  /-- NBITS (R43) -/
  nbits : BitVec 4
  /-- DICT (R44), keyed by the 20-bit pair (20 R60 (3)) -/
  dict : List (Nat × BitVec 12)
  /-- ACC (R45) -/
  acc : BitVec 19
  /-- BITCNT (R46) -/
  bitcnt : BitVec 5
  /-- SBBUF (R47) -/
  sbbuf : List Host.Cell
  /-- SBCNT (R48) -/
  sbcnt : Byte
  deriving DecidableEq, Repr

/-- Why the model stops (Host.Outcome.fault). The spec says that none of these occurs, and gives no effect for them; no run from
reset reaches one. Safe: the model stops where the hardware's behaviour is not specified (log 10). -/
inductive Fault where
  /-- PAL written at an index of 256 or more (raised by PAL when PALN is above 256; 20 R69: "always in range"). Safe. -/
  | palIndex
  /-- SBBUF reached at an index of 254 or more (raised by SubPut and SubFlush; 20 R69: "always in range"). Safe. -/
  | sbbufIndex
  /-- A result does not fit its register (raised by PackCode for ACC and BITCNT, by PIX for PIXCNT, by EndFrame for FDONE; 00 R9:
  "no rule relies on wrap-around"). Safe. -/
  | registerOverflow
  deriving DecidableEq, Repr

/-- Why the model refuses an instruction. The hardware has no refusal (00 R14) and no instruction of this model is refused. -/
inductive Refusal where
  /-- An instruction without a meaning. Raised by nobody: every arm of `exec` has its meaning. Safe. -/
  | notModelled (mnemonic : String)
  deriving DecidableEq, Repr

/-- How the pseudocode of a step ends before its last statement. -/
inductive Stop where
  /-- `raise E` (60 R200) -/
  | raise (e : ErrorClass)
  /-- the model has no effect to give (log 10) -/
  | fault (f : Fault)
  deriving DecidableEq, Repr

/-- A byte offered at the output port by `Out(b)` (20 R63), with the registers as they stand while it is on offer: what precedes the
`Out` in the pseudocode is done, what follows is not (60 R206). -/
structure Offer where
  regs : Regs
  byte : Byte
  deriving DecidableEq, Repr

/-- What the pseudocode of a command does from given registers, as long as the sink accepts: the bytes it offers in order, how it stops
before its end if it does, and the registers it leaves. The sink's answers are applied by `deliver` (Machine/Ops.lean). -/
structure Run where
  offers : List Offer
  stop : Option Stop
  regs : Regs
  deriving DecidableEq, Repr

/-- The sink's answer to an offered byte (20 R62, R63): accept, error, or not yet. -/
inductive Answer where
  | accept
  | error
  /-- no answer during this step of the model: the step is held (R75) -/
  | withhold
  deriving DecidableEq, Repr

/-- The sink: its answers in order, one per offer, and the answer it gives after them (log 2). -/
structure Sink where
  script : List Answer
  rest : Answer
  deriving DecidableEq, Repr

/-- A move of the host: a command word transferred at the command port (20 R61), or the hardware reset input (70 R220; log 6). -/
inductive HostMove where
  | word (w : Word)
  | resetPin
  deriving DecidableEq, Repr

/-- The whole state. `out` is the sink's record, not block state (R51); `host`, `sink` and `held` are the model's own fields
(log 1, log 2, log 4). -/
structure State where
  /-- the block's registers and stores (R20) -/
  regs : Regs
  /-- OUT (R51) -/
  out : List Byte
  /-- the host's moves still to come, first first -/
  host : List HostMove
  /-- the sink's answers still to come -/
  sink : Sink
  /-- the command step the sink is holding, its first offer being the byte on offer; `none` when the engine is ready -/
  held : Option Run
  deriving DecidableEq, Repr

/-- The reset value of every register (10 R52): 0 or empty, LOOP = 1, PHASE = IDLE. -/
def Regs.reset : Regs where
  canvw := 0
  canvh := 0
  nframes := 0
  loop := 1
  trv := 0
  tridx := 0
  paln := 0
  pal := []
  fx := 0
  fy := 0
  fw := 0
  fh := 0
  fdelay := 0
  fil := 0
  ftr := 0
  phase := .idle
  errcode := none
  fdone := 0
  npix := 0
  pixcnt := 0
  cur := 0
  nextcode := 0
  nbits := 0
  dict := []
  acc := 0
  bitcnt := 0
  sbbuf := []
  sbcnt := 0

/-- The machine right after reset (10 R52, 70 R221): the registers at their reset values, nothing on offer, OUT empty (R51: the run has
just begun). The host has no move listed and the sink accepts every byte: DESIGN CHOICE, log 1 and log 2. -/
def State.reset : State where
  regs := Regs.reset
  out := []
  host := []
  sink := ⟨[], .accept⟩
  held := none

end Sys2Proof.Machine
end

