-- ==== Sys2Proof/Machine/Store.lean ====
section
/-!
DEFINITION. The internal stores (spec 20 R60): PAL, SBBUF and DICT as lists of (index, value) pairs in one canonical form, indices
strictly rising, so that equal stores are equal data (log 8). PAL and SBBUF hold 0 at every index that is not listed (10 R52) and
list no 0; a key that is not listed in DICT is absent (10 R44).
-/

namespace Sys2Proof.Machine

/-- The value listed at an index. -/
def Memory.find {α : Type} : List (Nat × α) → Nat → Option α
  | [], _ => none
  | (k, v) :: m, i => if k = i then some v else Memory.find m i

/-- List a value at an index, in place of what was listed there. -/
def Memory.insert {α : Type} (i : Nat) (a : α) : List (Nat × α) → List (Nat × α)
  | [] => [(i, a)]
  | (k, v) :: m => if i < k then (i, a) :: (k, v) :: m else if k = i then (i, a) :: m else (k, v) :: Memory.insert i a m

/-- Take an index off the list. -/
def Memory.erase {α : Type} (i : Nat) : List (Nat × α) → List (Nat × α)
  | [] => []
  | (k, v) :: m => if k = i then m else (k, v) :: Memory.erase i m

/-- The value of an index of PAL or SBBUF: 0 where nothing is listed (10 R52). -/
def Memory.get {w : Nat} (m : List (Nat × BitVec w)) (i : Nat) : BitVec w :=
  (Memory.find m i).getD 0#w

/-- Write an index of PAL or SBBUF. Writing 0 takes the entry off the list. -/
def Memory.put {w : Nat} (i : Nat) (a : BitVec w) (m : List (Nat × BitVec w)) : List (Nat × BitVec w) :=
  if a = 0#w then Memory.erase i m else Memory.insert i a m

/-- Indices strictly rising, all below a bound and at or above `lo`. -/
def Memory.rising {α : Type} (lo bound : Nat) : List (Nat × α) → Bool
  | [] => true
  | (k, _) :: m => decide (lo ≤ k) && decide (k < bound) && Memory.rising (k + 1) bound m

/-- The canonical form of a store whose keys are below `bound` and whose unlisted keys are absent (DICT). -/
def Memory.wfMap {α : Type} (bound : Nat) (m : List (Nat × α)) : Bool :=
  Memory.rising 0 bound m

/-- The canonical form of a store of `bound` entries that reads 0 where nothing is listed (PAL, SBBUF): no 0 is listed. -/
def Memory.wf {w : Nat} (bound : Nat) (m : List (Nat × BitVec w)) : Bool :=
  Memory.rising 0 bound m && m.all (fun e => decide (e.2 ≠ 0#w))

/-- The 20-bit key of a dictionary pair, prefix code first (20 R60 (3), 40 R110). -/
def dictKey (p : BitVec 12) (c : Byte) : Nat := p.toNat * 256 + c.toNat

/-- Lookup (40 R110): the code of the pair, if it is present. -/
def dictLookup (r : Regs) (p : BitVec 12) (c : Byte) : Option (BitVec 12) :=
  Memory.find r.dict (dictKey p c)

/-- Insert (40 R110): `DICT[(p, c)] <- NEXTCODE`. -/
def dictInsert (p : BitVec 12) (c : Byte) (r : Regs) : Regs :=
  { r with dict := Memory.insert (dictKey p c) (BitVec.ofNat 12 r.nextcode.toNat) r.dict }

end Sys2Proof.Machine
end

