-- ==== Sys2Proof/Machine/Operands.lean ====
section
/-!
DEFINITION. The derived quantities CBITS, ICS, CLEARC, EOFC, FIRSTFREE (spec 10 R34, R35), functions of PALN and not state, and how the
fields of commands and registers become bytes (20 R65, R67).
-/

namespace Sys2Proof.Machine

/-- `cbits(N)` (10 R34): the least b in 1..8 with 2^b >= N, for N in 1..256; a free value elsewhere (log 9). -/
def cbits (n : Nat) : Nat :=
  if n = 0 then Config.cbitsUndefined n
  else if n ≤ 2 then 1
  else if n ≤ 4 then 2
  else if n ≤ 8 then 3
  else if n ≤ 16 then 4
  else if n ≤ 32 then 5
  else if n ≤ 64 then 6
  else if n ≤ 128 then 7
  else if n ≤ 256 then 8
  else Config.cbitsUndefined n

/-- CBITS (10 R34). -/
def colorBits (r : Regs) : Nat := cbits r.paln.toNat

/-- ICS = max(2, CBITS) (10 R35). -/
def ics (r : Regs) : Nat := max 2 (colorBits r)

/-- CLEARC = 1 << ICS (10 R35). -/
def clearCode (r : Regs) : Nat := 2 ^ ics r

/-- EOFC = CLEARC + 1 (10 R35). -/
def eofCode (r : Regs) : Nat := clearCode r + 1

/-- FIRSTFREE = CLEARC + 2 (10 R35). -/
def firstFree (r : Regs) : Nat := clearCode r + 2

/-- `v[7:0]` of a 16-bit field. -/
def lowByte (v : Half) : Byte := v.extractLsb' 0 8

/-- `v[15:8]` of a 16-bit field. -/
def highByte (v : Half) : Byte := v.extractLsb' 8 8

/-- The bytes of `Out16(v)`, low byte first (20 R65). -/
def halfBytes (v : Half) : List Byte := [lowByte v, highByte v]

/-- The 24-bit value of `PAL rgb`: red 23:16, green 15:8, blue 7:0 (20 R67). -/
def rgbOf (r g b : Byte) : Rgb := r ++ g ++ b

/-- A palette entry as three bytes, red, green, blue (20 R67). -/
def rgbBytes (v : Rgb) : List Byte := [v.extractLsb' 16 8, v.extractLsb' 8 8, v.extractLsb' 0 8]

/-- `FW * FH`, below 2^32 (10 R39, 40 R122). -/
def pixelCount (r : Regs) : BitVec 32 := BitVec.ofNat 32 (r.fw.toNat * r.fh.toNat)

/-- A pixel index as the code of its one-pixel string (40 R110: "the code of the one-pixel string c is c itself"). -/
def pixelCode (c : Byte) : BitVec 12 := c.setWidth 12

end Sys2Proof.Machine
end

