-- ==== Sys2Proof/Machine/Flags.lean ====
section
/-!
DEFINITION. The block's only flags: the status word and the pins, read-only views of PHASE, ERRCODE and FDONE (spec 10 R49, R50), the
signals of the ports (20 R61, R62, 70 R221), and which command is legal in which phase (42 R175).
-/

namespace Sys2Proof.Machine

/-- The encoding of PHASE (10 R36). -/
def phaseBits : Phase → BitVec 3
  | .idle => 0
  | .stream => 1
  | .pixels => 2
  | .done => 3
  | .error => 4

/-- The code of a fault class (60 R190). -/
def errorBits : ErrorClass → BitVec 4
  | .tooManyColors => 1
  | .emptyAnimation => 2
  | .sinkIOError => 3
  | .invariantViolation => 4
  | .badConfig => 5
  | .pixelRange => 6
  | .illegalCommand => 7

/-- The bits of ERRCODE (10 R37): 0 when no fault has been raised. -/
def errcodeBits : Option ErrorClass → BitVec 4
  | none => 0
  | some e => errorBits e

/-- STATUS (10 R49): FDONE in 31:16, 0 in 15:8, ERRCODE in 7:4, 0 in 3, PHASE in 2:0. Reading it takes no step (42 R174). -/
def status (r : Regs) : Word :=
  r.fdone ++ 0#8 ++ errcodeBits r.errcode ++ 0#1 ++ phaseBits r.phase

/-- The pin `done` by 10 R50: 1 exactly in DONE. So it falls on RST and on a command in DONE, which enters ERROR (42 R175, 95 part 2.4:
"`err = 1` replaces `done = 1`"). 60 R198 says "`done` falls only on `RST`", and no value of the pin in an ERROR entered from DONE meets both
rules. DESIGN CHOICE, log 17: the model has the pin by each of them, this one and `donePinUntilRst`, and sets neither rule aside. -/
def donePinByPhase (r : Regs) : Bool := decide (r.phase = .done)

/-- The phase ERROR was entered from DONE: of the commands turned away with IllegalCommand only those in DONE have found all the frames of a
stream counted (41 R150, R152), and a fault changes neither FDONE nor NFRAMES (60 R200). -/
def faultedInDone (r : Regs) : Bool :=
  decide (r.phase = .error) && decide (r.errcode = some .illegalCommand) && decide (r.nframes ≠ 0) && decide (r.fdone = r.nframes)

/-- The pin `done` by 60 R198, "`done` falls only on `RST`": it rises in DONE, stays 1 in an ERROR entered from DONE, and is 0 again after RST.
It differs from `donePinByPhase` there only. The block has one pin `done`, and these are its two readings (log 17). -/
def donePinUntilRst (r : Regs) : Bool := donePinByPhase r || faultedInDone r

/-- The pin `err`: 1 exactly in ERROR (10 R50), so it falls only on RST (60 R198, R202). -/
def errPin (r : Regs) : Bool := decide (r.phase = .error)

/-- `cmd_ready` (20 R61, R75): 1 exactly when no step is in execution. -/
def cmdReady (s : State) : Bool := s.held.isNone

/-- The byte on offer at the output port, if there is one (20 R62, R75). -/
def outData (s : State) : Option Byte :=
  match s.held with
  | some run => run.offers.head?.map Offer.byte
  | none => none

/-- `out_valid` (20 R62): 1 exactly when a byte is on offer. -/
def outValid (s : State) : Bool := (outData s).isSome

/-- The commands of 42 R175's second and third row (SETW to PAL, BEGIN): legal in IDLE only. -/
def inIdle (p : Phase) : Bool := decide (p = .idle)

/-- The frame-level configuration commands: legal in IDLE and STREAM (42 R175). -/
def inIdleOrStream (p : Phase) : Bool := decide (p = .idle) || decide (p = .stream)

/-- FRAME: legal in STREAM only (42 R175). -/
def inStream (p : Phase) : Bool := decide (p = .stream)

/-- PIX: legal in PIXELS only (42 R175). -/
def inPixels (p : Phase) : Bool := decide (p = .pixels)

end Sys2Proof.Machine
end

