-- ==== Sys2Proof/Machine/Ops.lean ====
section
/-!
DEFINITION. The shared operations. First the pieces pseudocode is written with (spec 00 R10): writing registers, `Out`, `raise`,
sequence, condition, loop. Then taking a fault (60 R200), the sink's answers (20 R63), and the shape every command has (42 R160).
-/

namespace Sys2Proof.Machine

/-- The answer of a step. -/
abbrev Answered := Host.Outcome State Fault Refusal

/-- A piece of pseudocode: from the registers as they stand to the bytes it offers, how it stops and the registers it leaves. -/
abbrev Micro := Regs → Run

/-- No statement. -/
def pass : Micro := fun r => ⟨[], none, r⟩

/-- `REG <- v`. -/
def write (f : Regs → Regs) : Micro := fun r => ⟨[], none, f r⟩

/-- `Out` of each byte in order (20 R63), the bytes computed from the registers as they stand. -/
def emit (f : Regs → List Byte) : Micro := fun r => ⟨(f r).map (Offer.mk r), none, r⟩

/-- `raise E` inside a command (60 R200): the rest of the pseudocode is not executed. -/
def raiseError (e : ErrorClass) : Micro := fun r => ⟨[], some (.raise e), r⟩

/-- The spec gives no effect from here on (log 10). -/
def stuck (f : Fault) : Micro := fun r => ⟨[], some (.fault f), r⟩

/-- One piece and then, if it did not stop, another (00 R10: statements take effect in order). -/
def andThen (p q : Micro) : Micro := fun r =>
  match (p r).stop with
  | some _ => p r
  | none => ⟨(p r).offers ++ (q (p r).regs).offers, (q (p r).regs).stop, (q (p r).regs).regs⟩

/-- Statements on successive lines. -/
def program : List Micro → Micro
  | [] => pass
  | p :: ps => andThen p (program ps)

/-- `if c: p`, the condition read from the registers as they stand. -/
def whenever (c : Regs → Bool) (p : Micro) : Micro := fun r => if c r then p r else pass r

/-- `if c: p else: q`. -/
def ifElse (c : Regs → Bool) (p q : Micro) : Micro := fun r => if c r then p r else q r

/-- `p` repeated. -/
def repeatTimes : Nat → Micro → Micro
  | 0, _ => pass
  | n + 1, p => andThen p (repeatTimes n p)

/-- `if c: raise E`. -/
def check (c : Regs → Bool) (e : ErrorClass) : Micro := whenever c (raiseError e)

/-- A result or an index the spec says cannot occur (log 10). -/
def guardFault (c : Regs → Bool) (f : Fault) : Micro := whenever c (stuck f)

/-- Fault entry, `raise E` (60 R200): ERRCODE and PHASE, nothing else. The return from it is RST alone (R202; `execRst`). -/
def enterError (e : ErrorClass) (r : Regs) : Regs := { r with errcode := some e, phase := .error }

/-- The end of a step whose offers have all been accepted. -/
def finish (stop : Option Stop) (r : Regs) (s : State) : Answered :=
  match stop with
  | none => .next { s with regs := r, held := none }
  | some (.raise e) => .next { s with regs := enterError e r, held := none }
  | some (.fault f) => .fault f

/-- The sink's answer to the next offer (log 2). -/
def sinkAnswer (k : Sink) : Answer :=
  match k.script with
  | [] => k.rest
  | a :: _ => a

/-- The sink after it has answered once. -/
def sinkNext (k : Sink) : Sink := { k with script := k.script.tail }

/-- `OUT <- OUT ++ [b]`, the sink having accepted (20 R63). -/
def accepted (b : Byte) (s : State) : State := { s with out := s.out ++ [b], sink := sinkNext s.sink }

/-- The sink refuses the byte on offer (20 R63, 60 R193): it is not delivered, OUT is unchanged, `raise SinkIOError` from the registers
as they stand at that `Out`. -/
def refused (o : Offer) (s : State) : State :=
  { s with regs := enterError .sinkIOError o.regs, sink := sinkNext s.sink, held := none }

/-- The sink gives no answer yet (20 R63, R75): the step is held at that `Out`, with the rest of the step still to come. -/
def withheld (o : Offer) (os : List Offer) (stop : Option Stop) (r : Regs) (s : State) : State :=
  { s with regs := o.regs, sink := sinkNext s.sink, held := some ⟨o :: os, stop, r⟩ }

/-- Offer bytes to the sink one by one (20 R63) and end the step (log 5). -/
def offerAll : List Offer → Option Stop → Regs → State → Answered
  | [], stop, r, s => finish stop r s
  | o :: os, stop, r, s =>
    match sinkAnswer s.sink with
    | .accept => offerAll os stop r (accepted o.byte s)
    | .error => .next (refused o s)
    | .withhold => .next (withheld o os stop r s)

/-- Carry out what the pseudocode does, against the sink. -/
def deliver (run : Run) (s : State) : Answered := offerAll run.offers run.stop run.regs s

/-- The shape of every command but RST (42 R160): in ERROR the word is consumed and ignored (60 R201); in a phase that does not allow the
command, IllegalCommand; else the command's own rule. While a step is held the engine takes no word (20 R61, R75; log 4). -/
def command (legal : Phase → Bool) (m : Micro) (s : State) : Answered :=
  match s.held with
  | some _ => .next s
  | none =>
    if s.regs.phase = .error then .next s
    else if legal s.regs.phase then deliver (m s.regs) s
    else deliver (raiseError .illegalCommand s.regs) s

/-- A word that matches no row of 30 R82 (R83, 42 R160): IllegalCommand, or ignored in ERROR. -/
def illegalWord (s : State) : Answered :=
  command (fun _ => false) pass s

/-- The reset of every register and store (42 R161, 10 R52). OUT is not the block's to clear (10 R51). -/
def resetBlock (s : State) : State := { s with regs := Regs.reset, held := none }

/-- The step goes on where the sink held it: the byte on offer is offered still. If the sink still withholds its answer and the host's
next move is the reset pin, the byte is withdrawn, not delivered, and the block is reset (70 R220; log 6). -/
def resume (run : Run) (s : State) : Answered :=
  match sinkAnswer s.sink, s.host with
  | .withhold, .resetPin :: rest => .next (resetBlock { s with sink := sinkNext s.sink, host := rest })
  | _, _ => deliver run s

/-- The hardware reset input between steps: the effect of RST (70 R220). -/
def resetInput (s : State) : Answered := .next (resetBlock s)

end Sys2Proof.Machine
end

