-- ==== Sys2Proof/Machine/AnimConfig.lean ====
section
/-!
DEFINITION. The animation-level configuration commands (spec 42 R162 to R167): legal in IDLE only, none offers a byte.
-/

namespace Sys2Proof.Machine

/-- SETW v (42 R162): `CANVW <- v`. -/
def execSetw (v : Half) (s : State) : Answered :=
  command inIdle (write (fun r => { r with canvw := v })) s

/-- SETH v (42 R163): `CANVH <- v`. -/
def execSeth (v : Half) (s : State) : Answered :=
  command inIdle (write (fun r => { r with canvh := v })) s

/-- SETNF v (42 R164): `NFRAMES <- v`. -/
def execSetnf (v : Half) (s : State) : Answered :=
  command inIdle (write (fun r => { r with nframes := v })) s

/-- SETLOOP lp (42 R165): `LOOP <- lp`. -/
def execSetloop (lp : BitVec 1) (s : State) : Answered :=
  command inIdle (write (fun r => { r with loop := lp })) s

/-- SETTR tv, ti (42 R166): `TRV <- tv; TRIDX <- ti`. -/
def execSettr (tv : BitVec 1) (ti : Byte) (s : State) : Answered :=
  command inIdle (write (fun r => { r with trv := tv, tridx := ti })) s

/-- The pseudocode of PAL rgb (42 R167). -/
def palMicro (rgb : Rgb) : Micro :=
  program [
    check (fun r => decide (r.paln.toNat = Config.palMax)) .tooManyColors,
    guardFault (fun r => decide (Config.palMax ≤ r.paln.toNat)) .palIndex,
    write (fun r => { r with pal := Memory.put r.paln.toNat rgb r.pal }),
    write (fun r => { r with paln := BitVec.ofNat 9 (r.paln.toNat + 1) })]

/-- PAL rgb (42 R167): append one palette entry; the 257th raises TooManyColors before anything is written. -/
def execPal (r g b : Byte) (s : State) : Answered :=
  command inIdle (palMicro (rgbOf r g b)) s

end Sys2Proof.Machine
end

