-- ==== Sys2Proof/Machine/FrameConfig.lean ====
section
/-!
DEFINITION. The frame-level configuration commands (spec 42 R168 to R173): legal in IDLE and STREAM, none offers a byte.
-/

namespace Sys2Proof.Machine

/-- SETFX v (42 R168): `FX <- v`. -/
def execSetfx (v : Half) (s : State) : Answered :=
  command inIdleOrStream (write (fun r => { r with fx := v })) s

/-- SETFY v (42 R169): `FY <- v`. -/
def execSetfy (v : Half) (s : State) : Answered :=
  command inIdleOrStream (write (fun r => { r with fy := v })) s

/-- SETFW v (42 R170): `FW <- v`. -/
def execSetfw (v : Half) (s : State) : Answered :=
  command inIdleOrStream (write (fun r => { r with fw := v })) s

/-- SETFH v (42 R171): `FH <- v`. -/
def execSetfh (v : Half) (s : State) : Answered :=
  command inIdleOrStream (write (fun r => { r with fh := v })) s

/-- SETFD v (42 R172): `FDELAY <- v`. -/
def execSetfd (v : Half) (s : State) : Answered :=
  command inIdleOrStream (write (fun r => { r with fdelay := v })) s

/-- SETFF tr, il (42 R173): `FTR <- tr; FIL <- il`. -/
def execSetff (tr il : BitVec 1) (s : State) : Answered :=
  command inIdleOrStream (write (fun r => { r with ftr := tr, fil := il })) s

end Sys2Proof.Machine
end

