-- ==== Sys2Proof/Machine/Compressor.lean ====
section
/-!
DEFINITION. The micro-operations of the compressor (spec 40 R111 to R119): the sub-block emitter, the bit packer, the code width and the
LZW state machine.
-/

namespace Sys2Proof.Machine

/-- The valid bytes of the sub-block being assembled, `SBBUF[0 .. SBCNT-1]` (10 R47). -/
def subBlockBytes (r : Regs) : List Byte := (List.range r.sbcnt.toNat).map (Memory.get r.sbbuf)

/-- `SubFlush()` (40 R113): the length byte and the data bytes, then `SBCNT <- 0`; nothing if the sub-block is empty. -/
def subFlush : Micro :=
  whenever (fun r => decide (0 < r.sbcnt.toNat)) (program [
    guardFault (fun r => decide (Config.subMax < r.sbcnt.toNat)) .sbbufIndex,
    emit (fun r => r.sbcnt :: subBlockBytes r),
    write (fun r => { r with sbcnt := 0 })])

/-- `SubPut(b)` (40 R112): store a data byte and, if that fills the sub-block, flush it at once. -/
def subPut (v : Byte) : Micro :=
  program [
    guardFault (fun r => decide (Config.subMax ≤ r.sbcnt.toNat)) .sbbufIndex,
    write (fun r => { r with sbbuf := Memory.put r.sbcnt.toNat v r.sbbuf }),
    write (fun r => { r with sbcnt := BitVec.ofNat 8 (r.sbcnt.toNat + 1) }),
    whenever (fun r => decide (r.sbcnt.toNat = Config.subMax)) subFlush]

/-- One turn of the loop of PackCode (40 R111): the low byte of ACC, the oldest, goes to `SubPut`. -/
def shiftOutByte : Micro :=
  program [
    fun r => subPut (r.acc.setWidth 8) r,
    write (fun r => { r with acc := r.acc >>> 8 }),
    write (fun r => { r with bitcnt := BitVec.ofNat 5 (r.bitcnt.toNat - 8) })]

/-- `ACC <- ACC | (code << BITCNT); BITCNT <- BITCNT + NBITS` (40 R111): the new code goes above the bits already held. -/
def addCode (code : Nat) (r : Regs) : Regs :=
  { r with
    acc := r.acc ||| (BitVec.ofNat 19 code <<< r.bitcnt.toNat)
    bitcnt := BitVec.ofNat 5 (r.bitcnt.toNat + r.nbits.toNat) }

/-- `PackCode(code)` (40 R111). `while BITCNT >= 8`, each turn taking 8 from BITCNT, makes BITCNT / 8 turns. -/
def packCode (code : Nat) : Micro :=
  program [
    check (fun r => decide (2 ^ r.nbits.toNat ≤ code)) .invariantViolation,
    guardFault (fun r => decide (Config.accBits < r.bitcnt.toNat + r.nbits.toNat)) .registerOverflow,
    write (addCode code),
    fun r => repeatTimes (r.bitcnt.toNat / 8) shiftOutByte r]

/-- The width rule of `EmitCode` (40 R114): `NEXTCODE > (1 << NBITS) - 1 and NBITS < 12`. -/
def mustWiden (r : Regs) : Bool :=
  decide (2 ^ r.nbits.toNat - 1 < r.nextcode.toNat) && decide (r.nbits.toNat < Config.maxBits)

/-- `EmitCode(code)` (40 R114): pack at the width NBITS has now, then the width rule, before the insertion that follows. -/
def emitCode (code : Nat) : Micro :=
  program [
    packCode code,
    whenever mustWiden (write (fun r => { r with nbits := BitVec.ofNat 4 (r.nbits.toNat + 1) }))]

/-- `NBITS <- ICS + 1; DICT <- empty; NEXTCODE <- FIRSTFREE` (40 R116). -/
def clearDictionary (r : Regs) : Regs :=
  { r with nbits := BitVec.ofNat 4 (ics r + 1), dict := [], nextcode := BitVec.ofNat 13 (firstFree r) }

/-- `EmitClear()` (40 R116): CLEARC at the width in force, then the dictionary and the width return to their initial state. -/
def emitClear : Micro :=
  program [
    fun r => packCode (clearCode r) r,
    write clearDictionary]

/-- The insertion of `LzwPixel` (40 R117): `DICT[(CUR, c)] <- NEXTCODE; NEXTCODE <- NEXTCODE + 1`. -/
def insertPair (c : Byte) (r : Regs) : Regs :=
  { dictInsert r.cur c r with nextcode := BitVec.ofNat 13 (r.nextcode.toNat + 1) }

/-- The miss branch of `LzwPixel` (40 R117). -/
def lzwMiss (c : Byte) : Micro :=
  program [
    fun r => emitCode r.cur.toNat r,
    ifElse (fun r => decide (r.nextcode.toNat < Config.maxCodes)) (write (insertPair c)) emitClear,
    write (fun r => { r with cur := pixelCode c })]

/-- `LzwPixel(c)` (40 R117): the first pixel seeds CUR; a hit goes on matching; a miss emits CUR. -/
def lzwPixel (c : Byte) : Micro := fun r =>
  if r.pixcnt = 0 then write (fun q => { q with cur := pixelCode c }) r
  else match dictLookup r r.cur c with
    | some code => write (fun q => { q with cur := code }) r
    | none => lzwMiss c r

/-- `LzwFinish()` (40 R118): CUR, EOFC, the partial byte, the partial sub-block. -/
def lzwFinish : Micro :=
  program [
    fun r => emitCode r.cur.toNat r,
    fun r => emitCode (eofCode r) r,
    whenever (fun r => decide (0 < r.bitcnt.toNat)) (program [
      fun r => subPut (r.acc.setWidth 8) r,
      write (fun r => { r with acc := 0, bitcnt := 0 })]),
    subFlush]

/-- The register writes of `LzwInit()` before its `EmitClear` (40 R119). -/
def initCompressor (r : Regs) : Regs :=
  { r with
    cur := 0, acc := 0, bitcnt := 0, sbcnt := 0
    nbits := BitVec.ofNat 4 (ics r + 1), dict := [], nextcode := BitVec.ofNat 13 (firstFree r) }

/-- `LzwInit()` (40 R119). -/
def lzwInit : Micro := program [write initCompressor, emitClear]

end Sys2Proof.Machine
end

