-- ==== Sys2Proof/Machine/Formatter.lean ====
section
/-!
DEFINITION. The container formatter (spec 41 R140 to R151, layouts 30 R88 to R97): the blocks of the stream, BEGIN, FRAME and the
end-of-frame actions.
-/

namespace Sys2Proof.Machine

/-- The signature, "GIF89a" in ASCII (30 R88). -/
def signatureBytes : List Byte := [0x47#8, 0x49#8, 0x46#8, 0x38#8, 0x39#8, 0x61#8]

/-- The logical screen descriptor (30 R89, 41 R143). -/
def screenDescriptorBytes (r : Regs) : List Byte :=
  halfBytes r.canvw ++ halfBytes r.canvh ++ [0x80#8 ||| BitVec.ofNat 8 (colorBits r - 1), 0x00#8, 0x00#8]

/-- Entry `i` of the global color table: PAL[i], or three zero bytes at and above PALN (30 R90). -/
def colorTableEntry (r : Regs) (i : Nat) : List Byte :=
  if i < r.paln.toNat then rgbBytes (Memory.get r.pal i) else [0x00#8, 0x00#8, 0x00#8]

/-- The global color table, 2^CBITS entries (30 R90, 41 R144). -/
def colorTableBytes (r : Regs) : List Byte := (List.range (2 ^ colorBits r)).flatMap (colorTableEntry r)

/-- The looping extension (30 R91, 41 R145). -/
def loopExtensionBytes : List Byte :=
  [0x21#8, 0xFF#8, 0x0B#8, 0x4E#8, 0x45#8, 0x54#8, 0x53#8, 0x43#8, 0x41#8, 0x50#8, 0x45#8, 0x32#8, 0x2E#8, 0x30#8,
   0x03#8, 0x01#8, 0x00#8, 0x00#8, 0x00#8]

/-- The graphic control extension (30 R92, 41 R147). -/
def graphicControlBytes (r : Regs) : List Byte :=
  [0x21#8, 0xF9#8, 0x04#8, r.ftr.setWidth 8] ++ halfBytes r.fdelay ++ [if r.trv = 1 then r.tridx else 0x00#8, 0x00#8]

/-- The image descriptor (30 R93, 41 R148). -/
def imageDescriptorBytes (r : Regs) : List Byte :=
  [0x2C#8] ++ halfBytes r.fx ++ halfBytes r.fy ++ halfBytes r.fw ++ halfBytes r.fh ++ [(r.fil.setWidth 8) <<< 6]

/-- The minimum-code-size byte (30 R94, 41 R149). -/
def minCodeSizeByte (r : Regs) : Byte := BitVec.ofNat 8 (ics r)

/-- The block terminator, the one zero-length sub-block of a frame (30 R94). -/
def terminatorByte : Byte := 0x00#8

/-- The trailer (30 R97). -/
def trailerByte : Byte := 0x3B#8

/-- `LOOP = 1 and NFRAMES > 1` (41 R141, R145). -/
def wantsLoopExtension (r : Regs) : Bool := decide (r.loop = 1) && decide (1 < r.nframes.toNat)

/-- `TRV = 1 or NFRAMES > 1` (41 R146, R147). -/
def wantsGraphicControl (r : Regs) : Bool := decide (r.trv = 1) || decide (1 < r.nframes.toNat)

/-- The pseudocode of BEGIN (41 R141). -/
def beginMicro : Micro :=
  program [
    check (fun r => decide (r.nframes = 0)) .emptyAnimation,
    check (fun r => decide (r.paln = 0)) .badConfig,
    check (fun r => decide (r.canvw = 0) || decide (r.canvh = 0)) .badConfig,
    check (fun r => decide (r.trv = 1) && decide (r.paln.toNat ≤ r.tridx.toNat)) .badConfig,
    emit (fun _ => signatureBytes),
    emit screenDescriptorBytes,
    emit colorTableBytes,
    whenever wantsLoopExtension (emit (fun _ => loopExtensionBytes)),
    write (fun r => { r with fdone := 0 }),
    write (fun r => { r with phase := .stream })]

/-- BEGIN (41 R141). -/
def execBegin (s : State) : Answered := command inIdle beginMicro s

/-- The extent check of FRAME, "sums in 17 bits, no wrap" (41 R146). -/
def outsideCanvas (r : Regs) : Bool :=
  decide (r.canvw.toNat < r.fx.toNat + r.fw.toNat) || decide (r.canvh.toNat < r.fy.toNat + r.fh.toNat)

/-- The pseudocode of FRAME (41 R146). -/
def frameMicro : Micro :=
  program [
    check (fun r => decide (r.fw = 0) || decide (r.fh = 0)) .badConfig,
    check outsideCanvas .badConfig,
    check (fun r => decide (r.ftr = 1) && decide (r.trv = 0)) .badConfig,
    whenever wantsGraphicControl (emit graphicControlBytes),
    emit imageDescriptorBytes,
    emit (fun r => [minCodeSizeByte r]),
    write (fun r => { r with npix := pixelCount r }),
    write (fun r => { r with pixcnt := 0 }),
    lzwInit,
    write (fun r => { r with phase := .pixels })]

/-- FRAME (41 R146). -/
def execFrame (s : State) : Answered := command inStream frameMicro s

/-- `EndFrame()` (41 R150): the rest of the code stream, the terminator, the count, and after the last frame the trailer (R151). -/
def endFrame : Micro :=
  program [
    lzwFinish,
    emit (fun _ => [terminatorByte]),
    guardFault (fun r => decide (r.fdone.toNat = 65535)) .registerOverflow,
    write (fun r => { r with fdone := BitVec.ofNat 16 (r.fdone.toNat + 1) }),
    ifElse (fun r => decide (r.fdone = r.nframes))
      (program [
        emit (fun _ => [trailerByte]),
        write (fun r => { r with phase := .done })])
      (write (fun r => { r with phase := .stream }))]

end Sys2Proof.Machine
end

