-- ==== Sys2Proof/Machine/Pixel.lean ====
section
/-!
DEFINITION. The PIX command (spec 40 R121).
-/

namespace Sys2Proof.Machine

/-- The pseudocode of PIX c (40 R121). -/
def pixMicro (c : Byte) : Micro :=
  program [
    check (fun r => decide (r.paln.toNat ≤ c.toNat)) .pixelRange,
    lzwPixel c,
    guardFault (fun r => decide (r.pixcnt.toNat = 4294967295)) .registerOverflow,
    write (fun r => { r with pixcnt := BitVec.ofNat 32 (r.pixcnt.toNat + 1) }),
    whenever (fun r => decide (r.pixcnt = r.npix)) endFrame]

/-- PIX c (40 R121). -/
def execPix (c : Byte) (s : State) : Answered := command inPixels (pixMicro c) s

end Sys2Proof.Machine
end

