-- ==== Sys2Proof/Machine/System.lean ====
section
/-!
DEFINITION. The system command (spec 42 R161).
-/

namespace Sys2Proof.Machine

/-- RST (42 R161): legal in every phase, ERROR included; every register and store to its reset value; no byte is offered and nothing is
flushed; the bytes delivered stay delivered. It is the only return from ERROR (60 R202) and the
only command that leaves DONE without a fault: that any other takes DONE to ERROR is R175, against the words of R161 (c); DESIGN CHOICE, log 17. -/
def execRst (s : State) : Answered :=
  match s.held with
  | some _ => .next s
  | none => .next (resetBlock s)

end Sys2Proof.Machine
end

