-- ==== Sys2Proof/Machine/Dispatch.lean ====
section
/-!
DEFINITION. One arm per command of the opcode map (spec 30 R82, 42 R160).
-/

namespace Sys2Proof.Machine

def exec (i : Instr) (s : State) : Host.Outcome State Fault Refusal :=
  match i with
  | .rst => Sys2Proof.Machine.execRst s
  | .setw v => Sys2Proof.Machine.execSetw v s
  | .seth v => Sys2Proof.Machine.execSeth v s
  | .setnf v => Sys2Proof.Machine.execSetnf v s
  | .setloop lp => Sys2Proof.Machine.execSetloop lp s
  | .settr tv ti => Sys2Proof.Machine.execSettr tv ti s
  | .pal r g b => Sys2Proof.Machine.execPal r g b s
  | .begin => Sys2Proof.Machine.execBegin s
  | .setfx v => Sys2Proof.Machine.execSetfx v s
  | .setfy v => Sys2Proof.Machine.execSetfy v s
  | .setfw v => Sys2Proof.Machine.execSetfw v s
  | .setfh v => Sys2Proof.Machine.execSetfh v s
  | .setfd v => Sys2Proof.Machine.execSetfd v s
  | .setff tr il => Sys2Proof.Machine.execSetff tr il s
  | .frame => Sys2Proof.Machine.execFrame s
  | .pix c => Sys2Proof.Machine.execPix c s

end Sys2Proof.Machine
end

