-- ==== Sys2Proof/Machine/Step.lean ====
section
/-!
DEFINITION. The step (spec 00 R11, 42 R160): the engine takes the host's next word, decodes it and carries it out. While the sink holds a
step (20 R75) no word is taken, and the step goes on from the byte on offer.
-/

namespace Sys2Proof.Machine

/-- One step. With no move of the host to come the block waits, all state kept (70 R230; log 1). -/
def step (s : State) : Host.Outcome State Fault Refusal :=
  match s.held, s.host with
  | some run, _ => resume run s
  | none, [] => .next s
  | none, .resetPin :: rest => resetInput { s with host := rest }
  | none, .word w :: rest =>
    match decode w with
    | .ok i => exec i { s with host := rest }
    | .error _ => illegalWord { s with host := rest }

/-- `s` with the word of `nbits` bits `w` (bits at and above `nbits` zero) as the host's next move, and no step held, so that the next step
takes exactly it (log 3). -/
def State.withFetchWord (s : State) (nbits w : Nat) : State :=
  { s with host := .word (BitVec.ofNat 32 (w % 2 ^ nbits)) :: s.host, held := none }

end Sys2Proof.Machine
end

