-- ==== Sys2Proof/WellFormed.lean ====
section
/-!
DEFINITION. Well-formedness is a question only where a command is written with plain numbers: the assembler lines of spec 30 R85,
R86, whose operands have ranges ("An operand out of its range is an assembly error, never a truncation"). An `Instr` needs no
check of its own: the type of each field is its range.
-/

namespace Sys2Proof

/-- An assembler line after reading: a mnemonic of 30 R85 with its operands as plain numbers, or a pseudo-instruction of R86. -/
inductive AsmLine where
  | rst
  | setw (v : Nat)
  | seth (v : Nat)
  | setnf (v : Nat)
  | setloop (lp : Nat)
  | settr (tv ti : Nat)
  | pal (rgb : Nat)
  | begin
  | setfx (v : Nat)
  | setfy (v : Nat)
  | setfw (v : Nat)
  | setfh (v : Nat)
  | setfd (v : Nat)
  | setff (tr il : Nat)
  | frame
  | pix (c : Nat)
  /-- CANVAS w, h -/
  | canvas (w h : Nat)
  /-- PALETTE c0, c1, ..., ck -/
  | palette (cs : List Nat)
  /-- FRAMEDESC x, y, w, h, d, tr, il -/
  | framedesc (x y w h d tr il : Nat)
  /-- PIXELS p0, p1, ..., pk -/
  | pixels (ps : List Nat)
  /-- PIXELS n * p -/
  | pixelsTimes (n p : Nat)
  deriving DecidableEq, Repr

/-- A 16-bit operand, 0..65535 (30 R85). -/
def inHalf (v : Nat) : Bool := decide (v < 65536)

/-- An 8-bit operand, 0..255 (30 R85). -/
def inByte (v : Nat) : Bool := decide (v < 256)

/-- A 1-bit operand, 0 or 1 (30 R85). -/
def inBit (v : Nat) : Bool := decide (v < 2)

/-- A colour operand, 0..0xFFFFFF (30 R85). -/
def inRgb (v : Nat) : Bool := decide (v < 16777216)

/-- Every operand of the line is in its range (30 R85; R86 for the operands of a pseudo-instruction, each that of the command it
expands to). A PALETTE or PIXELS list has at least one entry, as R86 writes it (`c0` to `ck`). -/
def AsmLine.wellFormed : AsmLine → Bool
  | .rst | .begin | .frame => true
  | .setw v | .seth v | .setnf v | .setfx v | .setfy v | .setfw v | .setfh v | .setfd v => inHalf v
  | .setloop lp => inBit lp
  | .settr tv ti => inBit tv && inByte ti
  | .pal rgb => inRgb rgb
  | .setff tr il => inBit tr && inBit il
  | .pix c => inByte c
  | .canvas w h => inHalf w && inHalf h
  | .palette cs => !cs.isEmpty && cs.all inRgb
  | .framedesc x y w h d tr il =>
    inHalf x && inHalf y && inHalf w && inHalf h && inHalf d && inBit tr && inBit il
  | .pixels ps => !ps.isEmpty && ps.all inByte
  | .pixelsTimes _ p => inByte p

end Sys2Proof
end

