-- ==== Sys2Proof/Machine/Assembler.lean ====
section
/-!
DEFINITION. The assembler syntax and the pseudo-instructions (spec 30 R85, R86), from text to command words. It is how a host writes a
sequence of words down; no step of the machine reads it. What R85 leaves open of the text form is in log 16.
-/

namespace Sys2Proof.Machine

/-- Why a text is no program (30 R85). -/
inductive AsmError where
  /-- the line is no mnemonic of R85 or R86 with its number of operands -/
  | badLine
  /-- an operand is out of its range: "an assembly error, never a truncation" -/
  | operandRange
  deriving DecidableEq, Repr

/-- The commands a line stands for (30 R82, R86), its operands being in range. -/
def expandLine : AsmLine → List Instr
  | .rst => [.rst]
  | .setw v => [.setw (BitVec.ofNat 16 v)]
  | .seth v => [.seth (BitVec.ofNat 16 v)]
  | .setnf v => [.setnf (BitVec.ofNat 16 v)]
  | .setloop lp => [.setloop (BitVec.ofNat 1 lp)]
  | .settr tv ti => [.settr (BitVec.ofNat 1 tv) (BitVec.ofNat 8 ti)]
  | .pal rgb => [.pal (BitVec.ofNat 8 (rgb / 65536)) (BitVec.ofNat 8 (rgb / 256)) (BitVec.ofNat 8 rgb)]
  | .begin => [.begin]
  | .setfx v => [.setfx (BitVec.ofNat 16 v)]
  | .setfy v => [.setfy (BitVec.ofNat 16 v)]
  | .setfw v => [.setfw (BitVec.ofNat 16 v)]
  | .setfh v => [.setfh (BitVec.ofNat 16 v)]
  | .setfd v => [.setfd (BitVec.ofNat 16 v)]
  | .setff tr il => [.setff (BitVec.ofNat 1 tr) (BitVec.ofNat 1 il)]
  | .frame => [.frame]
  | .pix c => [.pix (BitVec.ofNat 8 c)]
  | .canvas w h => [.setw (BitVec.ofNat 16 w), .seth (BitVec.ofNat 16 h)]
  | .palette cs =>
    cs.map (fun c => .pal (BitVec.ofNat 8 (c / 65536)) (BitVec.ofNat 8 (c / 256)) (BitVec.ofNat 8 c))
  | .framedesc x y w h d tr il =>
    [.setfx (BitVec.ofNat 16 x), .setfy (BitVec.ofNat 16 y), .setfw (BitVec.ofNat 16 w), .setfh (BitVec.ofNat 16 h),
     .setfd (BitVec.ofNat 16 d), .setff (BitVec.ofNat 1 tr) (BitVec.ofNat 1 il)]
  | .pixels ps => ps.map (fun p => .pix (BitVec.ofNat 8 p))
  | .pixelsTimes n p => List.replicate n (.pix (BitVec.ofNat 8 p))

/-- Assemble a line: its command words, or an assembly error for an operand out of its range (30 R85). -/
def assembleLine (l : AsmLine) : Except AsmError (List Word) :=
  if l.wellFormed then .ok ((expandLine l).map encode) else .error .operandRange

/-- White space inside a line. -/
def isBlank (c : Char) : Bool := c == ' ' || c == '\t' || c == '\r'

/-- A text without the blanks at its two ends. -/
def trimBlanks (t : List Char) : List Char := ((t.dropWhile isBlank).reverse.dropWhile isBlank).reverse

/-- A text cut at every occurrence of a separator. -/
def cutAt (sep : Char) : List Char → List (List Char)
  | [] => [[]]
  | c :: cs =>
    if c = sep then [] :: cutAt sep cs
    else match cutAt sep cs with
      | [] => [[c]]
      | p :: ps => (c :: p) :: ps

/-- The value of a digit in a base, decimal or hexadecimal. -/
def digitValue (base : Nat) (c : Char) : Option Nat :=
  let v := if '0' ≤ c ∧ c ≤ '9' then c.toNat - 48
    else if 'a' ≤ c ∧ c ≤ 'f' then c.toNat - 87
    else if 'A' ≤ c ∧ c ≤ 'F' then c.toNat - 55
    else base
  if v < base then some v else none

/-- Digits, most significant first, after a value read so far. -/
def digitsValue (base : Nat) : Nat → List Char → Option Nat
  | acc, [] => some acc
  | acc, c :: cs =>
    match digitValue base c with
    | some v => digitsValue base (acc * base + v) cs
    | none => none

/-- A number, decimal or `0x` hexadecimal (30 R85). -/
def readNumber : List Char → Option Nat
  | [] => none
  | ['0', 'x'] => none
  | '0' :: 'x' :: ds => digitsValue 16 0 ds
  | ds => digitsValue 10 0 ds

/-- The operands of a line, separated by commas; no text, no operand. -/
def readOperands (t : List Char) : Option (List Nat) :=
  if t.isEmpty then some [] else (cutAt ',' t).mapM (fun o => readNumber (trimBlanks o))

/-- The operands `n * p` of `PIXELS n * p` (30 R86). -/
def readTimes (t : List Char) : Option AsmLine :=
  match cutAt '*' t with
  | [n, p] =>
    match readNumber (trimBlanks n), readNumber (trimBlanks p) with
    | some n, some p => some (.pixelsTimes n p)
    | _, _ => none
  | _ => none

/-- A mnemonic in capitals and its operands (30 R85, R86). -/
def lineOf : List Char → List Nat → Option AsmLine
  | ['R', 'S', 'T'], [] => some .rst
  | ['S', 'E', 'T', 'W'], [v] => some (.setw v)
  | ['S', 'E', 'T', 'H'], [v] => some (.seth v)
  | ['S', 'E', 'T', 'N', 'F'], [v] => some (.setnf v)
  | ['S', 'E', 'T', 'L', 'O', 'O', 'P'], [lp] => some (.setloop lp)
  | ['S', 'E', 'T', 'T', 'R'], [tv, ti] => some (.settr tv ti)
  | ['P', 'A', 'L'], [rgb] => some (.pal rgb)
  | ['B', 'E', 'G', 'I', 'N'], [] => some .begin
  | ['S', 'E', 'T', 'F', 'X'], [v] => some (.setfx v)
  | ['S', 'E', 'T', 'F', 'Y'], [v] => some (.setfy v)
  | ['S', 'E', 'T', 'F', 'W'], [v] => some (.setfw v)
  | ['S', 'E', 'T', 'F', 'H'], [v] => some (.setfh v)
  | ['S', 'E', 'T', 'F', 'D'], [v] => some (.setfd v)
  | ['S', 'E', 'T', 'F', 'F'], [tr, il] => some (.setff tr il)
  | ['F', 'R', 'A', 'M', 'E'], [] => some .frame
  | ['P', 'I', 'X'], [c] => some (.pix c)
  | ['C', 'A', 'N', 'V', 'A', 'S'], [w, h] => some (.canvas w h)
  | ['P', 'A', 'L', 'E', 'T', 'T', 'E'], c :: cs => some (.palette (c :: cs))
  | ['F', 'R', 'A', 'M', 'E', 'D', 'E', 'S', 'C'], [x, y, w, h, d, tr, il] => some (.framedesc x y w h d tr il)
  | ['P', 'I', 'X', 'E', 'L', 'S'], p :: ps => some (.pixels (p :: ps))
  | _, _ => none

/-- One line of text: nothing for an empty line or a comment, else the line it spells (30 R85: "A # starts a comment"). -/
def readLine (t : List Char) : Except AsmError (Option AsmLine) :=
  let body := trimBlanks (t.takeWhile (fun c => c != '#'))
  let mnemonic := body.takeWhile (fun c => !isBlank c)
  let operands := trimBlanks (body.dropWhile (fun c => !isBlank c))
  if body.isEmpty then .ok none
  else if mnemonic = ['P', 'I', 'X', 'E', 'L', 'S'] ∧ operands.contains '*' then
    match readTimes operands with
    | some l => .ok (some l)
    | none => .error .badLine
  else match readOperands operands with
    | none => .error .badLine
    | some ns =>
      match lineOf mnemonic ns with
      | some l => .ok (some l)
      | none => .error .badLine

/-- The words of a line of text. -/
def assembleTextLine (t : List Char) : Except AsmError (List Word) :=
  match readLine t with
  | .error e => .error e
  | .ok none => .ok []
  | .ok (some l) => assembleLine l

/-- The words of several lines, in order. -/
def assembleTextLines : List (List Char) → Except AsmError (List Word)
  | [] => .ok []
  | t :: ts =>
    match assembleTextLine t, assembleTextLines ts with
    | .ok ws, .ok rest => .ok (ws ++ rest)
    | .error e, _ => .error e
    | _, .error e => .error e

/-- A program in the assembler syntax, one command per line (30 R85), as command words. -/
def assembleText (t : List Char) : Except AsmError (List Word) := assembleTextLines (cutAt '\n' t)

end Sys2Proof.Machine
end

