-- ==== Sys2Proof/Safety.lean ====
section
/-!
DEFINITION. What claims are stated in: the well-formed register values (spec 10 R26, R27, R36 to R48, 40 R120), the invariant of a whole
state, the reached states, and a frame's registers. Nothing here is read by a step.
-/

namespace Sys2Proof.Machine

/-- The stores are in canonical form and hold nothing outside their range: PALN in 0..256 (10 R26), PAL zero at and above PALN (R27), SBBUF
254 entries (R47), DICT keyed by 20-bit pairs (R44). -/
def StoresOk (r : Regs) : Prop :=
  r.paln.toNat ≤ 256 ∧ Memory.wf r.paln.toNat r.pal = true ∧ Memory.wf 254 r.sbbuf = true ∧ Memory.wfMap 1048576 r.dict = true

/-- ERRCODE "is nonzero exactly when PHASE = ERROR" (10 R37), and the code of InvariantViolation is never there (60 R194). -/
def ErrcodeOk (r : Regs) : Prop :=
  (r.errcode ≠ none ↔ r.phase = .error) ∧ r.errcode ≠ some .invariantViolation

/-- What BEGIN has checked and no later command can change (41 R141, 42 R175). -/
def StreamConfigOk (r : Regs) : Prop :=
  r.nframes.toNat ≠ 0 ∧ r.paln.toNat ≠ 0 ∧ r.canvw.toNat ≠ 0 ∧ r.canvh.toNat ≠ 0 ∧ (r.trv = 1#1 → r.tridx.toNat < r.paln.toNat)

/-- What FRAME has checked and latched (41 R146), with PIXCNT < NPIX between steps (10 R40). -/
def FrameOk (r : Regs) : Prop :=
  r.fw.toNat ≠ 0 ∧ r.fh.toNat ≠ 0 ∧ r.fx.toNat + r.fw.toNat ≤ r.canvw.toNat ∧ r.fy.toNat + r.fh.toNat ≤ r.canvh.toNat ∧
  (r.ftr = 1#1 → r.trv = 1#1) ∧ r.npix.toNat = r.fw.toNat * r.fh.toNat ∧ r.pixcnt.toNat < r.npix.toNat

/-- The width of the codes (40 R115): NBITS is the least width from ICS + 1 up that holds NEXTCODE, capped at 12. -/
def WidthOk (r : Regs) : Prop :=
  ics r + 1 ≤ r.nbits.toNat ∧ r.nbits.toNat ≤ 12 ∧ r.nextcode.toNat ≤ 2 ^ r.nbits.toNat ∧
  (r.nbits.toNat = ics r + 1 ∨ 2 ^ (r.nbits.toNat - 1) < r.nextcode.toNat)

/-- The codes of the dictionary (40 R120 (b), (g)): exactly FIRSTFREE..NEXTCODE-1, each once. -/
def CodesOk (r : Regs) : Prop :=
  firstFree r ≤ r.nextcode.toNat ∧ r.nextcode.toNat ≤ 4096 ∧
  (r.dict.map (fun e => e.2.toNat)).Perm (List.range' (firstFree r) (r.nextcode.toNat - firstFree r))

/-- CUR (40 R120 (d)): below NEXTCODE, and neither CLEARC nor EOFC. -/
def CurOk (r : Regs) : Prop :=
  r.cur.toNat < r.nextcode.toNat ∧ r.cur.toNat ≠ clearCode r ∧ r.cur.toNat ≠ eofCode r

/-- The packer and the sub-block buffer between micro-operations (40 R120 (e), (f)). -/
def PackerOk (r : Regs) : Prop :=
  r.bitcnt.toNat ≤ 7 ∧ r.acc.toNat < 2 ^ r.bitcnt.toNat ∧ r.sbcnt.toNat ≤ 253

/-- The invariants of phase PIXELS (40 R120). -/
def LzwOk (r : Regs) : Prop := WidthOk r ∧ CodesOk r ∧ CurOk r ∧ PackerOk r

/-- What holds of the registers in each phase, between steps: IDLE has counted no frame, STREAM has frames left (10 R38), PIXELS is inside
one, DONE has counted them all (41 R150). -/
def PhaseOk (r : Regs) : Prop :=
  match r.phase with
  | .idle => r.fdone.toNat = 0
  | .stream => StreamConfigOk r ∧ r.fdone.toNat < r.nframes.toNat
  | .pixels => StreamConfigOk r ∧ r.fdone.toNat < r.nframes.toNat ∧ FrameOk r ∧ LzwOk r
  | .done => StreamConfigOk r ∧ r.fdone.toNat = r.nframes.toNat
  | .error => True

/-- The registers at a byte on offer, or when a step stops in the middle: the stores and ERRCODE. -/
def MidOk (r : Regs) : Prop := StoresOk r ∧ r.errcode = none ∧ r.phase ≠ .error

/-- The registers between steps. -/
def RegsOk (r : Regs) : Prop := StoresOk r ∧ ErrcodeOk r ∧ PhaseOk r

/-- What a piece of pseudocode may do from good registers: no model fault, no InvariantViolation, and good registers at every offer and at its
end. -/
def RunOk (run : Run) : Prop :=
  (∀ o ∈ run.offers, MidOk o.regs) ∧
  match run.stop with
  | none => RegsOk run.regs
  | some (.raise e) => MidOk run.regs ∧ e ≠ .invariantViolation
  | some (.fault _) => False

/-- The invariant of a state: good registers between steps; in a held step, the registers of the byte on offer and good registers to come. -/
def Invariant (s : State) : Prop :=
  match s.held with
  | none => RegsOk s.regs
  | some run => RunOk run ∧ run.offers.head?.map Offer.regs = some s.regs

/-- The states a run from reset goes through, whatever the host sends and however the sink answers. -/
inductive Reached : State → Prop where
  | start (host : List HostMove) (sink : Sink) : Reached { State.reset with host := host, sink := sink }
  | next (s t : State) : Reached s → step s = .next t → Reached t

/-- The phase table, row by row (42 R175): the phases in which the command is legal. ERROR ignores every word but RST, so it is no phase
where another command is legal. Written apart from the meanings, so that a statement can hold them against it. -/
def legalIn : Instr → Phase → Bool
  | .rst, _ => true
  | _, .error => false
  | .setw _, p | .seth _, p | .setnf _, p | .setloop _, p | .settr _ _, p | .pal _ _ _, p | .begin, p => decide (p = .idle)
  | .setfx _, p | .setfy _, p | .setfw _, p | .setfh _, p | .setfd _, p | .setff _ _, p => decide (p = .idle ∨ p = .stream)
  | .frame, p => decide (p = .stream)
  | .pix _, p => decide (p = .pixels)

/-- A step that stops with a model fault. -/
def stepFaults (s : State) : Prop := ∃ f, step s = .fault f

/-- A step that is refused. -/
def stepRefuses (s : State) : Prop := ∃ f, step s = .refused f

/-- The engine is ready for a word: no step is held. -/
def Ready (s : State) : Prop := s.held = none

/-- The sink accepts whatever is offered from here on. -/
def AcceptsAll (k : Sink) : Prop := k.rest = .accept ∧ ∀ a ∈ k.script, a = .accept

/-- The bytes a piece of pseudocode offers, in order: "the fault-free byte sequence" of the step (60 R206). -/
def offeredBytes (run : Run) : List Byte := run.offers.map Offer.byte

/-- The `n` low bytes of a number, the lowest first. -/
def littleEndian (n value : Nat) : List Byte := (List.range n).map (fun i => BitVec.ofNat 8 (value / 256 ^ i))

/-- What becomes of the data bytes waiting in the sub-block buffer (40 R112): fewer than 254 wait on; at 254 they leave behind the length byte
`FE`, and what is left waits. First what leaves, then what waits. -/
def fillSubBlock (data : List Byte) : List Byte × List Byte :=
  if data.length < 254 then ([], data) else (0xFE#8 :: data.take 254, data.drop 254)

end Sys2Proof.Machine
end

