-- ==== Sys2Proof/Certificates/Slice0/Obligations.lean ====
section
/-!
DEFINITION. The statements for the provers. Each docstring names the rules of spec/ that the statement formalises. "Ready" is: no step is
held by the sink (spec 20 R61, R75). "AcceptsAll" is: the sink accepts every byte it is offered (20 R63, 93 U5).
-/

open Sys2Proof Sys2Proof.Machine

/-! ### Encodings -/

/-- A few words, written out from the formats of 30 R81 and the opcodes of R82, decode to the command they stand for. -/
def Obligations.SampleWordsDecode : Prop :=
  decode 0x01000000#32 = .ok .rst ∧
  decode 0x10000280#32 = .ok (.setw 640#16) ∧
  decode 0x13000001#32 = .ok (.setloop 1#1) ∧
  decode 0x140001FF#32 = .ok (.settr 1#1 255#8) ∧
  decode 0x15FF8000#32 = .ok (.pal 0xFF#8 0x80#8 0x00#8) ∧
  decode 0x34001234#32 = .ok (.setfd 0x1234#16) ∧
  decode 0x35000002#32 = .ok (.setff 1#1 0#1) ∧
  decode 0x410000FF#32 = .ok (.pix 255#8)

/-- Decoding an encoded command gives it back, with every operand at every value its format carries (30 R80 to R82). -/
def Obligations.DecodeOfEncode : Prop :=
  ∀ i : Instr, decode (encode i) = .ok i

/-- A word that decodes is the encoding of what it decodes to: no bit of a word is dropped (30 R80 to R82). -/
def Obligations.EncodeOfDecode : Prop :=
  ∀ (w : Word) (i : Instr), decode w = .ok i → encode i = w

/-- 30 R82: a word is a command exactly when `w & mask = match` for that command's row, and the rows are disjoint. -/
def Obligations.WordIsCommandExactlyWhenRowMatches : Prop :=
  (∀ (w : Word) (i : Instr), decode w = .ok i → w &&& (opcodeRow i).mask = (opcodeRow i).mat) ∧
  (∀ (w : Word) (i : Instr), w &&& (opcodeRow i).mask = (opcodeRow i).mat →
    ∃ j, decode w = .ok j ∧ opcodeRow j = opcodeRow i) ∧
  (∀ (w : Word) (i j : Instr), w &&& (opcodeRow i).mask = (opcodeRow i).mat →
    w &&& (opcodeRow j).mask = (opcodeRow j).mat → opcodeRow i = opcodeRow j)

/-- 30 R83: a word that matches no row raises IllegalCommand in every phase but ERROR and is consumed and ignored in ERROR; the all-zero
word, the all-ones word and `0x01000001` are such words. -/
def Obligations.UnmatchedWordIsIllegal : Prop :=
  (∀ (s : State) (w : Word) (rest : List HostMove), Ready s → s.host = .word w :: rest →
    (∀ i : Instr, w &&& (opcodeRow i).mask ≠ (opcodeRow i).mat) →
    step s = .next (if s.regs.phase = .error then { s with host := rest }
      else { s with host := rest, regs := { s.regs with errcode := some .illegalCommand, phase := .error } })) ∧
  (∀ i : Instr, ∀ w ∈ [0x00000000#32, 0xFFFFFFFF#32, 0x01000001#32], w &&& (opcodeRow i).mask ≠ (opcodeRow i).mat)

/-! ### Reset, the step, the dispatcher -/

/-- 10 R52, 70 R221: what reset leaves, register by register, after power-up, after RST and after the reset pin; the status word and the pins
read 0, the command port is ready and nothing is on offer; BEGIN at once raises EmptyAnimation. -/
def Obligations.ResetLeavesResetValues : Prop :=
  let r := State.reset.regs
  (r.canvw = 0 ∧ r.canvh = 0 ∧ r.nframes = 0 ∧ r.loop = 1 ∧ r.trv = 0 ∧ r.tridx = 0 ∧ r.paln = 0 ∧
    (∀ i, Memory.get r.pal i = 0)) ∧
  (r.fx = 0 ∧ r.fy = 0 ∧ r.fw = 0 ∧ r.fh = 0 ∧ r.fdelay = 0 ∧ r.fil = 0 ∧ r.ftr = 0) ∧
  (r.phase = .idle ∧ r.errcode = none ∧ r.fdone = 0 ∧ r.npix = 0 ∧ r.pixcnt = 0) ∧
  (r.cur = 0 ∧ r.nextcode = 0 ∧ r.nbits = 0 ∧ (∀ p c, dictLookup r p c = none) ∧ r.acc = 0 ∧ r.bitcnt = 0 ∧
    (∀ i, Memory.get r.sbbuf i = 0) ∧ r.sbcnt = 0) ∧
  (status r = 0 ∧ donePinByPhase r = false ∧ donePinUntilRst r = false ∧ errPin r = false ∧ cmdReady State.reset = true ∧
    outValid State.reset = false) ∧
  (∀ s t : State, Ready s → exec .rst s = .next t → t.regs = r) ∧
  (∀ (s t : State) (rest : List HostMove), Ready s → s.host = .resetPin :: rest → step s = .next t → t.regs = r) ∧
  exec .begin State.reset = .next { State.reset with regs := { r with errcode := some .emptyAnimation, phase := .error } }

/-- 00 R11, 42 R160: when the engine is ready and the host's next word decodes to a command, the step is that command, the word being taken
off the port. -/
def Obligations.StepRunsDecodedWord : Prop :=
  ∀ (s : State) (w : Word) (rest : List HostMove) (i : Instr),
    Ready s → s.host = .word w :: rest → decode w = .ok i → step s = exec i { s with host := rest }

/-- 42 R160: the step of a command word, test by test and in this order: RST; the phase ERROR; a word that matches no row; a command that is
not legal in the phase; the command's own rule. -/
def Obligations.DispatcherTestsInOrder : Prop :=
  ∀ (s : State) (w : Word) (rest : List HostMove), Ready s → s.host = .word w :: rest →
    step s =
      if w = 0x01000000#32 then .next { s with host := rest, regs := State.reset.regs }
      else if s.regs.phase = .error then .next { s with host := rest }
      else match decode w with
        | .error _ =>
          .next { s with host := rest, regs := { s.regs with errcode := some .illegalCommand, phase := .error } }
        | .ok i =>
          if legalIn i s.regs.phase then exec i { s with host := rest }
          else .next { s with host := rest, regs := { s.regs with errcode := some .illegalCommand, phase := .error } }

/-- 70 R230: with no word to take and no step held the block stays as it is ("all state survives for any length of time"). That the model
makes a step of this wait is its own choice (log 1). -/
def Obligations.WaitChangesNothing : Prop :=
  ∀ s : State, Ready s → s.host = [] → step s = .next s

/-- 42 R161: RST, in every phase, returns every register and store to its reset value and offers no byte; OUT is not cleared; two RST in a
row are the same as one; no other command leaves ERROR (60 R201). Every other command in DONE goes to ERROR: that is 42 R175 and 41 R152,
against the words of R161 (c) that RST is the only way out of DONE, and of the two the model takes R175 (log 17). -/
def Obligations.RstReturnsToReset : Prop :=
  (∀ s : State, Ready s → exec .rst s = .next { s with regs := State.reset.regs }) ∧
  (∀ s t : State, Ready s → exec .rst s = .next t → exec .rst t = .next t) ∧
  (∀ (i : Instr) (s t : State), Ready s → i ≠ .rst → exec i s = .next t →
    (s.regs.phase = .error → t = s) ∧ (s.regs.phase = .done → t.regs.phase = .error))

/-- 60 R201: in phase ERROR every command word except the exact word `0x01000000` is consumed and ignored: no register changes, no byte is
offered, ERRCODE keeps its code. -/
def Obligations.ErrorPhaseIgnoresAllButRst : Prop :=
  ∀ (s : State) (w : Word) (rest : List HostMove),
    Ready s → s.regs.phase = .error → s.host = .word w :: rest → w ≠ 0x01000000#32 →
      step s = .next { s with host := rest }

/-- 60 R200, R190: `raise E` writes ERRCODE and PHASE and nothing else and ends the step, whatever pseudocode is still to come; the codes of
the seven classes. -/
def Obligations.FaultEntryWritesTwoRegisters : Prop :=
  (∀ (e : ErrorClass) (rest : List Micro) (r : Regs) (s : State), s.regs = r → Ready s →
    deliver (program (raiseError e :: rest) r) s = .next { s with regs := { r with errcode := some e, phase := .error } }) ∧
  [ErrorClass.tooManyColors, .emptyAnimation, .sinkIOError, .invariantViolation, .badConfig, .pixelRange,
    .illegalCommand].map (fun e => (errcodeBits (some e)).toNat) = [1, 2, 3, 4, 5, 6, 7] ∧
  (errcodeBits none).toNat = 0

/-- 60 R197, 42 R175: in a phase other than ERROR, a command that the phase table marks ILL and a word that matches no row raise
IllegalCommand; everything is as before the step but PHASE and ERRCODE. -/
def Obligations.CommandOutsideItsPhasesIsIllegal : Prop :=
  (∀ (i : Instr) (s : State), Ready s → s.regs.phase ≠ .error → legalIn i s.regs.phase = false →
    exec i s = .next { s with regs := { s.regs with errcode := some .illegalCommand, phase := .error } }) ∧
  (∀ (s : State) (w : Word) (rest : List HostMove), Ready s → s.regs.phase ≠ .error → s.host = .word w :: rest →
    (∀ i : Instr, decode w = .ok i → legalIn i s.regs.phase = false) →
    step s = .next { s with host := rest, regs := { s.regs with errcode := some .illegalCommand, phase := .error } })

/-- 20 R61, R75: while a step is held, `cmd_ready` is 0 and no step takes a word off the port, whatever the sink answers: the host's moves
stay as they are, except that a reset pin that is the next move may be used up (70 R220). That `exec`, which no step calls then, answers a
held state as it is, is the model's own choice (log 4). -/
def Obligations.HeldEngineTakesNoWord : Prop :=
  (∀ (s t : State) (run : Run), s.held = some run → step s = .next t →
    cmdReady s = false ∧ (s.host.head? ≠ some .resetPin → t.host = s.host) ∧
    (∀ rest, s.host = .resetPin :: rest → t.host = s.host ∨ t.host = rest)) ∧
  (∀ (i : Instr) (s : State), ¬ Ready s → exec i s = .next s)

/-- 42 R160, 00 R14: every command in every state whose registers satisfy the invariants of 40 R120 and whose step is not held ends in a next
state: no fault of the model, no refusal. -/
def Obligations.EveryCommandAnswers : Prop :=
  ∀ (i : Instr) (s : State), Ready s → RegsOk s.regs → ∃ t, exec i s = .next t ∧ t.host = s.host

/-! ### Status and pins -/

/-- 10 R49, R36: STATUS is FDONE in 31:16, ERRCODE in 7:4, PHASE in 2:0, and 0 in bits 3 and 15:8; the encodings of PHASE are IDLE = 0,
STREAM = 1, PIXELS = 2, DONE = 3, ERROR = 4. -/
def Obligations.StatusWordLayout : Prop :=
  [Phase.idle, .stream, .pixels, .done, .error].map (fun p => (phaseBits p).toNat) = [0, 1, 2, 3, 4] ∧
  ∀ r : Regs,
    (status r).extractLsb' 16 16 = r.fdone ∧ (status r).extractLsb' 8 8 = 0#8 ∧
    (status r).extractLsb' 4 4 = errcodeBits r.errcode ∧ (status r).extractLsb' 3 1 = 0#1 ∧
    (status r).extractLsb' 0 3 = phaseBits r.phase ∧
    (status r).toNat = r.fdone.toNat * 65536 + (errcodeBits r.errcode).toNat * 16 + (phaseBits r.phase).toNat

/-- 10 R50, R37, 60 R198: `err` is 1 exactly in ERROR, ERRCODE is nonzero exactly in ERROR in the states the invariant allows, and when no step
is held `err` falls only on RST or the reset pin. The spec conflicts with itself on when `done` falls; the model has the pin by each rule and
sets neither aside (log 17), and this states both. By R50, `donePinByPhase` is 1 exactly in DONE; when no step is held it falls only on RST or
the reset pin or on a fault, whose `err` replaces it. By R198, `donePinUntilRst` falls in a run only on RST or the reset pin, rises in a run only
on arrival in DONE, and is 1 in DONE and after a command in DONE that is not RST. Both are the same outside ERROR. All are 0 after reset, and no
run has a held step while `err` or `donePinByPhase` is 1. -/
def Obligations.PinsFollowPhase : Prop :=
  (∀ r : Regs, (donePinByPhase r = true ↔ r.phase = .done) ∧ (errPin r = true ↔ r.phase = .error)) ∧
  (donePinByPhase State.reset.regs = false ∧ donePinUntilRst State.reset.regs = false ∧ errPin State.reset.regs = false) ∧
  (∀ r : Regs, RegsOk r → (errcodeBits r.errcode ≠ 0#4 ↔ errPin r = true)) ∧
  (∀ s t : State, Ready s → step s = .next t → errPin s.regs = true → errPin t.regs = false →
    ∃ rest, s.host = .resetPin :: rest ∨ s.host = .word 0x01000000#32 :: rest) ∧
  (∀ s t : State, Ready s → step s = .next t → donePinByPhase s.regs = true → donePinByPhase t.regs = false →
    errPin t.regs = true ∨ ∃ rest, s.host = .resetPin :: rest ∨ s.host = .word 0x01000000#32 :: rest) ∧
  (∀ s : State, Reached s → ¬ Ready s → donePinByPhase s.regs = false ∧ errPin s.regs = false) ∧
  (∀ r : Regs, r.phase ≠ .error → donePinUntilRst r = donePinByPhase r) ∧
  (∀ s t : State, Reached s → step s = .next t → donePinUntilRst s.regs = false → donePinUntilRst t.regs = true →
    t.regs.phase = .done) ∧
  (∀ s t : State, Reached s → step s = .next t → donePinUntilRst s.regs = true → donePinUntilRst t.regs = false →
    ∃ rest, s.host = .resetPin :: rest ∨ s.host = .word 0x01000000#32 :: rest) ∧
  (∀ (i : Instr) (s : State), Reached s → s.regs.phase = .done → i ≠ .rst →
    ∃ t, exec i s = .next t ∧ errPin t.regs = true ∧ donePinByPhase t.regs = false ∧ donePinUntilRst t.regs = true)

/-! ### Configuration commands -/

/-- 42 R162 to R166: in IDLE each of SETW, SETH, SETNF, SETLOOP, SETTR writes its own register or registers and changes nothing else. -/
def Obligations.AnimationConfigWrites : Prop :=
  ∀ s : State, Ready s → s.regs.phase = .idle →
    (∀ v, exec (.setw v) s = .next { s with regs := { s.regs with canvw := v } }) ∧
    (∀ v, exec (.seth v) s = .next { s with regs := { s.regs with canvh := v } }) ∧
    (∀ v, exec (.setnf v) s = .next { s with regs := { s.regs with nframes := v } }) ∧
    (∀ lp, exec (.setloop lp) s = .next { s with regs := { s.regs with loop := lp } }) ∧
    (∀ tv ti, exec (.settr tv ti) s = .next { s with regs := { s.regs with trv := tv, tridx := ti } })

/-- 42 R168 to R173: in IDLE and in STREAM each of SETFX, SETFY, SETFW, SETFH, SETFD, SETFF writes its own register or registers and changes
nothing else. -/
def Obligations.FrameConfigWrites : Prop :=
  ∀ s : State, Ready s → (s.regs.phase = .idle ∨ s.regs.phase = .stream) →
    (∀ v, exec (.setfx v) s = .next { s with regs := { s.regs with fx := v } }) ∧
    (∀ v, exec (.setfy v) s = .next { s with regs := { s.regs with fy := v } }) ∧
    (∀ v, exec (.setfw v) s = .next { s with regs := { s.regs with fw := v } }) ∧
    (∀ v, exec (.setfh v) s = .next { s with regs := { s.regs with fh := v } }) ∧
    (∀ v, exec (.setfd v) s = .next { s with regs := { s.regs with fdelay := v } }) ∧
    (∀ tr il, exec (.setff tr il) s = .next { s with regs := { s.regs with ftr := tr, fil := il } })

/-- 42 R167, 60 R191: in IDLE with fewer than 256 entries PAL appends its 24-bit value at index PALN and increments PALN; every other entry
of the palette, and everything else, is unchanged. The 257th PAL raises TooManyColors before anything is written: PALN stays 256, the palette
is unchanged, nothing is delivered. -/
def Obligations.PalAppendsEntry : Prop :=
  ∀ (s : State) (r g b : Byte), Ready s → s.regs.phase = .idle → StoresOk s.regs →
    (s.regs.paln.toNat < 256 →
      ∃ t, exec (.pal r g b) s = .next t ∧
        t = { s with regs := { s.regs with pal := t.regs.pal, paln := t.regs.paln } } ∧
        t.regs.paln.toNat = s.regs.paln.toNat + 1 ∧
        (∀ i, Memory.get t.regs.pal i = if i = s.regs.paln.toNat then r ++ g ++ b else Memory.get s.regs.pal i)) ∧
    (s.regs.paln.toNat = 256 →
      exec (.pal r g b) s = .next { s with regs := { s.regs with errcode := some .tooManyColors, phase := .error } })

/-! ### Derived quantities and the blocks of the stream -/

/-- 10 R34, R35: for PALN in 1..256, CBITS is the least b in 1..8 with 2^b >= PALN; ICS = max(2, CBITS) is in 2..8, CLEARC = 2^ICS, EOFC =
CLEARC + 1, FIRSTFREE = CLEARC + 2. -/
def Obligations.CbitsIsLeast : Prop :=
  ∀ r : Regs, 1 ≤ r.paln.toNat → r.paln.toNat ≤ 256 →
    (1 ≤ colorBits r ∧ colorBits r ≤ 8 ∧ r.paln.toNat ≤ 2 ^ colorBits r) ∧
    (∀ b, 1 ≤ b → b ≤ 8 → r.paln.toNat ≤ 2 ^ b → colorBits r ≤ b) ∧
    (ics r = max 2 (colorBits r) ∧ 2 ≤ ics r ∧ ics r ≤ 8) ∧
    (clearCode r = 2 ^ ics r ∧ eofCode r = clearCode r + 1 ∧ firstFree r = clearCode r + 2)

/-- 30 R90: the global color table has 2^CBITS entries of 3 bytes, entry i at bytes 3i, 3i+1, 3i+2: red, green and blue of PAL[i] below
PALN, three zero bytes at and above it. -/
def Obligations.ColorTableLayout : Prop :=
  ∀ r : Regs,
    (colorTableBytes r).length = 3 * 2 ^ colorBits r ∧
    ∀ i, i < 2 ^ colorBits r →
      ((colorTableBytes r)[3 * i]?, (colorTableBytes r)[3 * i + 1]?, (colorTableBytes r)[3 * i + 2]?) =
        if i < r.paln.toNat then
          (some ((Memory.get r.pal i).extractLsb' 16 8), some ((Memory.get r.pal i).extractLsb' 8 8),
            some ((Memory.get r.pal i).extractLsb' 0 8))
        else (some 0#8, some 0#8, some 0#8)

/-- 41 R141 to R145: in IDLE, with the configuration BEGIN asks for and a sink that accepts, BEGIN delivers the signature, the screen
descriptor, the color table and, when LOOP = 1 and NFRAMES > 1, the looping extension, sets FDONE to 0 and moves to STREAM; nothing else
changes. -/
def Obligations.BeginOpensStream : Prop :=
  ∀ s : State, Ready s → s.regs.phase = .idle → AcceptsAll s.sink →
    s.regs.nframes.toNat ≠ 0 → s.regs.paln.toNat ≠ 0 → s.regs.canvw.toNat ≠ 0 → s.regs.canvh.toNat ≠ 0 →
    (s.regs.trv = 1#1 → s.regs.tridx.toNat < s.regs.paln.toNat) →
    ∃ t, exec .begin s = .next t ∧
      t = { s with out := t.out, sink := t.sink, regs := { s.regs with fdone := 0#16, phase := .stream } } ∧
      AcceptsAll t.sink ∧
      t.out = s.out ++
        [0x47#8, 0x49#8, 0x46#8, 0x38#8, 0x39#8, 0x61#8] ++
        [s.regs.canvw.extractLsb' 0 8, s.regs.canvw.extractLsb' 8 8, s.regs.canvh.extractLsb' 0 8,
          s.regs.canvh.extractLsb' 8 8, 0x80#8 ||| BitVec.ofNat 8 (colorBits s.regs - 1), 0x00#8, 0x00#8] ++
        colorTableBytes s.regs ++
        (if s.regs.loop = 1#1 ∧ 1 < s.regs.nframes.toNat then
          [0x21#8, 0xFF#8, 0x0B#8, 0x4E#8, 0x45#8, 0x54#8, 0x53#8, 0x43#8, 0x41#8, 0x50#8, 0x45#8, 0x32#8, 0x2E#8, 0x30#8,
            0x03#8, 0x01#8, 0x00#8, 0x00#8, 0x00#8]
        else [])

/-- 60 R192, 41 R141: BEGIN with NFRAMES = 0 raises EmptyAnimation, whatever the rest of the configuration is; nothing is delivered, nothing
changes but PHASE and ERRCODE. -/
def Obligations.BeginWithoutFramesIsEmptyAnimation : Prop :=
  ∀ s : State, Ready s → s.regs.phase = .idle → s.regs.nframes.toNat = 0 →
    exec .begin s = .next { s with regs := { s.regs with errcode := some .emptyAnimation, phase := .error } }

/-- 41 R146 to R149, 40 R119: in STREAM, with a frame that passes the checks and a sink that accepts, FRAME delivers the graphic control
extension when TRV = 1 or NFRAMES > 1, the image descriptor and the minimum-code-size byte, latches NPIX, clears PIXCNT, starts the
compressor with the clear code packed and moves to PIXELS; nothing else changes. The palette is loaded, as it is in every STREAM state a run
reaches. -/
def Obligations.FrameOpensFrame : Prop :=
  ∀ s : State, Ready s → s.regs.phase = .stream → AcceptsAll s.sink → StoresOk s.regs → s.regs.paln.toNat ≠ 0 →
    s.regs.fw.toNat ≠ 0 → s.regs.fh.toNat ≠ 0 →
    s.regs.fx.toNat + s.regs.fw.toNat ≤ s.regs.canvw.toNat → s.regs.fy.toNat + s.regs.fh.toNat ≤ s.regs.canvh.toNat →
    (s.regs.ftr = 1#1 → s.regs.trv = 1#1) →
    ∃ t, exec .frame s = .next t ∧
      t.host = s.host ∧ t.held = none ∧ AcceptsAll t.sink ∧
      t.out = s.out ++
        (if s.regs.trv = 1#1 ∨ 1 < s.regs.nframes.toNat then
          [0x21#8, 0xF9#8, 0x04#8, s.regs.ftr.setWidth 8, s.regs.fdelay.extractLsb' 0 8, s.regs.fdelay.extractLsb' 8 8,
            if s.regs.trv = 1#1 then s.regs.tridx else 0x00#8, 0x00#8]
        else []) ++
        [0x2C#8, s.regs.fx.extractLsb' 0 8, s.regs.fx.extractLsb' 8 8, s.regs.fy.extractLsb' 0 8, s.regs.fy.extractLsb' 8 8,
          s.regs.fw.extractLsb' 0 8, s.regs.fw.extractLsb' 8 8, s.regs.fh.extractLsb' 0 8, s.regs.fh.extractLsb' 8 8,
          s.regs.fil.setWidth 8 <<< 6, BitVec.ofNat 8 (ics s.regs)] ∧
      t.regs = { s.regs with
        phase := .pixels, npix := t.regs.npix, pixcnt := 0#32, cur := 0#12, nextcode := t.regs.nextcode, nbits := t.regs.nbits
        dict := [], acc := t.regs.acc, bitcnt := t.regs.bitcnt, sbbuf := t.regs.sbbuf, sbcnt := t.regs.sbcnt } ∧
      t.regs.npix.toNat = s.regs.fw.toNat * s.regs.fh.toNat ∧
      t.regs.nextcode.toNat = 2 ^ ics s.regs + 2 ∧ t.regs.nbits.toNat = ics s.regs + 1 ∧
      (ics s.regs + 1 < 8 → t.regs.bitcnt.toNat = ics s.regs + 1 ∧ t.regs.acc.toNat = 2 ^ ics s.regs ∧
        subBlockBytes t.regs = [] ∧ t.regs.sbbuf = s.regs.sbbuf) ∧
      (8 ≤ ics s.regs + 1 → t.regs.bitcnt.toNat = ics s.regs + 1 - 8 ∧ t.regs.acc.toNat = 2 ^ ics s.regs / 256 ∧
        subBlockBytes t.regs = [BitVec.ofNat 8 (2 ^ ics s.regs)] ∧
        ∀ i, i ≠ 0 → Memory.get t.regs.sbbuf i = Memory.get s.regs.sbbuf i)

/-- 60 R195, 41 R141, R146: BadConfig. BEGIN (with NFRAMES not 0, which is tested first) raises it for PALN = 0, a zero canvas, or TRV = 1 with
TRIDX at or above PALN; FRAME raises it for a zero size, a frame outside the canvas (sums without wrap), or FTR = 1 with TRV = 0. Nothing is
delivered, nothing changes but PHASE and ERRCODE. -/
def Obligations.BadConfigurationRaisesBadConfig : Prop :=
  (∀ s : State, Ready s → s.regs.phase = .idle → s.regs.nframes.toNat ≠ 0 →
    (s.regs.paln.toNat = 0 ∨ s.regs.canvw.toNat = 0 ∨ s.regs.canvh.toNat = 0 ∨
      (s.regs.trv = 1#1 ∧ s.regs.paln.toNat ≤ s.regs.tridx.toNat)) →
    exec .begin s = .next { s with regs := { s.regs with errcode := some .badConfig, phase := .error } }) ∧
  (∀ s : State, Ready s → s.regs.phase = .stream →
    (s.regs.fw.toNat = 0 ∨ s.regs.fh.toNat = 0 ∨ s.regs.canvw.toNat < s.regs.fx.toNat + s.regs.fw.toNat ∨
      s.regs.canvh.toNat < s.regs.fy.toNat + s.regs.fh.toNat ∨ (s.regs.ftr = 1#1 ∧ s.regs.trv = 0#1)) →
    exec .frame s = .next { s with regs := { s.regs with errcode := some .badConfig, phase := .error } })

/-! ### The compressor -/

/-- 40 R111, 20 R66: PackCode of a code that fits. The value of ACC with the code placed above the bits it held, `ACC + code * 2^BITCNT`,
gives its low bytes, oldest first, to the sub-block emitter, one for every 8 bits; the rest stays in ACC. A sub-block that fills leaves at
once; of SBBUF only the entries filled (counted round from SBCNT) change. While its bytes are on offer (60 R206) SBCNT is 254, ACC and BITCNT
stand where the 254th byte was taken from them and not yet shifted out, and but for SBBUF nothing else differs. -/
def Obligations.PackCodePacksLowBitsFirst : Prop :=
  ∀ (r : Regs) (code : Nat), StoresOk r → PackerOk r → r.nbits.toNat ≤ 12 → code < 2 ^ r.nbits.toNat →
    let total := r.bitcnt.toNat + r.nbits.toNat
    let value := r.acc.toNat + code * 2 ^ r.bitcnt.toNat
    let run := packCode code r
    run.stop = none ∧
    run.regs = { r with acc := run.regs.acc, bitcnt := run.regs.bitcnt, sbbuf := run.regs.sbbuf, sbcnt := run.regs.sbcnt } ∧
    run.regs.bitcnt.toNat = total % 8 ∧
    run.regs.acc.toNat = value / 256 ^ (total / 8) ∧
    (offeredBytes run, subBlockBytes run.regs) = fillSubBlock (subBlockBytes r ++ littleEndian (total / 8) value) ∧
    (∀ o ∈ run.offers,
      o.regs = { r with acc := o.regs.acc, bitcnt := o.regs.bitcnt, sbbuf := o.regs.sbbuf, sbcnt := 254#8 } ∧
      o.regs.bitcnt.toNat + 8 * (253 - r.sbcnt.toNat) = total ∧ o.regs.acc.toNat = value / 256 ^ (253 - r.sbcnt.toNat)) ∧
    ∀ i, (∀ j, j < total / 8 → i ≠ (r.sbcnt.toNat + j) % 254) → Memory.get run.regs.sbbuf i = Memory.get r.sbbuf i

/-- 40 R112, R113: SubPut stores its byte at SBBUF[SBCNT] and leaves every other entry as it was; short of the 254th byte it offers nothing
and counts; at the 254th it offers the length byte `FE` and the 254 data bytes in order, and SBCNT is 0. While these bytes are on offer SBBUF
holds the byte stored, SBCNT is 254, and every other register, ACC and BITCNT among them, is as it was (60 R206). -/
def Obligations.SubPutStoresAndFlushesAt254 : Prop :=
  ∀ (r : Regs) (v : Byte), StoresOk r → r.sbcnt.toNat ≤ 253 →
    (subPut v r).stop = none ∧
    (subPut v r).regs = { r with sbbuf := (subPut v r).regs.sbbuf, sbcnt := (subPut v r).regs.sbcnt } ∧
    (∀ i, Memory.get (subPut v r).regs.sbbuf i = if i = r.sbcnt.toNat then v else Memory.get r.sbbuf i) ∧
    (r.sbcnt.toNat < 253 → offeredBytes (subPut v r) = [] ∧ (subPut v r).regs.sbcnt.toNat = r.sbcnt.toNat + 1) ∧
    (r.sbcnt.toNat = 253 → offeredBytes (subPut v r) = 0xFE#8 :: (subBlockBytes r ++ [v]) ∧ (subPut v r).regs.sbcnt = 0#8 ∧
      ∀ o ∈ (subPut v r).offers, o.regs = { r with sbbuf := (subPut v r).regs.sbbuf, sbcnt := 254#8 })

/-- 40 R113: SubFlush offers the length byte and the data bytes and then sets SBCNT to 0 (at every one of these bytes the registers are still as
they were); with SBCNT = 0 it does nothing, so no empty sub-block is ever produced there. -/
def Obligations.SubFlushFramesSubBlock : Prop :=
  (∀ r : Regs, r.sbcnt = 0#8 → subFlush r = ⟨[], none, r⟩) ∧
  (∀ r : Regs, 1 ≤ r.sbcnt.toNat → r.sbcnt.toNat ≤ 254 →
    offeredBytes (subFlush r) = r.sbcnt :: subBlockBytes r ∧ (subBlockBytes r).length = r.sbcnt.toNat ∧
    (∀ o ∈ (subFlush r).offers, o.regs = r) ∧
    (subFlush r).stop = none ∧ (subFlush r).regs = { r with sbcnt := 0#8 })

/-- 40 R114: EmitCode packs its code at the width in force and then, before anything else, widens: NBITS grows by one exactly when NEXTCODE >
2^NBITS - 1 and NBITS < 12. It offers what PackCode offers and changes nothing else. -/
def Obligations.EmitCodeWidensAfterPacking : Prop :=
  ∀ (r : Regs) (code : Nat), (packCode code r).stop = none →
    (emitCode code r).stop = none ∧ (emitCode code r).offers = (packCode code r).offers ∧
    (emitCode code r).regs = { (packCode code r).regs with nbits := (emitCode code r).regs.nbits } ∧
    (emitCode code r).regs.nbits.toNat =
      if 2 ^ r.nbits.toNat - 1 < r.nextcode.toNat ∧ r.nbits.toNat < 12 then r.nbits.toNat + 1 else r.nbits.toNat

/-- 40 R116: EmitClear packs CLEARC at the width in force and then empties the dictionary and returns NEXTCODE to FIRSTFREE and NBITS to
ICS + 1. It offers what PackCode offers and changes nothing else. -/
def Obligations.EmitClearRestoresInitialState : Prop :=
  ∀ r : Regs, 1 ≤ r.paln.toNat → r.paln.toNat ≤ 256 → (packCode (clearCode r) r).stop = none →
    (emitClear r).stop = none ∧ (emitClear r).offers = (packCode (clearCode r) r).offers ∧
    (emitClear r).regs =
      { (packCode (clearCode r) r).regs with
        nbits := (emitClear r).regs.nbits, dict := [], nextcode := (emitClear r).regs.nextcode } ∧
    (emitClear r).regs.nbits.toNat = ics r + 1 ∧ (emitClear r).regs.nextcode.toNat = firstFree r

/-- 40 R118, 30 R96: LzwFinish, from good registers. CUR is packed at NBITS bits and EOFC above it at the width the width rule then gives; the
last byte is filled up with zero bits; every whole byte goes to the sub-block emitter and the partial sub-block leaves, if there is one;
ACC, BITCNT and SBCNT are 0 afterwards; but for them, NBITS and the entries of SBBUF filled nothing changes. While a byte of a full sub-block
is on offer SBCNT is 254; while one of the partial sub-block is, SBCNT is still its length and ACC and BITCNT are 0 already (60 R206). -/
def Obligations.FinishEmitsCurThenEofThenFlushes : Prop :=
  ∀ r : Regs, StoresOk r → r.paln.toNat ≠ 0 → LzwOk r →
    let wide := if 2 ^ r.nbits.toNat - 1 < r.nextcode.toNat ∧ r.nbits.toNat < 12 then r.nbits.toNat + 1 else r.nbits.toNat
    let total := r.bitcnt.toNat + r.nbits.toNat + wide
    let value := r.acc.toNat + r.cur.toNat * 2 ^ r.bitcnt.toNat + eofCode r * 2 ^ (r.bitcnt.toNat + r.nbits.toNat)
    let filled := fillSubBlock (subBlockBytes r ++ littleEndian ((total + 7) / 8) value)
    let run := lzwFinish r
    run.stop = none ∧
    run.regs = { r with nbits := run.regs.nbits, acc := 0#19, bitcnt := 0#5, sbbuf := run.regs.sbbuf, sbcnt := 0#8 } ∧
    offeredBytes run =
      filled.1 ++ (if filled.2 = [] then [] else BitVec.ofNat 8 filled.2.length :: filled.2) ∧
    (∀ o ∈ run.offers.take filled.1.length, o.regs =
      { r with nbits := o.regs.nbits, acc := o.regs.acc, bitcnt := o.regs.bitcnt, sbbuf := o.regs.sbbuf, sbcnt := 254#8 }) ∧
    (∀ o ∈ run.offers.drop filled.1.length, o.regs = { run.regs with sbcnt := BitVec.ofNat 8 filled.2.length }) ∧
    ∀ i, (∀ j, j < (total + 7) / 8 → i ≠ (r.sbcnt.toNat + j) % 254) → Memory.get run.regs.sbbuf i = Memory.get r.sbbuf i

/-- 40 R110: a lookup after an insertion finds the new pair with the code it was given and every other pair as before; a clear leaves no pair. -/
def Obligations.DictionaryIsAMap : Prop :=
  (∀ (r : Regs) (p q : BitVec 12) (c d : Byte),
    dictLookup (dictInsert p c r) q d =
      if p = q ∧ c = d then some (BitVec.ofNat 12 r.nextcode.toNat) else dictLookup r q d) ∧
  (∀ (r : Regs) (q : BitVec 12) (d : Byte), dictLookup (clearDictionary r) q d = none)

/-- 40 R117, R121: the first pixel of a frame that has more than one seeds CUR and is counted; no byte is offered, nothing else changes. LzwPixel
itself does that, the counting apart, with every first pixel, the only one of a frame included. -/
def Obligations.PixFirstSeedsCur : Prop :=
  (∀ (r : Regs) (c : Byte), r.pixcnt = 0#32 → lzwPixel c r = ⟨[], none, { r with cur := c.setWidth 12 }⟩) ∧
  ∀ (s : State) (c : Byte), Ready s → s.regs.phase = .pixels → c.toNat < s.regs.paln.toNat → s.regs.pixcnt = 0#32 →
    1 < s.regs.npix.toNat →
    exec (.pix c) s = .next { s with regs := { s.regs with cur := c.setWidth 12, pixcnt := 1#32 } }

/-- 40 R117, R121: a hit that is not the frame's last pixel replaces CUR by the pair's code and counts the pixel; no byte is offered, nothing
else changes. LzwPixel itself does that, the counting apart, with every hit, the frame's last pixel included. -/
def Obligations.PixHitReplacesCur : Prop :=
  (∀ (r : Regs) (c : Byte) (code : BitVec 12), r.pixcnt ≠ 0#32 → dictLookup r r.cur c = some code →
    lzwPixel c r = ⟨[], none, { r with cur := code }⟩) ∧
  ∀ (s : State) (c : Byte) (code : BitVec 12), Ready s → s.regs.phase = .pixels → c.toNat < s.regs.paln.toNat →
    s.regs.pixcnt ≠ 0#32 → dictLookup s.regs s.regs.cur c = some code → s.regs.pixcnt.toNat + 1 < s.regs.npix.toNat →
    exec (.pix c) s = .next { s with regs :=
      { s.regs with cur := code, pixcnt := BitVec.ofNat 32 (s.regs.pixcnt.toNat + 1) } }

/-- 40 R111, R114, R117, R121: a miss with room in the dictionary, not the frame's last pixel, with a sink that accepts: CUR is packed at NBITS
bits; NBITS grows by one if NEXTCODE > 2^NBITS - 1 and NBITS < 12; the pair (CUR, c) gets the code NEXTCODE, which is incremented; CUR becomes c;
a sub-block is delivered if it fills; nothing else changes. LzwPixel itself does that, the counting apart and the sub-block offered, with every
such miss, the frame's last pixel included. -/
def Obligations.PixMissPacksCurAndLearnsPair : Prop :=
  (∀ (r : Regs) (c : Byte), r.phase = .pixels → RegsOk r → c.toNat < r.paln.toNat → r.pixcnt ≠ 0#32 →
    dictLookup r r.cur c = none → r.nextcode.toNat < 4096 →
    let total := r.bitcnt.toNat + r.nbits.toNat
    let value := r.acc.toNat + r.cur.toNat * 2 ^ r.bitcnt.toNat
    let run := lzwPixel c r
    run.stop = none ∧
    run.regs = { r with
      cur := c.setWidth 12, nextcode := run.regs.nextcode, nbits := run.regs.nbits, dict := run.regs.dict
      acc := run.regs.acc, bitcnt := run.regs.bitcnt, sbbuf := run.regs.sbbuf, sbcnt := run.regs.sbcnt } ∧
    run.regs.nextcode.toNat = r.nextcode.toNat + 1 ∧
    run.regs.nbits.toNat = (if 2 ^ r.nbits.toNat - 1 < r.nextcode.toNat ∧ r.nbits.toNat < 12
      then r.nbits.toNat + 1 else r.nbits.toNat) ∧
    (∀ p d, dictLookup run.regs p d =
      if p = r.cur ∧ d = c then some (BitVec.ofNat 12 r.nextcode.toNat) else dictLookup r p d) ∧
    run.regs.bitcnt.toNat = total % 8 ∧ run.regs.acc.toNat = value / 256 ^ (total / 8) ∧
    (offeredBytes run, subBlockBytes run.regs) = fillSubBlock (subBlockBytes r ++ littleEndian (total / 8) value)) ∧
  ∀ (s : State) (c : Byte), Ready s → s.regs.phase = .pixels → RegsOk s.regs → AcceptsAll s.sink → c.toNat < s.regs.paln.toNat →
    s.regs.pixcnt ≠ 0#32 → dictLookup s.regs s.regs.cur c = none → s.regs.nextcode.toNat < 4096 →
    s.regs.pixcnt.toNat + 1 < s.regs.npix.toNat →
    let total := s.regs.bitcnt.toNat + s.regs.nbits.toNat
    let value := s.regs.acc.toNat + s.regs.cur.toNat * 2 ^ s.regs.bitcnt.toNat
    let filled := fillSubBlock (subBlockBytes s.regs ++ littleEndian (total / 8) value)
    ∃ t, exec (.pix c) s = .next t ∧
      t = { s with
        out := s.out ++ filled.1, sink := t.sink
        regs := { s.regs with
          pixcnt := t.regs.pixcnt, cur := c.setWidth 12, nextcode := t.regs.nextcode, nbits := t.regs.nbits, dict := t.regs.dict
          acc := t.regs.acc, bitcnt := t.regs.bitcnt, sbbuf := t.regs.sbbuf, sbcnt := t.regs.sbcnt } } ∧
      AcceptsAll t.sink ∧
      t.regs.pixcnt.toNat = s.regs.pixcnt.toNat + 1 ∧
      t.regs.nextcode.toNat = s.regs.nextcode.toNat + 1 ∧
      t.regs.nbits.toNat = (if 2 ^ s.regs.nbits.toNat - 1 < s.regs.nextcode.toNat ∧ s.regs.nbits.toNat < 12
        then s.regs.nbits.toNat + 1 else s.regs.nbits.toNat) ∧
      (∀ p d, dictLookup t.regs p d =
        if p = s.regs.cur ∧ d = c then some (BitVec.ofNat 12 s.regs.nextcode.toNat) else dictLookup s.regs p d) ∧
      t.regs.bitcnt.toNat = total % 8 ∧ t.regs.acc.toNat = value / 256 ^ (total / 8) ∧
      subBlockBytes t.regs = filled.2

/-- 40 R116, R117, R121: a miss with a full dictionary (NEXTCODE = 4096), not the frame's last pixel, with a sink that accepts: CUR and then
CLEARC are packed at 12 bits; the dictionary is emptied, NEXTCODE returns to FIRSTFREE and NBITS to ICS + 1, the pair is not inserted, CUR
becomes c; a sub-block is delivered if it fills; nothing else changes. LzwPixel itself does that, the counting apart and the sub-block
offered, with every such miss, the frame's last pixel included. -/
def Obligations.PixMissWithFullDictionaryClears : Prop :=
  (∀ (r : Regs) (c : Byte), r.phase = .pixels → RegsOk r → c.toNat < r.paln.toNat → r.pixcnt ≠ 0#32 →
    dictLookup r r.cur c = none → r.nextcode.toNat = 4096 →
    let total := r.bitcnt.toNat + 24
    let value := r.acc.toNat + r.cur.toNat * 2 ^ r.bitcnt.toNat + clearCode r * 2 ^ (r.bitcnt.toNat + 12)
    let run := lzwPixel c r
    run.stop = none ∧
    run.regs = { r with
      cur := c.setWidth 12, nextcode := run.regs.nextcode, nbits := run.regs.nbits, dict := []
      acc := run.regs.acc, bitcnt := run.regs.bitcnt, sbbuf := run.regs.sbbuf, sbcnt := run.regs.sbcnt } ∧
    run.regs.nextcode.toNat = firstFree r ∧ run.regs.nbits.toNat = ics r + 1 ∧
    run.regs.bitcnt.toNat = total % 8 ∧ run.regs.acc.toNat = value / 256 ^ (total / 8) ∧
    (offeredBytes run, subBlockBytes run.regs) = fillSubBlock (subBlockBytes r ++ littleEndian (total / 8) value)) ∧
  ∀ (s : State) (c : Byte), Ready s → s.regs.phase = .pixels → RegsOk s.regs → AcceptsAll s.sink →
    c.toNat < s.regs.paln.toNat → s.regs.pixcnt ≠ 0#32 → dictLookup s.regs s.regs.cur c = none →
    s.regs.nextcode.toNat = 4096 → s.regs.pixcnt.toNat + 1 < s.regs.npix.toNat →
    let total := s.regs.bitcnt.toNat + 24
    let value := s.regs.acc.toNat + s.regs.cur.toNat * 2 ^ s.regs.bitcnt.toNat +
      clearCode s.regs * 2 ^ (s.regs.bitcnt.toNat + 12)
    let filled := fillSubBlock (subBlockBytes s.regs ++ littleEndian (total / 8) value)
    ∃ t, exec (.pix c) s = .next t ∧
      t = { s with
        out := s.out ++ filled.1, sink := t.sink
        regs := { s.regs with
          pixcnt := t.regs.pixcnt, cur := c.setWidth 12, nextcode := t.regs.nextcode, nbits := t.regs.nbits, dict := []
          acc := t.regs.acc, bitcnt := t.regs.bitcnt, sbbuf := t.regs.sbbuf, sbcnt := t.regs.sbcnt } } ∧
      AcceptsAll t.sink ∧
      t.regs.pixcnt.toNat = s.regs.pixcnt.toNat + 1 ∧
      t.regs.nextcode.toNat = firstFree s.regs ∧ t.regs.nbits.toNat = ics s.regs + 1 ∧
      t.regs.bitcnt.toNat = total % 8 ∧ t.regs.acc.toNat = value / 256 ^ (total / 8) ∧
      subBlockBytes t.regs = filled.2

/-- 60 R196, 40 R121: a pixel index at or above PALN raises PixelRange before anything else changes. -/
def Obligations.PixOutOfRangeRaisesPixelRange : Prop :=
  ∀ (s : State) (c : Byte), Ready s → s.regs.phase = .pixels → s.regs.paln.toNat ≤ c.toNat →
    exec (.pix c) s = .next { s with regs := { s.regs with errcode := some .pixelRange, phase := .error } }

/-- 40 R121, 41 R152: from good registers in PIXELS, with an index in the palette and a sink that accepts, PIX completes without fault; it
counts the pixel; it leaves PIXELS exactly when the pixel is the frame's last. -/
def Obligations.PixCompletes : Prop :=
  ∀ (s : State) (c : Byte), Ready s → s.regs.phase = .pixels → RegsOk s.regs → AcceptsAll s.sink →
    c.toNat < s.regs.paln.toNat →
    ∃ t, exec (.pix c) s = .next t ∧ t.held = none ∧ t.host = s.host ∧ AcceptsAll t.sink ∧ RegsOk t.regs ∧
      t.regs.errcode = none ∧ t.regs.pixcnt.toNat = s.regs.pixcnt.toNat + 1 ∧
      (t.regs.phase = .pixels ↔ s.regs.pixcnt.toNat + 1 ≠ s.regs.npix.toNat)

/-- 41 R150, R151: the end-of-frame actions, in order: the rest of the code stream; the block terminator `00`; FDONE incremented; then, if FDONE
= NFRAMES, the trailer `3B`, offered with FDONE already incremented, and DONE, else STREAM. PHASE is written last. -/
def Obligations.EndFrameActsInOrder : Prop :=
  ∀ r : Regs, (lzwFinish r).stop = none → r.fdone.toNat < 65535 →
    let f := lzwFinish r
    let counted := BitVec.ofNat 16 (r.fdone.toNat + 1)
    endFrame r =
      if counted = r.nframes then
        ⟨f.offers ++ [⟨f.regs, 0x00#8⟩, ⟨{ f.regs with fdone := counted }, 0x3B#8⟩], none,
          { f.regs with fdone := counted, phase := .done }⟩
      else ⟨f.offers ++ [⟨f.regs, 0x00#8⟩], none, { f.regs with fdone := counted, phase := .stream }⟩

/-- 40 R121, 41 R150, R151: the last pixel of a frame closes it: after its own bytes and the rest of the code stream come the block terminator
`00` and, after the last frame only, the trailer `3B`; FDONE is incremented; the phase becomes STREAM if frames remain and DONE if none does; the
packer and the buffer are empty. -/
def Obligations.LastPixClosesFrame : Prop :=
  ∀ (s : State) (c : Byte), Ready s → s.regs.phase = .pixels → RegsOk s.regs → AcceptsAll s.sink →
    c.toNat < s.regs.paln.toNat → s.regs.pixcnt.toNat + 1 = s.regs.npix.toNat →
    let pixel := lzwPixel c s.regs
    let codes := offeredBytes pixel ++ offeredBytes (lzwFinish { pixel.regs with pixcnt := s.regs.npix })
    ∃ t, exec (.pix c) s = .next t ∧ t.held = none ∧ t.host = s.host ∧ AcceptsAll t.sink ∧ t.regs.errcode = none ∧
      t.regs.pixcnt = s.regs.npix ∧ t.regs.fdone.toNat = s.regs.fdone.toNat + 1 ∧ t.regs.bitcnt.toNat = 0 ∧ t.regs.sbcnt.toNat = 0 ∧
      (s.regs.fdone.toNat + 1 < s.regs.nframes.toNat →
        t.regs.phase = .stream ∧ t.out = s.out ++ codes ++ [0x00#8]) ∧
      (s.regs.fdone.toNat + 1 = s.regs.nframes.toNat →
        t.regs.phase = .done ∧ t.out = s.out ++ codes ++ [0x00#8, 0x3B#8])

/-- 40 R121 (c), R124: a PIX that is not the last of its frame moves a known number of bytes into the sub-block buffer, at most three, and
offers either nothing or exactly one full sub-block of 255 bytes, `FE` first; of SBBUF only the entries filled (counted round from SBCNT)
change. -/
def Obligations.PixOffersNothingOrOneFullSubBlock : Prop :=
  ∀ (r : Regs) (c : Byte), RegsOk r → r.phase = .pixels → c.toNat < r.paln.toNat → r.pixcnt.toNat + 1 < r.npix.toNat →
    ∃ n, n ≤ 3 ∧
      n = (if r.pixcnt = 0#32 ∨ dictLookup r r.cur c ≠ none then 0
        else if r.nextcode.toNat < 4096 then (r.bitcnt.toNat + r.nbits.toNat) / 8
        else (r.bitcnt.toNat + 2 * r.nbits.toNat) / 8) ∧
      (pixMicro c r).stop = none ∧
      (pixMicro c r).regs.sbcnt.toNat = (r.sbcnt.toNat + n) % 254 ∧
      (offeredBytes (pixMicro c r) = [] ∨
        ((offeredBytes (pixMicro c r)).length = 255 ∧ (offeredBytes (pixMicro c r)).head? = some 0xFE#8)) ∧
      ∀ i, (∀ j, j < n → i ≠ (r.sbcnt.toNat + j) % 254) →
        Memory.get (pixMicro c r).regs.sbbuf i = Memory.get r.sbbuf i

/-- 40 R124, 70 R228: a PIX, the last of its frame included, offers at most 512 bytes. -/
def Obligations.PixOffersAtMost512 : Prop :=
  ∀ (r : Regs) (c : Byte), RegsOk r → r.phase = .pixels → (offeredBytes (pixMicro c r)).length ≤ 512

/-- 40 R115: the width law. Between steps in PIXELS, NBITS = min(12, max(ICS + 1, ceil(log2 NEXTCODE))): the width at which the next code is
packed. -/
def Obligations.WidthLaw : Prop :=
  ∀ s : State, Reached s → Ready s → s.regs.phase = .pixels →
    s.regs.nbits.toNat = min 12 (max (ics s.regs + 1) (Nat.clog 2 s.regs.nextcode.toNat))

/-! ### The sink -/

/-- 60 R206, R193, 20 R63: if the sink accepts the first k bytes of a step and refuses the next, exactly the prefix of k bytes is delivered, and
the step ends in SinkIOError with the registers as they stood at the refused Out. For BEGIN and FRAME these are the registers from before the
command: every byte is offered before anything is written (41 R141, R146). A PIX offers the bytes of its LzwPixel, with the pixel not yet
counted, CUR, NBITS, NEXTCODE and DICT as they were and SBCNT = 254, and then, if it is the frame's last, those of EndFrame with the pixel
counted (40 R121). -/
def Obligations.SinkErrorDeliversExactPrefix : Prop :=
  (∀ (run : Run) (s : State) (k : Nat) (l : List Answer) (a : Answer) (o : Offer),
    run.offers[k]? = some o → s.sink = ⟨List.replicate k .accept ++ .error :: l, a⟩ →
    deliver run s = .next { s with
      regs := { o.regs with errcode := some .sinkIOError, phase := .error }
      out := s.out ++ (offeredBytes run).take k
      sink := ⟨l, a⟩
      held := none }) ∧
  (∀ r : Regs, (∀ o ∈ (beginMicro r).offers, o.regs = r) ∧ (∀ o ∈ (frameMicro r).offers, o.regs = r)) ∧
  (∀ (r : Regs) (c : Byte), RegsOk r → r.phase = .pixels → c.toNat < r.paln.toNat →
    (pixMicro c r).offers = (lzwPixel c r).offers ++
      (if r.pixcnt.toNat + 1 = r.npix.toNat then (endFrame { (lzwPixel c r).regs with pixcnt := r.npix }).offers else []) ∧
    ∀ o ∈ (lzwPixel c r).offers,
      o.regs = { r with acc := o.regs.acc, bitcnt := o.regs.bitcnt, sbbuf := o.regs.sbbuf, sbcnt := 254#8 })

/-- 20 R75, R63: a sink that accepts k bytes of a step and then withholds its answer holds the step with byte k on offer and the first k
delivered; when it answers, the step goes on as if the answer had not been delayed: no byte is dropped and none is duplicated. The host has no
reset pin move pending. -/
def Obligations.DelayedAnswerChangesNothing : Prop :=
  ∀ (run : Run) (s : State) (k : Nat) (l : List Answer) (a : Answer) (o : Offer),
    run.offers[k]? = some o → s.sink = ⟨List.replicate k .accept ++ .withhold :: l, a⟩ → s.host.head? ≠ some .resetPin →
    ∃ t, deliver run s = .next t ∧ outData t = some o.byte ∧ t.out = s.out ++ (offeredBytes run).take k ∧ t.regs = o.regs ∧
      step t = deliver run { s with sink := ⟨List.replicate k .accept ++ l, a⟩ }

/-- 20 R75: while the sink withholds its answer and the host does not pull the reset pin, a held step stays held: the same byte stays on
offer, and nothing changes but the sink's own script. -/
def Obligations.HeldStepWaitsForSink : Prop :=
  ∀ (s : State) (run : Run) (o : Offer), s.held = some run → run.offers.head? = some o → s.regs = o.regs →
    sinkAnswer s.sink = .withhold → s.host.head? ≠ some .resetPin →
    ∃ t, step s = .next t ∧ t = { s with sink := t.sink } ∧ outData t = some o.byte ∧ cmdReady t = false

/-- 70 R220: the hardware reset input has the effect of RST; a byte on offer when it strikes is withdrawn and not delivered; a word not yet
transferred is not taken. -/
def Obligations.ResetPinActsAsRst : Prop :=
  (∀ (s : State) (rest : List HostMove), Ready s → s.host = .resetPin :: rest →
    step s = .next { s with regs := State.reset.regs, host := rest }) ∧
  (∀ (s : State) (run : Run) (rest : List HostMove), s.held = some run → s.host = .resetPin :: rest →
    sinkAnswer s.sink = .withhold →
    ∃ t, step s = .next t ∧ t = { s with regs := State.reset.regs, host := rest, held := none, sink := t.sink })

/-! ### Frames -/

/-- 42 R162 to R173: whatever the state, a configuration command that answers a next state changes no register but its own (and PHASE and
ERRCODE when it is illegal), delivers nothing and asks the sink nothing. -/
def Obligations.ConfigCommandFrames : Prop :=
  ∀ (i : Instr) (s t : State), exec i s = .next t →
    (match i with
      | .setw _ => t.regs = { s.regs with phase := t.regs.phase, errcode := t.regs.errcode, canvw := t.regs.canvw }
      | .seth _ => t.regs = { s.regs with phase := t.regs.phase, errcode := t.regs.errcode, canvh := t.regs.canvh }
      | .setnf _ => t.regs = { s.regs with phase := t.regs.phase, errcode := t.regs.errcode, nframes := t.regs.nframes }
      | .setloop _ => t.regs = { s.regs with phase := t.regs.phase, errcode := t.regs.errcode, loop := t.regs.loop }
      | .settr _ _ => t.regs = { s.regs with
          phase := t.regs.phase, errcode := t.regs.errcode, trv := t.regs.trv, tridx := t.regs.tridx }
      | .pal _ _ _ => t.regs = { s.regs with
          phase := t.regs.phase, errcode := t.regs.errcode, pal := t.regs.pal, paln := t.regs.paln }
      | .setfx _ => t.regs = { s.regs with phase := t.regs.phase, errcode := t.regs.errcode, fx := t.regs.fx }
      | .setfy _ => t.regs = { s.regs with phase := t.regs.phase, errcode := t.regs.errcode, fy := t.regs.fy }
      | .setfw _ => t.regs = { s.regs with phase := t.regs.phase, errcode := t.regs.errcode, fw := t.regs.fw }
      | .setfh _ => t.regs = { s.regs with phase := t.regs.phase, errcode := t.regs.errcode, fh := t.regs.fh }
      | .setfd _ => t.regs = { s.regs with phase := t.regs.phase, errcode := t.regs.errcode, fdelay := t.regs.fdelay }
      | .setff _ _ => t.regs = { s.regs with
          phase := t.regs.phase, errcode := t.regs.errcode, ftr := t.regs.ftr, fil := t.regs.fil }
      | .rst | .begin | .frame | .pix _ => True) ∧
    (i ≠ .begin → i ≠ .frame → (∀ c, i ≠ .pix c) → t.out = s.out ∧ t.sink = s.sink ∧ t.host = s.host ∧ t.held = s.held)

/-- 41 R141, R146, 40 R121: whatever the state and however the sink answers, BEGIN changes no register but PHASE, ERRCODE and FDONE; FRAME none
but PHASE, ERRCODE, NPIX, PIXCNT and the compressor's; PIX none but PHASE, ERRCODE, FDONE, PIXCNT and the compressor's. In particular the
configuration, the frame registers and the palette are unchanged, and so is the host's queue. -/
def Obligations.StreamCommandFrames : Prop :=
  ∀ s t : State,
    (exec .begin s = .next t → t.host = s.host ∧
      t.regs = { s.regs with phase := t.regs.phase, errcode := t.regs.errcode, fdone := t.regs.fdone }) ∧
    (exec .frame s = .next t → t.host = s.host ∧
      t.regs = { s.regs with
        phase := t.regs.phase, errcode := t.regs.errcode, npix := t.regs.npix, pixcnt := t.regs.pixcnt, cur := t.regs.cur
        nextcode := t.regs.nextcode, nbits := t.regs.nbits, dict := t.regs.dict, acc := t.regs.acc, bitcnt := t.regs.bitcnt
        sbbuf := t.regs.sbbuf, sbcnt := t.regs.sbcnt }) ∧
    (∀ c, exec (.pix c) s = .next t → t.host = s.host ∧
      t.regs = { s.regs with
        phase := t.regs.phase, errcode := t.regs.errcode, fdone := t.regs.fdone, pixcnt := t.regs.pixcnt, cur := t.regs.cur
        nextcode := t.regs.nextcode, nbits := t.regs.nbits, dict := t.regs.dict, acc := t.regs.acc, bitcnt := t.regs.bitcnt
        sbbuf := t.regs.sbbuf, sbcnt := t.regs.sbcnt })

/-! ### The whole machine -/

/-- The reset state satisfies the invariant, whatever the host is to send and however the sink is to answer. -/
def Obligations.ResetSatisfiesInvariant : Prop :=
  ∀ (host : List HostMove) (sink : Sink), Invariant { State.reset with host := host, sink := sink }

/-- Every step keeps the invariant: the ranges of 10 R36 to R48 and the invariants of 40 R120, with the stores in canonical form, ERRCODE
nonzero exactly in ERROR (10 R37), FDONE below NFRAMES in STREAM (10 R38) and PIXCNT below NPIX in PIXELS (10 R40). -/
def Obligations.StepKeepsInvariant : Prop :=
  ∀ s t : State, Invariant s → step s = .next t → Invariant t

/-- 00 R14, 42 R160: from every state of the invariant a step answers a next state: "there is no word the block refuses to take and none on
which it hangs". -/
def Obligations.InvariantStatesNeverStop : Prop :=
  ∀ s : State, Invariant s → ∃ t, step s = .next t

/-- 60 R194: PackCode raises InvariantViolation for a code that does not fit NBITS, before anything is written (that the model keeps this
check, which it may also drop, is log 11), and "No sequence of command words and sink answers reaches it". Nor does a run from reset reach a
fault or a refusal of the model: these are the model's own stops and no outcomes of the block (log 10). -/
def Obligations.NoRunReachesInvariantViolation : Prop :=
  (∀ (r : Regs) (code : Nat), 2 ^ r.nbits.toNat ≤ code → packCode code r = ⟨[], some (.raise .invariantViolation), r⟩) ∧
  (∀ s : State, Reached s → s.regs.errcode ≠ some .invariantViolation ∧ ¬ stepFaults s ∧ ¬ stepRefuses s)

/-- 10 R51, 42 R161 (a): OUT only grows, whatever the step, RST and faults included: the bytes delivered before stay delivered. -/
def Obligations.OutOnlyGrows : Prop :=
  ∀ s t : State, step s = .next t → ∃ bs, t.out = s.out ++ bs

/-- 41 R152: the complete list of phase changes. A command that runs to its end without being held takes the phase only where the list says; a
PIX leads to DONE exactly when the frames counted are then NFRAMES. A step of a run that goes on with a held command keeps the phase as long
as the command is still held, and its end takes the phase where the list says, or the reset pin takes it to IDLE (70 R220). -/
def Obligations.PhaseChangesOnlyAsListed : Prop :=
  (∀ (i : Instr) (s t : State), Ready s → exec i s = .next t → t.held = none →
    t.regs.phase = s.regs.phase ∨
    (i = .rst ∧ t.regs.phase = .idle) ∨
    (i = .begin ∧ s.regs.phase = .idle ∧ t.regs.phase = .stream) ∨
    (i = .frame ∧ s.regs.phase = .stream ∧ t.regs.phase = .pixels) ∨
    ((∃ c, i = .pix c) ∧ s.regs.phase = .pixels ∧ t.regs.phase = (if t.regs.fdone = t.regs.nframes then .done else .stream)) ∨
    (s.regs.phase ≠ .error ∧ t.regs.phase = .error)) ∧
  (∀ s t : State, Reached s → ¬ Ready s → step s = .next t →
    (¬ Ready t → t.regs.phase = s.regs.phase) ∧
    (t.regs.phase = s.regs.phase ∨
     (s.regs.phase = .idle ∧ t.regs.phase = .stream) ∨
     (s.regs.phase = .stream ∧ t.regs.phase = .pixels) ∨
     (s.regs.phase = .pixels ∧ t.regs.phase = (if t.regs.fdone = t.regs.nframes then .done else .stream)) ∨
     (s.regs.phase ≠ .error ∧ t.regs.phase = .error) ∨
     ((∃ rest, s.host = .resetPin :: rest ∧ t.host = rest) ∧ t.regs.phase = .idle)))

/-- 20 R73, 41 R150: a command that takes the machine to DONE without being held has had the terminator and the trailer accepted: OUT grows by
bytes that end in `00 3B`. A held command that comes to its end in DONE has had every byte it still had to offer accepted. So in every run,
holds or not, OUT ends in `00 3B` whenever the phase is DONE. -/
def Obligations.DoneMeansTrailerDelivered : Prop :=
  (∀ (i : Instr) (s t : State), Ready s → exec i s = .next t → t.held = none → s.regs.phase ≠ .done → t.regs.phase = .done →
    ∃ bs, t.out = s.out ++ bs ++ [0x00#8, 0x3B#8]) ∧
  (∀ (s t : State) (run : Run), s.held = some run → step s = .next t → t.held = none → t.regs.phase = .done →
    t.out = s.out ++ offeredBytes run) ∧
  (∀ s : State, Reached s → s.regs.phase = .done → ∃ bs, s.out = bs ++ [0x00#8, 0x3B#8])

/-- 42 R175, 10 R21 to R27, 70 R225: once the stream is open, no command but RST changes the canvas, the frame count, the looping flag, the
transparent index or the palette. -/
def Obligations.AnimationConfigFixedAfterBegin : Prop :=
  ∀ (i : Instr) (s t : State), s.regs.phase ≠ .idle → i ≠ .rst → exec i s = .next t →
    t.regs.canvw = s.regs.canvw ∧ t.regs.canvh = s.regs.canvh ∧ t.regs.nframes = s.regs.nframes ∧ t.regs.loop = s.regs.loop ∧
    t.regs.trv = s.regs.trv ∧ t.regs.tridx = s.regs.tridx ∧ t.regs.paln = s.regs.paln ∧ t.regs.pal = s.regs.pal

/-! ### Assembler -/

/-- 30 R85: the words of the sixteen mnemonics, each operand in its range; an operand out of its range is an assembly error, never a
truncation. Every word a line assembles to decodes to the command it stands for. -/
def Obligations.AssemblerWordsDecode : Prop :=
  (assembleLine .rst = .ok [0x01000000#32] ∧ assembleLine .begin = .ok [0x20000000#32] ∧ assembleLine .frame = .ok [0x40000000#32]) ∧
  (∀ v : Nat,
    assembleLine (.setw v) = (if v ≤ 65535 then .ok [BitVec.ofNat 32 (0x10000000 + v)] else .error .operandRange) ∧
    assembleLine (.seth v) = (if v ≤ 65535 then .ok [BitVec.ofNat 32 (0x11000000 + v)] else .error .operandRange) ∧
    assembleLine (.setnf v) = (if v ≤ 65535 then .ok [BitVec.ofNat 32 (0x12000000 + v)] else .error .operandRange) ∧
    assembleLine (.setfx v) = (if v ≤ 65535 then .ok [BitVec.ofNat 32 (0x30000000 + v)] else .error .operandRange) ∧
    assembleLine (.setfy v) = (if v ≤ 65535 then .ok [BitVec.ofNat 32 (0x31000000 + v)] else .error .operandRange) ∧
    assembleLine (.setfw v) = (if v ≤ 65535 then .ok [BitVec.ofNat 32 (0x32000000 + v)] else .error .operandRange) ∧
    assembleLine (.setfh v) = (if v ≤ 65535 then .ok [BitVec.ofNat 32 (0x33000000 + v)] else .error .operandRange) ∧
    assembleLine (.setfd v) = (if v ≤ 65535 then .ok [BitVec.ofNat 32 (0x34000000 + v)] else .error .operandRange) ∧
    assembleLine (.setloop v) = (if v ≤ 1 then .ok [BitVec.ofNat 32 (0x13000000 + v)] else .error .operandRange) ∧
    assembleLine (.pal v) = (if v ≤ 0xFFFFFF then .ok [BitVec.ofNat 32 (0x15000000 + v)] else .error .operandRange) ∧
    assembleLine (.pix v) = (if v ≤ 255 then .ok [BitVec.ofNat 32 (0x41000000 + v)] else .error .operandRange)) ∧
  (∀ tv ti : Nat, assembleLine (.settr tv ti) =
    if tv ≤ 1 ∧ ti ≤ 255 then .ok [BitVec.ofNat 32 (0x14000000 + tv * 256 + ti)] else .error .operandRange) ∧
  (∀ tr il : Nat, assembleLine (.setff tr il) =
    if tr ≤ 1 ∧ il ≤ 1 then .ok [BitVec.ofNat 32 (0x35000000 + tr * 2 + il)] else .error .operandRange) ∧
  (∀ (l : AsmLine) (ws : List Word), assembleLine l = .ok ws → ws.map decode = (expandLine l).map Except.ok)

/-- 30 R86: the words each pseudo-instruction stands for, in order; every operand has the range it has in the command it goes to (R85). That
PALETTE and PIXELS take one operand at least, and that `PIXELS 0 * p` stands for no word, is the model's choice (log 16). -/
def Obligations.PseudoInstructionsExpand : Prop :=
  (∀ w h : Nat, assembleLine (.canvas w h) =
    if w ≤ 65535 ∧ h ≤ 65535 then .ok [BitVec.ofNat 32 (0x10000000 + w), BitVec.ofNat 32 (0x11000000 + h)]
    else .error .operandRange) ∧
  (∀ cs : List Nat, assembleLine (.palette cs) =
    if cs ≠ [] ∧ ∀ c ∈ cs, c ≤ 0xFFFFFF then .ok (cs.map fun c => BitVec.ofNat 32 (0x15000000 + c))
    else .error .operandRange) ∧
  (∀ x y w h d tr il : Nat, assembleLine (.framedesc x y w h d tr il) =
    if x ≤ 65535 ∧ y ≤ 65535 ∧ w ≤ 65535 ∧ h ≤ 65535 ∧ d ≤ 65535 ∧ tr ≤ 1 ∧ il ≤ 1 then
      .ok [BitVec.ofNat 32 (0x30000000 + x), BitVec.ofNat 32 (0x31000000 + y), BitVec.ofNat 32 (0x32000000 + w),
        BitVec.ofNat 32 (0x33000000 + h), BitVec.ofNat 32 (0x34000000 + d), BitVec.ofNat 32 (0x35000000 + tr * 2 + il)]
    else .error .operandRange) ∧
  (∀ ps : List Nat, assembleLine (.pixels ps) =
    if ps ≠ [] ∧ ∀ p ∈ ps, p ≤ 255 then .ok (ps.map fun p => BitVec.ofNat 32 (0x41000000 + p)) else .error .operandRange) ∧
  (∀ n p : Nat, assembleLine (.pixelsTimes n p) =
    if p ≤ 255 then .ok (List.replicate n (BitVec.ofNat 32 (0x41000000 + p))) else .error .operandRange)
end

