-- ==== Sys2Proof/Laws/State.lean ====
section
/-!
SUPPORT. One lemma per field per named update, each true by rfl, so that no proof unfolds a record update.
-/

namespace Sys2Proof.Machine

@[simp] theorem enterError_canvw (e : ErrorClass) (r : Regs) : (enterError e r).canvw = r.canvw := rfl
@[simp] theorem enterError_canvh (e : ErrorClass) (r : Regs) : (enterError e r).canvh = r.canvh := rfl
@[simp] theorem enterError_nframes (e : ErrorClass) (r : Regs) : (enterError e r).nframes = r.nframes := rfl
@[simp] theorem enterError_loop (e : ErrorClass) (r : Regs) : (enterError e r).loop = r.loop := rfl
@[simp] theorem enterError_trv (e : ErrorClass) (r : Regs) : (enterError e r).trv = r.trv := rfl
@[simp] theorem enterError_tridx (e : ErrorClass) (r : Regs) : (enterError e r).tridx = r.tridx := rfl
@[simp] theorem enterError_paln (e : ErrorClass) (r : Regs) : (enterError e r).paln = r.paln := rfl
@[simp] theorem enterError_pal (e : ErrorClass) (r : Regs) : (enterError e r).pal = r.pal := rfl
@[simp] theorem enterError_fx (e : ErrorClass) (r : Regs) : (enterError e r).fx = r.fx := rfl
@[simp] theorem enterError_fy (e : ErrorClass) (r : Regs) : (enterError e r).fy = r.fy := rfl
@[simp] theorem enterError_fw (e : ErrorClass) (r : Regs) : (enterError e r).fw = r.fw := rfl
@[simp] theorem enterError_fh (e : ErrorClass) (r : Regs) : (enterError e r).fh = r.fh := rfl
@[simp] theorem enterError_fdelay (e : ErrorClass) (r : Regs) : (enterError e r).fdelay = r.fdelay := rfl
@[simp] theorem enterError_fil (e : ErrorClass) (r : Regs) : (enterError e r).fil = r.fil := rfl
@[simp] theorem enterError_ftr (e : ErrorClass) (r : Regs) : (enterError e r).ftr = r.ftr := rfl
@[simp] theorem enterError_phase (e : ErrorClass) (r : Regs) : (enterError e r).phase = .error := rfl
@[simp] theorem enterError_errcode (e : ErrorClass) (r : Regs) : (enterError e r).errcode = some e := rfl
@[simp] theorem enterError_fdone (e : ErrorClass) (r : Regs) : (enterError e r).fdone = r.fdone := rfl
@[simp] theorem enterError_npix (e : ErrorClass) (r : Regs) : (enterError e r).npix = r.npix := rfl
@[simp] theorem enterError_pixcnt (e : ErrorClass) (r : Regs) : (enterError e r).pixcnt = r.pixcnt := rfl
@[simp] theorem enterError_cur (e : ErrorClass) (r : Regs) : (enterError e r).cur = r.cur := rfl
@[simp] theorem enterError_nextcode (e : ErrorClass) (r : Regs) : (enterError e r).nextcode = r.nextcode := rfl
@[simp] theorem enterError_nbits (e : ErrorClass) (r : Regs) : (enterError e r).nbits = r.nbits := rfl
@[simp] theorem enterError_dict (e : ErrorClass) (r : Regs) : (enterError e r).dict = r.dict := rfl
@[simp] theorem enterError_acc (e : ErrorClass) (r : Regs) : (enterError e r).acc = r.acc := rfl
@[simp] theorem enterError_bitcnt (e : ErrorClass) (r : Regs) : (enterError e r).bitcnt = r.bitcnt := rfl
@[simp] theorem enterError_sbbuf (e : ErrorClass) (r : Regs) : (enterError e r).sbbuf = r.sbbuf := rfl
@[simp] theorem enterError_sbcnt (e : ErrorClass) (r : Regs) : (enterError e r).sbcnt = r.sbcnt := rfl

@[simp] theorem dictInsert_canvw (p : BitVec 12) (c : Byte) (r : Regs) : (dictInsert p c r).canvw = r.canvw := rfl
@[simp] theorem dictInsert_canvh (p : BitVec 12) (c : Byte) (r : Regs) : (dictInsert p c r).canvh = r.canvh := rfl
@[simp] theorem dictInsert_nframes (p : BitVec 12) (c : Byte) (r : Regs) : (dictInsert p c r).nframes = r.nframes := rfl
@[simp] theorem dictInsert_loop (p : BitVec 12) (c : Byte) (r : Regs) : (dictInsert p c r).loop = r.loop := rfl
@[simp] theorem dictInsert_trv (p : BitVec 12) (c : Byte) (r : Regs) : (dictInsert p c r).trv = r.trv := rfl
@[simp] theorem dictInsert_tridx (p : BitVec 12) (c : Byte) (r : Regs) : (dictInsert p c r).tridx = r.tridx := rfl
@[simp] theorem dictInsert_paln (p : BitVec 12) (c : Byte) (r : Regs) : (dictInsert p c r).paln = r.paln := rfl
@[simp] theorem dictInsert_pal (p : BitVec 12) (c : Byte) (r : Regs) : (dictInsert p c r).pal = r.pal := rfl
@[simp] theorem dictInsert_fx (p : BitVec 12) (c : Byte) (r : Regs) : (dictInsert p c r).fx = r.fx := rfl
@[simp] theorem dictInsert_fy (p : BitVec 12) (c : Byte) (r : Regs) : (dictInsert p c r).fy = r.fy := rfl
@[simp] theorem dictInsert_fw (p : BitVec 12) (c : Byte) (r : Regs) : (dictInsert p c r).fw = r.fw := rfl
@[simp] theorem dictInsert_fh (p : BitVec 12) (c : Byte) (r : Regs) : (dictInsert p c r).fh = r.fh := rfl
@[simp] theorem dictInsert_fdelay (p : BitVec 12) (c : Byte) (r : Regs) : (dictInsert p c r).fdelay = r.fdelay := rfl
@[simp] theorem dictInsert_fil (p : BitVec 12) (c : Byte) (r : Regs) : (dictInsert p c r).fil = r.fil := rfl
@[simp] theorem dictInsert_ftr (p : BitVec 12) (c : Byte) (r : Regs) : (dictInsert p c r).ftr = r.ftr := rfl
@[simp] theorem dictInsert_phase (p : BitVec 12) (c : Byte) (r : Regs) : (dictInsert p c r).phase = r.phase := rfl
@[simp] theorem dictInsert_errcode (p : BitVec 12) (c : Byte) (r : Regs) : (dictInsert p c r).errcode = r.errcode := rfl
@[simp] theorem dictInsert_fdone (p : BitVec 12) (c : Byte) (r : Regs) : (dictInsert p c r).fdone = r.fdone := rfl
@[simp] theorem dictInsert_npix (p : BitVec 12) (c : Byte) (r : Regs) : (dictInsert p c r).npix = r.npix := rfl
@[simp] theorem dictInsert_pixcnt (p : BitVec 12) (c : Byte) (r : Regs) : (dictInsert p c r).pixcnt = r.pixcnt := rfl
@[simp] theorem dictInsert_cur (p : BitVec 12) (c : Byte) (r : Regs) : (dictInsert p c r).cur = r.cur := rfl
@[simp] theorem dictInsert_nextcode (p : BitVec 12) (c : Byte) (r : Regs) : (dictInsert p c r).nextcode = r.nextcode := rfl
@[simp] theorem dictInsert_nbits (p : BitVec 12) (c : Byte) (r : Regs) : (dictInsert p c r).nbits = r.nbits := rfl
@[simp] theorem dictInsert_dict (p : BitVec 12) (c : Byte) (r : Regs) : (dictInsert p c r).dict = Memory.insert (dictKey p c) (BitVec.ofNat 12 r.nextcode.toNat) r.dict := rfl
@[simp] theorem dictInsert_acc (p : BitVec 12) (c : Byte) (r : Regs) : (dictInsert p c r).acc = r.acc := rfl
@[simp] theorem dictInsert_bitcnt (p : BitVec 12) (c : Byte) (r : Regs) : (dictInsert p c r).bitcnt = r.bitcnt := rfl
@[simp] theorem dictInsert_sbbuf (p : BitVec 12) (c : Byte) (r : Regs) : (dictInsert p c r).sbbuf = r.sbbuf := rfl
@[simp] theorem dictInsert_sbcnt (p : BitVec 12) (c : Byte) (r : Regs) : (dictInsert p c r).sbcnt = r.sbcnt := rfl

@[simp] theorem addCode_canvw (code : Nat) (r : Regs) : (addCode code r).canvw = r.canvw := rfl
@[simp] theorem addCode_canvh (code : Nat) (r : Regs) : (addCode code r).canvh = r.canvh := rfl
@[simp] theorem addCode_nframes (code : Nat) (r : Regs) : (addCode code r).nframes = r.nframes := rfl
@[simp] theorem addCode_loop (code : Nat) (r : Regs) : (addCode code r).loop = r.loop := rfl
@[simp] theorem addCode_trv (code : Nat) (r : Regs) : (addCode code r).trv = r.trv := rfl
@[simp] theorem addCode_tridx (code : Nat) (r : Regs) : (addCode code r).tridx = r.tridx := rfl
@[simp] theorem addCode_paln (code : Nat) (r : Regs) : (addCode code r).paln = r.paln := rfl
@[simp] theorem addCode_pal (code : Nat) (r : Regs) : (addCode code r).pal = r.pal := rfl
@[simp] theorem addCode_fx (code : Nat) (r : Regs) : (addCode code r).fx = r.fx := rfl
@[simp] theorem addCode_fy (code : Nat) (r : Regs) : (addCode code r).fy = r.fy := rfl
@[simp] theorem addCode_fw (code : Nat) (r : Regs) : (addCode code r).fw = r.fw := rfl
@[simp] theorem addCode_fh (code : Nat) (r : Regs) : (addCode code r).fh = r.fh := rfl
@[simp] theorem addCode_fdelay (code : Nat) (r : Regs) : (addCode code r).fdelay = r.fdelay := rfl
@[simp] theorem addCode_fil (code : Nat) (r : Regs) : (addCode code r).fil = r.fil := rfl
@[simp] theorem addCode_ftr (code : Nat) (r : Regs) : (addCode code r).ftr = r.ftr := rfl
@[simp] theorem addCode_phase (code : Nat) (r : Regs) : (addCode code r).phase = r.phase := rfl
@[simp] theorem addCode_errcode (code : Nat) (r : Regs) : (addCode code r).errcode = r.errcode := rfl
@[simp] theorem addCode_fdone (code : Nat) (r : Regs) : (addCode code r).fdone = r.fdone := rfl
@[simp] theorem addCode_npix (code : Nat) (r : Regs) : (addCode code r).npix = r.npix := rfl
@[simp] theorem addCode_pixcnt (code : Nat) (r : Regs) : (addCode code r).pixcnt = r.pixcnt := rfl
@[simp] theorem addCode_cur (code : Nat) (r : Regs) : (addCode code r).cur = r.cur := rfl
@[simp] theorem addCode_nextcode (code : Nat) (r : Regs) : (addCode code r).nextcode = r.nextcode := rfl
@[simp] theorem addCode_nbits (code : Nat) (r : Regs) : (addCode code r).nbits = r.nbits := rfl
@[simp] theorem addCode_dict (code : Nat) (r : Regs) : (addCode code r).dict = r.dict := rfl
@[simp] theorem addCode_acc (code : Nat) (r : Regs) : (addCode code r).acc = r.acc ||| (BitVec.ofNat 19 code <<< r.bitcnt.toNat) := rfl
@[simp] theorem addCode_bitcnt (code : Nat) (r : Regs) : (addCode code r).bitcnt = BitVec.ofNat 5 (r.bitcnt.toNat + r.nbits.toNat) := rfl
@[simp] theorem addCode_sbbuf (code : Nat) (r : Regs) : (addCode code r).sbbuf = r.sbbuf := rfl
@[simp] theorem addCode_sbcnt (code : Nat) (r : Regs) : (addCode code r).sbcnt = r.sbcnt := rfl

@[simp] theorem clearDictionary_canvw (r : Regs) : (clearDictionary r).canvw = r.canvw := rfl
@[simp] theorem clearDictionary_canvh (r : Regs) : (clearDictionary r).canvh = r.canvh := rfl
@[simp] theorem clearDictionary_nframes (r : Regs) : (clearDictionary r).nframes = r.nframes := rfl
@[simp] theorem clearDictionary_loop (r : Regs) : (clearDictionary r).loop = r.loop := rfl
@[simp] theorem clearDictionary_trv (r : Regs) : (clearDictionary r).trv = r.trv := rfl
@[simp] theorem clearDictionary_tridx (r : Regs) : (clearDictionary r).tridx = r.tridx := rfl
@[simp] theorem clearDictionary_paln (r : Regs) : (clearDictionary r).paln = r.paln := rfl
@[simp] theorem clearDictionary_pal (r : Regs) : (clearDictionary r).pal = r.pal := rfl
@[simp] theorem clearDictionary_fx (r : Regs) : (clearDictionary r).fx = r.fx := rfl
@[simp] theorem clearDictionary_fy (r : Regs) : (clearDictionary r).fy = r.fy := rfl
@[simp] theorem clearDictionary_fw (r : Regs) : (clearDictionary r).fw = r.fw := rfl
@[simp] theorem clearDictionary_fh (r : Regs) : (clearDictionary r).fh = r.fh := rfl
@[simp] theorem clearDictionary_fdelay (r : Regs) : (clearDictionary r).fdelay = r.fdelay := rfl
@[simp] theorem clearDictionary_fil (r : Regs) : (clearDictionary r).fil = r.fil := rfl
@[simp] theorem clearDictionary_ftr (r : Regs) : (clearDictionary r).ftr = r.ftr := rfl
@[simp] theorem clearDictionary_phase (r : Regs) : (clearDictionary r).phase = r.phase := rfl
@[simp] theorem clearDictionary_errcode (r : Regs) : (clearDictionary r).errcode = r.errcode := rfl
@[simp] theorem clearDictionary_fdone (r : Regs) : (clearDictionary r).fdone = r.fdone := rfl
@[simp] theorem clearDictionary_npix (r : Regs) : (clearDictionary r).npix = r.npix := rfl
@[simp] theorem clearDictionary_pixcnt (r : Regs) : (clearDictionary r).pixcnt = r.pixcnt := rfl
@[simp] theorem clearDictionary_cur (r : Regs) : (clearDictionary r).cur = r.cur := rfl
@[simp] theorem clearDictionary_nextcode (r : Regs) : (clearDictionary r).nextcode = BitVec.ofNat 13 (firstFree r) := rfl
@[simp] theorem clearDictionary_nbits (r : Regs) : (clearDictionary r).nbits = BitVec.ofNat 4 (ics r + 1) := rfl
@[simp] theorem clearDictionary_dict (r : Regs) : (clearDictionary r).dict = [] := rfl
@[simp] theorem clearDictionary_acc (r : Regs) : (clearDictionary r).acc = r.acc := rfl
@[simp] theorem clearDictionary_bitcnt (r : Regs) : (clearDictionary r).bitcnt = r.bitcnt := rfl
@[simp] theorem clearDictionary_sbbuf (r : Regs) : (clearDictionary r).sbbuf = r.sbbuf := rfl
@[simp] theorem clearDictionary_sbcnt (r : Regs) : (clearDictionary r).sbcnt = r.sbcnt := rfl

@[simp] theorem insertPair_canvw (c : Byte) (r : Regs) : (insertPair c r).canvw = r.canvw := rfl
@[simp] theorem insertPair_canvh (c : Byte) (r : Regs) : (insertPair c r).canvh = r.canvh := rfl
@[simp] theorem insertPair_nframes (c : Byte) (r : Regs) : (insertPair c r).nframes = r.nframes := rfl
@[simp] theorem insertPair_loop (c : Byte) (r : Regs) : (insertPair c r).loop = r.loop := rfl
@[simp] theorem insertPair_trv (c : Byte) (r : Regs) : (insertPair c r).trv = r.trv := rfl
@[simp] theorem insertPair_tridx (c : Byte) (r : Regs) : (insertPair c r).tridx = r.tridx := rfl
@[simp] theorem insertPair_paln (c : Byte) (r : Regs) : (insertPair c r).paln = r.paln := rfl
@[simp] theorem insertPair_pal (c : Byte) (r : Regs) : (insertPair c r).pal = r.pal := rfl
@[simp] theorem insertPair_fx (c : Byte) (r : Regs) : (insertPair c r).fx = r.fx := rfl
@[simp] theorem insertPair_fy (c : Byte) (r : Regs) : (insertPair c r).fy = r.fy := rfl
@[simp] theorem insertPair_fw (c : Byte) (r : Regs) : (insertPair c r).fw = r.fw := rfl
@[simp] theorem insertPair_fh (c : Byte) (r : Regs) : (insertPair c r).fh = r.fh := rfl
@[simp] theorem insertPair_fdelay (c : Byte) (r : Regs) : (insertPair c r).fdelay = r.fdelay := rfl
@[simp] theorem insertPair_fil (c : Byte) (r : Regs) : (insertPair c r).fil = r.fil := rfl
@[simp] theorem insertPair_ftr (c : Byte) (r : Regs) : (insertPair c r).ftr = r.ftr := rfl
@[simp] theorem insertPair_phase (c : Byte) (r : Regs) : (insertPair c r).phase = r.phase := rfl
@[simp] theorem insertPair_errcode (c : Byte) (r : Regs) : (insertPair c r).errcode = r.errcode := rfl
@[simp] theorem insertPair_fdone (c : Byte) (r : Regs) : (insertPair c r).fdone = r.fdone := rfl
@[simp] theorem insertPair_npix (c : Byte) (r : Regs) : (insertPair c r).npix = r.npix := rfl
@[simp] theorem insertPair_pixcnt (c : Byte) (r : Regs) : (insertPair c r).pixcnt = r.pixcnt := rfl
@[simp] theorem insertPair_cur (c : Byte) (r : Regs) : (insertPair c r).cur = r.cur := rfl
@[simp] theorem insertPair_nextcode (c : Byte) (r : Regs) : (insertPair c r).nextcode = BitVec.ofNat 13 (r.nextcode.toNat + 1) := rfl
@[simp] theorem insertPair_nbits (c : Byte) (r : Regs) : (insertPair c r).nbits = r.nbits := rfl
@[simp] theorem insertPair_dict (c : Byte) (r : Regs) : (insertPair c r).dict = Memory.insert (dictKey r.cur c) (BitVec.ofNat 12 r.nextcode.toNat) r.dict := rfl
@[simp] theorem insertPair_acc (c : Byte) (r : Regs) : (insertPair c r).acc = r.acc := rfl
@[simp] theorem insertPair_bitcnt (c : Byte) (r : Regs) : (insertPair c r).bitcnt = r.bitcnt := rfl
@[simp] theorem insertPair_sbbuf (c : Byte) (r : Regs) : (insertPair c r).sbbuf = r.sbbuf := rfl
@[simp] theorem insertPair_sbcnt (c : Byte) (r : Regs) : (insertPair c r).sbcnt = r.sbcnt := rfl

@[simp] theorem initCompressor_canvw (r : Regs) : (initCompressor r).canvw = r.canvw := rfl
@[simp] theorem initCompressor_canvh (r : Regs) : (initCompressor r).canvh = r.canvh := rfl
@[simp] theorem initCompressor_nframes (r : Regs) : (initCompressor r).nframes = r.nframes := rfl
@[simp] theorem initCompressor_loop (r : Regs) : (initCompressor r).loop = r.loop := rfl
@[simp] theorem initCompressor_trv (r : Regs) : (initCompressor r).trv = r.trv := rfl
@[simp] theorem initCompressor_tridx (r : Regs) : (initCompressor r).tridx = r.tridx := rfl
@[simp] theorem initCompressor_paln (r : Regs) : (initCompressor r).paln = r.paln := rfl
@[simp] theorem initCompressor_pal (r : Regs) : (initCompressor r).pal = r.pal := rfl
@[simp] theorem initCompressor_fx (r : Regs) : (initCompressor r).fx = r.fx := rfl
@[simp] theorem initCompressor_fy (r : Regs) : (initCompressor r).fy = r.fy := rfl
@[simp] theorem initCompressor_fw (r : Regs) : (initCompressor r).fw = r.fw := rfl
@[simp] theorem initCompressor_fh (r : Regs) : (initCompressor r).fh = r.fh := rfl
@[simp] theorem initCompressor_fdelay (r : Regs) : (initCompressor r).fdelay = r.fdelay := rfl
@[simp] theorem initCompressor_fil (r : Regs) : (initCompressor r).fil = r.fil := rfl
@[simp] theorem initCompressor_ftr (r : Regs) : (initCompressor r).ftr = r.ftr := rfl
@[simp] theorem initCompressor_phase (r : Regs) : (initCompressor r).phase = r.phase := rfl
@[simp] theorem initCompressor_errcode (r : Regs) : (initCompressor r).errcode = r.errcode := rfl
@[simp] theorem initCompressor_fdone (r : Regs) : (initCompressor r).fdone = r.fdone := rfl
@[simp] theorem initCompressor_npix (r : Regs) : (initCompressor r).npix = r.npix := rfl
@[simp] theorem initCompressor_pixcnt (r : Regs) : (initCompressor r).pixcnt = r.pixcnt := rfl
@[simp] theorem initCompressor_cur (r : Regs) : (initCompressor r).cur = 0 := rfl
@[simp] theorem initCompressor_nextcode (r : Regs) : (initCompressor r).nextcode = BitVec.ofNat 13 (firstFree r) := rfl
@[simp] theorem initCompressor_nbits (r : Regs) : (initCompressor r).nbits = BitVec.ofNat 4 (ics r + 1) := rfl
@[simp] theorem initCompressor_dict (r : Regs) : (initCompressor r).dict = [] := rfl
@[simp] theorem initCompressor_acc (r : Regs) : (initCompressor r).acc = 0 := rfl
@[simp] theorem initCompressor_bitcnt (r : Regs) : (initCompressor r).bitcnt = 0 := rfl
@[simp] theorem initCompressor_sbbuf (r : Regs) : (initCompressor r).sbbuf = r.sbbuf := rfl
@[simp] theorem initCompressor_sbcnt (r : Regs) : (initCompressor r).sbcnt = 0 := rfl

@[simp] theorem accepted_regs (b : Byte) (s : State) : (accepted b s).regs = s.regs := rfl
@[simp] theorem accepted_out (b : Byte) (s : State) : (accepted b s).out = s.out ++ [b] := rfl
@[simp] theorem accepted_host (b : Byte) (s : State) : (accepted b s).host = s.host := rfl
@[simp] theorem accepted_sink (b : Byte) (s : State) : (accepted b s).sink = sinkNext s.sink := rfl
@[simp] theorem accepted_held (b : Byte) (s : State) : (accepted b s).held = s.held := rfl

@[simp] theorem refused_regs (o : Offer) (s : State) : (refused o s).regs = enterError .sinkIOError o.regs := rfl
@[simp] theorem refused_out (o : Offer) (s : State) : (refused o s).out = s.out := rfl
@[simp] theorem refused_host (o : Offer) (s : State) : (refused o s).host = s.host := rfl
@[simp] theorem refused_sink (o : Offer) (s : State) : (refused o s).sink = sinkNext s.sink := rfl
@[simp] theorem refused_held (o : Offer) (s : State) : (refused o s).held = none := rfl

@[simp] theorem withheld_regs (o : Offer) (os : List Offer) (stop : Option Stop) (r : Regs) (s : State) : (withheld o os stop r s).regs = o.regs := rfl
@[simp] theorem withheld_out (o : Offer) (os : List Offer) (stop : Option Stop) (r : Regs) (s : State) : (withheld o os stop r s).out = s.out := rfl
@[simp] theorem withheld_host (o : Offer) (os : List Offer) (stop : Option Stop) (r : Regs) (s : State) : (withheld o os stop r s).host = s.host := rfl
@[simp] theorem withheld_sink (o : Offer) (os : List Offer) (stop : Option Stop) (r : Regs) (s : State) : (withheld o os stop r s).sink = sinkNext s.sink := rfl
@[simp] theorem withheld_held (o : Offer) (os : List Offer) (stop : Option Stop) (r : Regs) (s : State) : (withheld o os stop r s).held = some ⟨o :: os, stop, r⟩ := rfl

@[simp] theorem resetBlock_regs (s : State) : (resetBlock s).regs = Regs.reset := rfl
@[simp] theorem resetBlock_out (s : State) : (resetBlock s).out = s.out := rfl
@[simp] theorem resetBlock_host (s : State) : (resetBlock s).host = s.host := rfl
@[simp] theorem resetBlock_sink (s : State) : (resetBlock s).sink = s.sink := rfl
@[simp] theorem resetBlock_held (s : State) : (resetBlock s).held = none := rfl

@[simp] theorem sinkNext_rest (k : Sink) : (sinkNext k).rest = k.rest := rfl
@[simp] theorem sinkNext_script (k : Sink) : (sinkNext k).script = k.script.tail := rfl

end Sys2Proof.Machine
end

