-- ==== Sys2Proof/Laws/Store.lean ====
section
/-!
SUPPORT. The laws of the stores: a read after a write, and that every store operation keeps the canonical form.
-/

namespace Sys2Proof.Machine

variable {α : Type}

theorem rising_mono {lo lo' bound bound' : Nat} (hlo : lo' ≤ lo) (hb : bound ≤ bound') :
    ∀ {m : List (Nat × α)}, Memory.rising lo bound m = true → Memory.rising lo' bound' m = true
  | [], _ => rfl
  | (k, v) :: m, h => by
    simp only [Memory.rising, Bool.and_eq_true, decide_eq_true_eq] at h ⊢
    exact ⟨⟨by omega, by omega⟩, rising_mono (Nat.le_refl _) hb h.2⟩

/-- In canonical form nothing is listed below `lo`. -/
theorem find_eq_none_of_rising {lo bound i : Nat} (hi : i < lo) :
    ∀ {m : List (Nat × α)}, Memory.rising lo bound m = true → Memory.find m i = none
  | [], _ => rfl
  | (k, v) :: m, h => by
    simp only [Memory.rising, Bool.and_eq_true, decide_eq_true_eq] at h
    have hk : k ≠ i := by omega
    simp only [Memory.find, if_neg hk]
    exact find_eq_none_of_rising (by omega) h.2

/-- In canonical form nothing is listed at or above the bound. -/
theorem find_eq_none_of_bound {lo bound i : Nat} (hi : bound ≤ i) :
    ∀ {m : List (Nat × α)}, Memory.rising lo bound m = true → Memory.find m i = none
  | [], _ => rfl
  | (k, v) :: m, h => by
    simp only [Memory.rising, Bool.and_eq_true, decide_eq_true_eq] at h
    have hk : k ≠ i := by omega
    simp only [Memory.find, if_neg hk]
    exact find_eq_none_of_bound hi h.2

theorem find_insert (i j : Nat) (a : α) :
    ∀ m : List (Nat × α), Memory.find (Memory.insert i a m) j = if i = j then some a else Memory.find m j
  | [] => by simp [Memory.insert, Memory.find]
  | (k, v) :: m => by
    unfold Memory.insert
    split
    · by_cases h : i = j <;> simp [Memory.find, h]
    · split
      · rename_i _ hki
        by_cases h : i = j <;> simp [Memory.find, hki, h]
      · rename_i _ hki
        by_cases hkj : k = j
        · have : i ≠ j := fun h => hki (by omega)
          simp [Memory.find, hkj, this]
        · simp [Memory.find, hkj, find_insert i j a m]

theorem find_erase {i j lo bound : Nat} :
    ∀ {m : List (Nat × α)}, Memory.rising lo bound m = true →
      Memory.find (Memory.erase i m) j = if i = j then none else Memory.find m j
  | [], _ => by simp [Memory.erase, Memory.find]
  | (k, v) :: m, h => by
    simp only [Memory.rising, Bool.and_eq_true, decide_eq_true_eq] at h
    unfold Memory.erase
    split
    · rename_i hki
      by_cases hij : i = j
      · rw [if_pos hij]
        exact find_eq_none_of_rising (by omega) h.2
      · rw [if_neg hij]
        simp [Memory.find, show k ≠ j by omega]
    · rename_i hki
      by_cases hkj : k = j
      · simp [Memory.find, hkj, show i ≠ j by omega]
      · simp [Memory.find, hkj, find_erase h.2]

theorem rising_insert {i lo bound : Nat} (a : α) (hlo : lo ≤ i) (hb : i < bound) :
    ∀ {m : List (Nat × α)}, Memory.rising lo bound m = true → Memory.rising lo bound (Memory.insert i a m) = true
  | [], _ => by simp [Memory.insert, Memory.rising, hlo, hb]
  | (k, v) :: m, h => by
    simp only [Memory.rising, Bool.and_eq_true, decide_eq_true_eq] at h
    unfold Memory.insert
    split
    · simp only [Memory.rising, Bool.and_eq_true, decide_eq_true_eq]
      exact ⟨⟨hlo, hb⟩, ⟨by omega, h.1.2⟩, h.2⟩
    · split
      · rename_i _ hki
        simp only [Memory.rising, Bool.and_eq_true, decide_eq_true_eq]
        exact ⟨⟨hlo, hb⟩, hki ▸ h.2⟩
      · rename_i hik hki
        simp only [Memory.rising, Bool.and_eq_true, decide_eq_true_eq]
        exact ⟨h.1, rising_insert a (by omega) hb h.2⟩

theorem rising_erase {i lo bound : Nat} :
    ∀ {m : List (Nat × α)}, Memory.rising lo bound m = true → Memory.rising lo bound (Memory.erase i m) = true
  | [], _ => rfl
  | (k, v) :: m, h => by
    have h' := h
    simp only [Memory.rising, Bool.and_eq_true, decide_eq_true_eq] at h
    unfold Memory.erase
    split
    · exact rising_mono (by omega) (Nat.le_refl _) h.2
    · simp only [Memory.rising, Bool.and_eq_true, decide_eq_true_eq]
      exact ⟨h.1, rising_erase h.2⟩

theorem mem_insert {i : Nat} {a : α} {e : Nat × α} :
    ∀ {m : List (Nat × α)}, e ∈ Memory.insert i a m → e = (i, a) ∨ e ∈ m
  | [], h => by simpa [Memory.insert] using h
  | (k, v) :: m, h => by
    unfold Memory.insert at h
    split at h
    · simpa using h
    · split at h
      · rcases List.mem_cons.mp h with h | h
        · exact .inl h
        · exact .inr (List.mem_cons_of_mem _ h)
      · rcases List.mem_cons.mp h with h | h
        · exact .inr (h ▸ List.mem_cons_self)
        · exact (mem_insert h).imp id (List.mem_cons_of_mem _)

theorem mem_erase {i : Nat} {e : Nat × α} : ∀ {m : List (Nat × α)}, e ∈ Memory.erase i m → e ∈ m
  | [], h => h
  | (k, v) :: m, h => by
    unfold Memory.erase at h
    split at h
    · exact List.mem_cons_of_mem _ h
    · rcases List.mem_cons.mp h with h | h
      · exact h ▸ List.mem_cons_self
      · exact List.mem_cons_of_mem _ (mem_erase h)

/-- Inserting an absent key adds its value to the values listed, in some place. -/
theorem map_insert_perm {β : Type} {i : Nat} {a : α} (f : α → β) :
    ∀ {m : List (Nat × α)}, Memory.find m i = none →
      ((Memory.insert i a m).map (fun e => f e.2)).Perm (f a :: m.map (fun e => f e.2))
  | [], _ => by simp [Memory.insert]
  | (k, v) :: m, h => by
    have hki : k ≠ i := fun hk => by simp [Memory.find, hk] at h
    have hm : Memory.find m i = none := by simpa [Memory.find, hki] using h
    unfold Memory.insert
    split
    · simp
    · simpa using ((map_insert_perm f hm).cons (f v)).trans (List.Perm.swap _ _ _)

theorem find_mem {i : Nat} {a : α} : ∀ {m : List (Nat × α)}, Memory.find m i = some a → (i, a) ∈ m
  | [], h => by simp [Memory.find] at h
  | (k, v) :: m, h => by
    by_cases hk : k = i
    · simp only [Memory.find, if_pos hk, Option.some.injEq] at h
      simp [hk, h]
    · simp only [Memory.find, if_neg hk] at h
      exact List.mem_cons_of_mem _ (find_mem h)

/-- A read of a 0-default store after a write. -/
theorem get_put {w bound : Nat} {m : List (Nat × BitVec w)} (h : Memory.wf bound m = true) (i j : Nat) (a : BitVec w) :
    Memory.get (Memory.put i a m) j = if i = j then a else Memory.get m j := by
  simp only [Memory.wf, Bool.and_eq_true] at h
  unfold Memory.get Memory.put
  split
  · rename_i ha
    rw [find_erase h.1]
    by_cases hij : i = j <;> simp [hij, ha]
  · rw [find_insert]
    by_cases hij : i = j <;> simp [hij]

/-- A write to a 0-default store keeps its canonical form, under any bound above the index. -/
theorem wf_put {w bound bound' i : Nat} {m : List (Nat × BitVec w)} (h : Memory.wf bound m = true) (a : BitVec w)
    (hi : i < bound') (hb : bound ≤ bound') : Memory.wf bound' (Memory.put i a m) = true := by
  simp only [Memory.wf, Bool.and_eq_true, List.all_eq_true, decide_eq_true_eq] at h ⊢
  unfold Memory.put
  split
  · exact ⟨rising_erase (rising_mono (Nat.le_refl _) hb h.1), fun e he => h.2 e (mem_erase he)⟩
  · rename_i ha
    refine ⟨rising_insert a (Nat.zero_le _) hi (rising_mono (Nat.le_refl _) hb h.1), fun e he => ?_⟩
    rcases mem_insert he with he | he
    · simpa [he] using ha
    · exact h.2 e he

theorem wf_mono {w bound bound' : Nat} {m : List (Nat × BitVec w)} (h : Memory.wf bound m = true) (hb : bound ≤ bound') :
    Memory.wf bound' m = true := by
  simp only [Memory.wf, Bool.and_eq_true] at h ⊢
  exact ⟨rising_mono (Nat.le_refl _) hb h.1, h.2⟩

theorem wf_nil {w bound : Nat} : Memory.wf bound ([] : List (Nat × BitVec w)) = true := rfl

/-- In a store whose canonical form has a bound, an index at or above the bound reads 0. -/
theorem get_eq_zero_of_bound {w bound i : Nat} {m : List (Nat × BitVec w)} (h : Memory.wf bound m = true) (hi : bound ≤ i) :
    Memory.get m i = 0#w := by
  simp only [Memory.wf, Bool.and_eq_true] at h
  simp [Memory.get, find_eq_none_of_bound hi h.1]

theorem wfMap_insert {bound i : Nat} {m : List (Nat × α)} (h : Memory.wfMap bound m = true) (a : α) (hi : i < bound) :
    Memory.wfMap bound (Memory.insert i a m) = true :=
  rising_insert a (Nat.zero_le _) hi h

/-- A dictionary key has 20 bits (20 R60 (3)). -/
theorem dictKey_lt (p : BitVec 12) (c : Byte) : dictKey p c < 1048576 := by
  have := p.isLt
  have := c.isLt
  unfold dictKey
  omega

/-- Two pairs with one key are one pair. -/
theorem dictKey_inj {p q : BitVec 12} {c d : Byte} (h : dictKey p c = dictKey q d) : p = q ∧ c = d := by
  have := c.isLt
  have := d.isLt
  unfold dictKey at h
  exact ⟨BitVec.eq_of_toNat_eq (by omega), BitVec.eq_of_toNat_eq (by omega)⟩

/-- A lookup after an insertion (40 R110). -/
theorem dictLookup_insert (r : Regs) (p q : BitVec 12) (c d : Byte) :
    dictLookup (dictInsert p c r) q d =
      if p = q ∧ c = d then some (BitVec.ofNat 12 r.nextcode.toNat) else dictLookup r q d := by
  unfold dictLookup dictInsert
  simp only [find_insert]
  by_cases h : dictKey p c = dictKey q d
  · rw [if_pos h, if_pos (dictKey_inj h)]
  · rw [if_neg h, if_neg (fun hh => h (by rw [hh.1, hh.2]))]

end Sys2Proof.Machine
end

