-- ==== Sys2Proof/Laws/Ops.lean ====
section
/-!
SUPPORT. What the pieces of pseudocode do (one lemma each), what delivering a run to the sink can answer (one inversion lemma), and what
`command` answers in each phase.
-/

namespace Sys2Proof.Machine

/-! ### The pieces of pseudocode -/

@[simp] theorem pass_eq (r : Regs) : pass r = ⟨[], none, r⟩ := rfl
@[simp] theorem write_eq (f : Regs → Regs) (r : Regs) : write f r = ⟨[], none, f r⟩ := rfl
@[simp] theorem emit_eq (f : Regs → List Byte) (r : Regs) : emit f r = ⟨(f r).map (Offer.mk r), none, r⟩ := rfl
@[simp] theorem raiseError_eq (e : ErrorClass) (r : Regs) : raiseError e r = ⟨[], some (.raise e), r⟩ := rfl
@[simp] theorem program_nil (r : Regs) : program [] r = ⟨[], none, r⟩ := rfl

theorem andThen_of_none {p q : Micro} {r : Regs} (h : (p r).stop = none) :
    andThen p q r = ⟨(p r).offers ++ (q (p r).regs).offers, (q (p r).regs).stop, (q (p r).regs).regs⟩ := by
  simp [andThen, h]

theorem andThen_of_some {p q : Micro} {r : Regs} {st : Stop} (h : (p r).stop = some st) : andThen p q r = p r := by
  simp [andThen, h]

theorem program_cons (p : Micro) (ps : List Micro) : program (p :: ps) = andThen p (program ps) := rfl

/-- A statement that writes registers, then the rest. -/
@[simp] theorem program_write (f : Regs → Regs) (ps : List Micro) (r : Regs) :
    program (write f :: ps) r = program ps (f r) := by
  simp [program_cons, andThen]

/-- A check that does not fire. -/
theorem program_check_pass {c : Regs → Bool} {e : ErrorClass} {ps : List Micro} {r : Regs} (h : c r = false) :
    program (check c e :: ps) r = program ps r := by
  simp [program_cons, andThen, check, whenever, h]

/-- A check that fires ends the step before anything else. -/
theorem program_check_raise {c : Regs → Bool} {e : ErrorClass} {ps : List Micro} {r : Regs} (h : c r = true) :
    program (check c e :: ps) r = ⟨[], some (.raise e), r⟩ := by
  simp [program_cons, andThen, check, whenever, h]

/-- A guard whose case does not occur. -/
theorem program_guard_pass {c : Regs → Bool} {f : Fault} {ps : List Micro} {r : Regs} (h : c r = false) :
    program (guardFault c f :: ps) r = program ps r := by
  simp [program_cons, andThen, guardFault, whenever, h]

/-- A statement that offers bytes, then the rest. -/
theorem program_emit (f : Regs → List Byte) (ps : List Micro) (r : Regs) :
    program (emit f :: ps) r =
      ⟨(f r).map (Offer.mk r) ++ (program ps r).offers, (program ps r).stop, (program ps r).regs⟩ := by
  simp [program_cons, andThen]

theorem program_whenever_true {c : Regs → Bool} {p : Micro} {ps : List Micro} {r : Regs} (h : c r = true) :
    program (whenever c p :: ps) r = program (p :: ps) r := by
  simp [program_cons, andThen, whenever, h]

theorem program_whenever_false {c : Regs → Bool} {p : Micro} {ps : List Micro} {r : Regs} (h : c r = false) :
    program (whenever c p :: ps) r = program ps r := by
  simp [program_cons, andThen, whenever, h]

/-- A run with no offer and no stop, then the rest. -/
theorem program_quiet {p : Micro} {ps : List Micro} {r q : Regs} (h : p r = ⟨[], none, q⟩) :
    program (p :: ps) r = program ps q := by
  simp [program_cons, andThen, h]

/-! ### What a run keeps -/

/-- A run stops with no model fault and no InvariantViolation, every byte is offered from good registers, and if it comes to its end the
registers it leaves satisfy `post`. -/
def RunKeeps (post : Regs → Prop) (run : Run) : Prop :=
  (∀ o ∈ run.offers, MidOk o.regs) ∧
  match run.stop with
  | none => post run.regs
  | some (.raise e) => MidOk run.regs ∧ e ≠ .invariantViolation
  | some (.fault _) => False

theorem runOk_iff (run : Run) : RunOk run ↔ RunKeeps RegsOk run := Iff.rfl

theorem RunKeeps.mono {post post' : Regs → Prop} {run : Run} (h : RunKeeps post run) (hp : ∀ r, post r → post' r) :
    RunKeeps post' run := by
  obtain ⟨h1, h2⟩ := h
  refine ⟨h1, ?_⟩
  revert h2
  cases run.stop with
  | none => exact hp _
  | some st => cases st <;> exact id

theorem runKeeps_pass {post : Regs → Prop} {r : Regs} (h : post r) : RunKeeps post (pass r) := ⟨by simp, h⟩

theorem runKeeps_write {post : Regs → Prop} {f : Regs → Regs} {r : Regs} (h : post (f r)) : RunKeeps post (write f r) :=
  ⟨by simp, h⟩

theorem runKeeps_emit {post : Regs → Prop} {f : Regs → List Byte} {r : Regs} (hm : MidOk r) (h : post r) :
    RunKeeps post (emit f r) := by
  refine ⟨fun o ho => ?_, h⟩
  obtain ⟨b, -, rfl⟩ := List.mem_map.mp ho
  exact hm

theorem runKeeps_check {post : Regs → Prop} {c : Regs → Bool} {e : ErrorClass} {r : Regs}
    (he : e ≠ .invariantViolation) (hm : MidOk r) (h : c r = false → post r) : RunKeeps post (check c e r) := by
  unfold check whenever
  cases hc : c r with
  | true => exact ⟨by simp, hm, he⟩
  | false => exact ⟨by simp, h hc⟩

theorem runKeeps_guard {post : Regs → Prop} {c : Regs → Bool} {f : Fault} {r : Regs} (hc : c r = false) (h : post r) :
    RunKeeps post (guardFault c f r) := by
  unfold guardFault whenever
  rw [hc]
  exact ⟨by simp, h⟩

theorem runKeeps_whenever {post : Regs → Prop} {c : Regs → Bool} {p : Micro} {r : Regs}
    (ht : c r = true → RunKeeps post (p r)) (hf : c r = false → post r) : RunKeeps post (whenever c p r) := by
  unfold whenever
  cases hc : c r with
  | true => exact ht hc
  | false => exact runKeeps_pass (hf hc)

theorem runKeeps_andThen {post : Regs → Prop} {p q : Micro} {r : Regs}
    (h : RunKeeps (fun t => RunKeeps post (q t)) (p r)) : RunKeeps post (andThen p q r) := by
  obtain ⟨h1, h2⟩ := h
  cases hs : (p r).stop with
  | some st =>
    rw [andThen_of_some hs]
    refine ⟨h1, ?_⟩
    rw [hs] at h2 ⊢
    cases st <;> exact h2
  | none =>
    rw [andThen_of_none hs]
    rw [hs] at h2
    obtain ⟨h3, h4⟩ := h2
    refine ⟨fun o ho => ?_, h4⟩
    rcases List.mem_append.mp ho with ho | ho
    · exact h1 o ho
    · exact h3 o ho

theorem runKeeps_cons {post : Regs → Prop} {p : Micro} {ps : List Micro} {r : Regs}
    (h : RunKeeps (fun t => RunKeeps post (program ps t)) (p r)) : RunKeeps post (program (p :: ps) r) :=
  runKeeps_andThen h

theorem runKeeps_nil {post : Regs → Prop} {r : Regs} (h : post r) : RunKeeps post (program [] r) := runKeeps_pass h

theorem runKeeps_repeat {I : Nat → Regs → Prop} {m : Micro} (hm : ∀ n r, I (n + 1) r → RunKeeps (I n) (m r)) :
    ∀ n r, I n r → RunKeeps (I 0) (repeatTimes n m r)
  | 0, _, h => runKeeps_pass h
  | n + 1, r, h => runKeeps_andThen ((hm n r h).mono fun t ht => runKeeps_repeat hm n t ht)

/-! ### The sink -/

/-- Everything `deliver` can answer (20 R63): all accepted, and the step ends; or a first part accepted and the next byte refused or
withheld. -/
theorem offerAll_cases (stop : Option Stop) (r : Regs) :
    ∀ (os : List Offer) (s : State),
      (∃ s', s' = { s with out := s.out ++ os.map Offer.byte, sink := s'.sink } ∧ offerAll os stop r s = finish stop r s') ∨
      (∃ pre o post s', os = pre ++ o :: post ∧ s' = { s with out := s.out ++ pre.map Offer.byte, sink := s'.sink } ∧
        (offerAll os stop r s = .next (refused o s') ∨ offerAll os stop r s = .next (withheld o post stop r s')))
  | [], s => .inl ⟨s, by simp, rfl⟩
  | o :: os, s => by
    unfold offerAll
    cases ha : sinkAnswer s.sink with
    | accept =>
      rcases offerAll_cases stop r os (accepted o.byte s) with ⟨s', hs, h⟩ | ⟨pre, o', post, s', hos, hs, h⟩
      · refine .inl ⟨s', ?_, h⟩
        rw [hs]
        simp [accepted]
      · refine .inr ⟨o :: pre, o', post, s', by simp [hos], ?_, h⟩
        rw [hs]
        simp [accepted]
    | error => exact .inr ⟨[], o, os, s, rfl, by simp, .inl rfl⟩
    | withhold => exact .inr ⟨[], o, os, s, rfl, by simp, .inr rfl⟩

theorem sinkAnswer_of_acceptsAll {k : Sink} (h : AcceptsAll k) : sinkAnswer k = .accept := by
  obtain ⟨h1, h2⟩ := h
  unfold sinkAnswer
  cases hk : k.script with
  | nil => exact h1
  | cons a l => exact h2 a (by simp [hk])

theorem acceptsAll_sinkNext {k : Sink} (h : AcceptsAll k) : AcceptsAll (sinkNext k) :=
  ⟨h.1, fun a ha => h.2 a (List.mem_of_mem_tail ha)⟩

/-- The sink after `n` answers. -/
def sinkDrop (n : Nat) (k : Sink) : Sink := { k with script := k.script.drop n }

theorem sinkDrop_succ (n : Nat) (k : Sink) : sinkDrop (n + 1) k = sinkDrop n (sinkNext k) := by
  simp [sinkDrop, sinkNext, List.drop_tail]

/-- A sink that accepts everything: the step ends, and every byte offered is in OUT, in order. -/
theorem offerAll_acceptsAll (stop : Option Stop) (r : Regs) :
    ∀ (os : List Offer) (s : State), AcceptsAll s.sink →
      offerAll os stop r s =
        finish stop r { s with out := s.out ++ os.map Offer.byte, sink := sinkDrop os.length s.sink }
  | [], s, _ => by simp [offerAll, sinkDrop]
  | o :: os, s, h => by
    unfold offerAll
    rw [sinkAnswer_of_acceptsAll h]
    simp only
    rw [offerAll_acceptsAll stop r os (accepted o.byte s) (acceptsAll_sinkNext h)]
    simp [accepted, sinkDrop_succ]

/-- A run that neither stops nor offers a byte does not ask the sink. -/
theorem deliver_quiet (r : Regs) (s : State) : deliver ⟨[], none, r⟩ s = .next { s with regs := r, held := none } := rfl

/-- A run that offers no byte and raises a fault enters the error phase (60 R200). -/
theorem deliver_raise (e : ErrorClass) (r : Regs) (s : State) :
    deliver ⟨[], some (.raise e), r⟩ s = .next { s with regs := enterError e r, held := none } := rfl

theorem deliver_acceptsAll {run : Run} {s : State} (h : AcceptsAll s.sink) :
    deliver run s =
      finish run.stop run.regs
        { s with out := s.out ++ offeredBytes run, sink := sinkDrop run.offers.length s.sink } :=
  offerAll_acceptsAll run.stop run.regs run.offers s h

/-! ### Commands (42 R160) -/

theorem command_held {legal : Phase → Bool} {m : Micro} {s : State} {run : Run} (h : s.held = some run) :
    command legal m s = .next s := by
  simp [command, h]

theorem command_error {legal : Phase → Bool} {m : Micro} {s : State} (h : s.regs.phase = .error) :
    command legal m s = .next s := by
  unfold command
  cases s.held <;> simp [h]

theorem command_legal {legal : Phase → Bool} {m : Micro} {s : State} (hh : s.held = none) (he : s.regs.phase ≠ .error)
    (hl : legal s.regs.phase = true) : command legal m s = deliver (m s.regs) s := by
  simp [command, hh, he, hl]

theorem command_illegal {legal : Phase → Bool} {m : Micro} {s : State} (hh : s.held = none) (he : s.regs.phase ≠ .error)
    (hl : legal s.regs.phase = false) :
    command legal m s = .next { s with regs := enterError .illegalCommand s.regs, held := none } := by
  simp [command, hh, he, hl, deliver_raise]

/-- Everything a command does: nothing, IllegalCommand, or its own pseudocode against the sink. -/
theorem command_cases (legal : Phase → Bool) (m : Micro) (s : State) :
    command legal m s = .next s ∨
    (s.held = none ∧ s.regs.phase ≠ .error ∧ legal s.regs.phase = false ∧
      command legal m s = .next { s with regs := enterError .illegalCommand s.regs, held := none }) ∨
    (s.held = none ∧ s.regs.phase ≠ .error ∧ legal s.regs.phase = true ∧ command legal m s = deliver (m s.regs) s) := by
  cases hh : s.held with
  | some run => exact .inl (command_held hh)
  | none =>
    by_cases he : s.regs.phase = .error
    · exact .inl (command_error he)
    · cases hl : legal s.regs.phase with
      | false => exact .inr (.inl ⟨rfl, he, rfl, command_illegal hh he hl⟩)
      | true => exact .inr (.inr ⟨rfl, he, rfl, command_legal hh he hl⟩)

end Sys2Proof.Machine
end

