-- ==== Sys2Proof/Laws/Compressor.lean ====
section
/-!
SUPPORT. What each micro-operation of the compressor does from good registers (40 R120): it keeps the packer, the width and the
dictionary in order, changes only its own registers, raises nothing of its own and reaches no model fault.
-/

namespace Sys2Proof.Machine

/-- Only the packer and the sub-block buffer differ. -/
def PackFrame (r q : Regs) : Prop :=
  q = { r with acc := q.acc, bitcnt := q.bitcnt, sbbuf := q.sbbuf, sbcnt := q.sbcnt }

/-- Only the packer, the sub-block buffer and the width differ. -/
def EmitFrame (r q : Regs) : Prop :=
  q = { r with nbits := q.nbits, acc := q.acc, bitcnt := q.bitcnt, sbbuf := q.sbbuf, sbcnt := q.sbcnt }

/-- Only the compressor's registers differ. -/
def LzwFrame (r q : Regs) : Prop :=
  q = { r with
    cur := q.cur, nextcode := q.nextcode, nbits := q.nbits, dict := q.dict
    acc := q.acc, bitcnt := q.bitcnt, sbbuf := q.sbbuf, sbcnt := q.sbcnt }

theorem PackFrame.refl (r : Regs) : PackFrame r r := rfl

theorem PackFrame.trans {r q t : Regs} (h : PackFrame r q) (h' : PackFrame q t) : PackFrame r t := by
  unfold PackFrame at *
  rw [h']
  conv_lhs => rw [h]

theorem PackFrame.emit {r q : Regs} (h : PackFrame r q) : EmitFrame r q := by
  unfold PackFrame at h
  unfold EmitFrame
  rw [h]

theorem EmitFrame.trans {r q t : Regs} (h : EmitFrame r q) (h' : EmitFrame q t) : EmitFrame r t := by
  unfold EmitFrame at *
  rw [h']
  conv_lhs => rw [h]

theorem EmitFrame.lzw {r q : Regs} (h : EmitFrame r q) : LzwFrame r q := by
  unfold EmitFrame at h
  unfold LzwFrame
  rw [h]

theorem LzwFrame.refl (r : Regs) : LzwFrame r r := rfl

theorem LzwFrame.trans {r q t : Regs} (h : LzwFrame r q) (h' : LzwFrame q t) : LzwFrame r t := by
  unfold LzwFrame at *
  rw [h']
  conv_lhs => rw [h]

theorem midOk_sbbuf {r : Regs} (h : MidOk r) {m : List Host.Cell} (hm : Memory.wf 254 m = true) (a : BitVec 19) (b : BitVec 5)
    (n : Byte) : MidOk { r with acc := a, bitcnt := b, sbbuf := m, sbcnt := n } := by
  obtain ⟨⟨h1, h2, -, h4⟩, h5, h6⟩ := h
  exact ⟨⟨h1, h2, hm, h4⟩, h5, h6⟩

/-- `SubFlush` (40 R113) leaves the registers as they were, SBCNT apart. -/
theorem subFlush_keeps {r : Regs} (hm : MidOk r) (hs : r.sbcnt.toNat ≤ 254) :
    RunKeeps (fun q => q = { r with sbcnt := 0#8 }) (subFlush r) := by
  unfold subFlush
  refine runKeeps_whenever (fun hc => ?_) (fun hc => ?_)
  · refine runKeeps_cons (runKeeps_guard (by simpa using hs) ?_)
    exact runKeeps_cons (runKeeps_emit hm (runKeeps_cons (runKeeps_write (runKeeps_nil rfl))))
  · have h0 : r.sbcnt = 0#8 := by
      apply BitVec.eq_of_toNat_eq
      simpa using hc
    rw [← h0]

/-- `SubPut` (40 R112) keeps the buffer below its 254th byte, and the accumulator as it was. -/
theorem subPut_keeps {r : Regs} (v : Byte) (hm : MidOk r) (hs : r.sbcnt.toNat ≤ 253) :
    RunKeeps (fun q => MidOk q ∧ q.sbcnt.toNat ≤ 253 ∧ PackFrame r q ∧ q.acc = r.acc ∧ q.bitcnt = r.bitcnt)
      (subPut v r) := by
  unfold subPut
  refine runKeeps_cons (runKeeps_guard (by simp; omega) ?_)
  refine runKeeps_cons (runKeeps_write (runKeeps_cons (runKeeps_write (runKeeps_cons ?_))))
  have hput : Memory.wf 254 (Memory.put r.sbcnt.toNat v r.sbbuf) = true := wf_put hm.1.2.2.1 v (by omega) (Nat.le_refl _)
  have hmid := fun n : Byte => midOk_sbbuf hm hput r.acc r.bitcnt n
  have hn : (r.sbcnt.toNat + 1) % 256 = r.sbcnt.toNat + 1 := Nat.mod_eq_of_lt (by omega)
  refine runKeeps_whenever (fun hc => ?_) (fun hc => ?_)
  · refine (subFlush_keeps (hmid _) (by simp [hn]; omega)).mono fun q hq => runKeeps_nil ?_
    subst hq
    exact ⟨hmid _, by simp, rfl, rfl, rfl⟩
  · refine runKeeps_nil ⟨hmid _, ?_, rfl, rfl, rfl⟩
    simp [hn] at hc ⊢
    omega

/-- The packer's registers in mid-`PackCode`: `n` whole bytes still to move out (40 R111). -/
def packerMid (r : Regs) (k n : Nat) (q : Regs) : Prop :=
  MidOk q ∧ q.sbcnt.toNat ≤ 253 ∧ PackFrame r q ∧ q.bitcnt.toNat = 8 * n + k ∧ q.acc.toNat < 2 ^ q.bitcnt.toNat

theorem shiftOutByte_keeps {r q : Regs} {k n : Nat} (h : packerMid r k (n + 1) q) :
    RunKeeps (packerMid r k n) (shiftOutByte q) := by
  obtain ⟨hm, hs, hf, hb, ha⟩ := h
  have hb32 := q.bitcnt.isLt
  unfold shiftOutByte
  refine runKeeps_cons ((subPut_keeps _ hm hs).mono fun t ht => ?_)
  obtain ⟨tm, ts, tf, ta, tb⟩ := ht
  refine runKeeps_cons (runKeeps_write (runKeeps_cons (runKeeps_write (runKeeps_nil ?_))))
  have hbt : (BitVec.ofNat 5 (t.bitcnt.toNat - 8)).toNat = 8 * n + k := by
    rw [BitVec.toNat_ofNat, tb, hb]
    omega
  refine ⟨midOk_sbbuf tm tm.1.2.2.1 _ _ _, ts, hf.trans (tf.trans ?_), hbt, ?_⟩
  · rfl
  · simp only [hbt]
    rw [BitVec.toNat_ushiftRight, Nat.shiftRight_eq_div_pow, ta]
    rw [hb] at ha
    exact Nat.div_lt_of_lt_mul (by rwa [← Nat.pow_add, show 8 + (8 * n + k) = 8 * (n + 1) + k by omega])

/-- The new code goes above the bits already held and fits ACC (40 R111, R122). -/
theorem addCode_acc_lt {r : Regs} {code : Nat} (ha : r.acc.toNat < 2 ^ r.bitcnt.toNat)
    (hc : code < 2 ^ r.nbits.toNat) (hn : r.nbits.toNat ≤ 12) :
    (addCode code r).acc.toNat < 2 ^ (r.bitcnt.toNat + r.nbits.toNat) := by
  simp only [addCode_acc, BitVec.toNat_or, BitVec.toNat_shiftLeft, BitVec.toNat_ofNat]
  apply Nat.or_lt_two_pow
  · exact Nat.lt_of_lt_of_le ha (Nat.pow_le_pow_right (by omega) (by omega))
  · refine Nat.lt_of_le_of_lt (Nat.mod_le _ _) ?_
    rw [Nat.shiftLeft_eq, Nat.pow_add, Nat.mul_comm]
    exact Nat.mul_lt_mul_of_pos_left (Nat.lt_of_le_of_lt (Nat.mod_le _ _) hc) (Nat.two_pow_pos _)

/-- `PackCode` (40 R111) of a code that fits: the packer stays in order and nothing but the packer and the buffer changes. -/
theorem packCode_keeps {r : Regs} {code : Nat} (hm : MidOk r) (hp : PackerOk r) (hc : code < 2 ^ r.nbits.toNat)
    (hn : r.nbits.toNat ≤ 12) : RunKeeps (fun q => MidOk q ∧ PackerOk q ∧ PackFrame r q) (packCode code r) := by
  obtain ⟨hb, ha, hs⟩ := hp
  unfold packCode
  refine runKeeps_cons ⟨?_, ?_⟩
  · simp [check, whenever, show ¬ 2 ^ r.nbits.toNat ≤ code by omega]
  have hck : check (fun r => decide (2 ^ r.nbits.toNat ≤ code)) .invariantViolation r = ⟨[], none, r⟩ := by
    simp [check, whenever, show ¬ 2 ^ r.nbits.toNat ≤ code by omega]
  rw [hck]
  refine runKeeps_cons (runKeeps_guard (by simp; omega) (runKeeps_cons (runKeeps_write (runKeeps_cons ?_))))
  have hbit : (addCode code r).bitcnt.toNat = r.bitcnt.toNat + r.nbits.toNat := by
    rw [addCode_bitcnt, BitVec.toNat_ofNat]
    exact Nat.mod_eq_of_lt (by omega)
  have h0 : packerMid r ((r.bitcnt.toNat + r.nbits.toNat) % 8) ((addCode code r).bitcnt.toNat / 8) (addCode code r) := by
    refine ⟨midOk_sbbuf hm hm.1.2.2.1 _ _ _, hs, rfl, by omega, ?_⟩
    rw [hbit]
    exact addCode_acc_lt ha hc hn
  refine (runKeeps_repeat (I := packerMid r ((r.bitcnt.toNat + r.nbits.toNat) % 8))
    (fun n q hq => shiftOutByte_keeps hq) _ _ h0).mono fun q hq => runKeeps_nil ?_
  obtain ⟨qm, qs, qf, qb, qa⟩ := hq
  exact ⟨qm, ⟨by omega, qa, qs⟩, qf⟩

/-- What `EmitCode` leaves: the width of the next code (40 R114). -/
def widened (r : Regs) : Nat := if mustWiden r then r.nbits.toNat + 1 else r.nbits.toNat

/-- `EmitCode` (40 R114) of a code that fits: the packer stays in order, NBITS follows the width rule. -/
theorem emitCode_keeps {r : Regs} {code : Nat} (hm : MidOk r) (hp : PackerOk r) (hc : code < 2 ^ r.nbits.toNat)
    (hn : r.nbits.toNat ≤ 12) :
    RunKeeps (fun q => MidOk q ∧ PackerOk q ∧ EmitFrame r q ∧ q.nbits.toNat = widened r) (emitCode code r) := by
  unfold emitCode
  refine runKeeps_cons ((packCode_keeps hm hp hc hn).mono fun q hq => runKeeps_cons ?_)
  obtain ⟨qm, qp, qf⟩ := hq
  have hnb : q.nbits = r.nbits := by rw [qf]
  have hnx : q.nextcode = r.nextcode := by rw [qf]
  have hw : mustWiden q = mustWiden r := by unfold mustWiden; rw [hnb, hnx]
  refine runKeeps_whenever (fun h => ?_) (fun h => ?_)
  · refine runKeeps_write (runKeeps_nil ⟨qm, qp, qf.emit.trans rfl, ?_⟩)
    have : r.nbits.toNat < 12 := by
      rw [hw] at h
      simp [mustWiden] at h
      exact h.2
    rw [BitVec.toNat_ofNat, hnb, widened, ← hw, if_pos h]
    exact Nat.mod_eq_of_lt (by omega)
  · refine runKeeps_nil ⟨qm, qp, qf.emit, ?_⟩
    rw [hnb, widened, ← hw, if_neg (by simp [h])]

/-! ### Derived quantities -/

theorem cbits_range {n : Nat} (h0 : n ≠ 0) (h : n ≤ 256) : 1 ≤ cbits n ∧ cbits n ≤ 8 ∧ n ≤ 2 ^ cbits n := by
  unfold cbits
  repeat' split
  all_goals omega

theorem ics_range {r : Regs} (h0 : r.paln.toNat ≠ 0) (h : r.paln.toNat ≤ 256) :
    2 ≤ ics r ∧ ics r ≤ 8 ∧ r.paln.toNat ≤ clearCode r := by
  obtain ⟨h1, h2, h3⟩ := cbits_range h0 h
  unfold clearCode ics colorBits
  refine ⟨by omega, by omega, h3.trans (Nat.pow_le_pow_right (by omega) (by omega))⟩

theorem clearCode_le {r : Regs} (h : ics r ≤ 8) : clearCode r ≤ 256 := by
  unfold clearCode
  exact (Nat.pow_le_pow_right (by omega) h).trans (by norm_num)

theorem clearCode_ge {r : Regs} (h : 2 ≤ ics r) : 4 ≤ clearCode r := by
  unfold clearCode
  exact (show 4 = 2 ^ 2 by norm_num) ▸ Nat.pow_le_pow_right (by omega) h

theorem two_pow_succ_ics (r : Regs) : 2 ^ (ics r + 1) = 2 * clearCode r := by
  rw [Nat.pow_succ, Nat.mul_comm]
  rfl

/-- The derived quantities depend on PALN alone. -/
theorem ics_congr {r q : Regs} (h : q.paln = r.paln) : ics q = ics r := by unfold ics colorBits; rw [h]
theorem clearCode_congr {r q : Regs} (h : q.paln = r.paln) : clearCode q = clearCode r := by
  unfold clearCode; rw [ics_congr h]
theorem firstFree_congr {r q : Regs} (h : q.paln = r.paln) : firstFree q = firstFree r := by
  unfold firstFree; rw [clearCode_congr h]
theorem eofCode_congr {r q : Regs} (h : q.paln = r.paln) : eofCode q = eofCode r := by
  unfold eofCode; rw [clearCode_congr h]

/-! ### The state machine -/

/-- The palette is loaded and in range, as in every phase after BEGIN. -/
def PaletteLoaded (r : Regs) : Prop := r.paln.toNat ≠ 0 ∧ r.paln.toNat ≤ 256

/-- The registers a clear leaves satisfy the width and dictionary rules (40 R116). -/
theorem cleared_ok {r q : Regs} (hl : PaletteLoaded r) (hp : q.paln = r.paln) (hn : q.nbits = BitVec.ofNat 4 (ics r + 1))
    (hd : q.dict = []) (hx : q.nextcode = BitVec.ofNat 13 (firstFree r)) :
    WidthOk q ∧ CodesOk q ∧ q.nextcode.toNat = firstFree r ∧ q.nbits.toNat = ics r + 1 := by
  obtain ⟨i2, i8, -⟩ := ics_range hl.1 hl.2
  have c1 := clearCode_le i8
  have c2 := clearCode_ge i2
  have hff : firstFree r = clearCode r + 2 := rfl
  have hx' : q.nextcode.toNat = firstFree r := by
    rw [hx, BitVec.toNat_ofNat]
    exact Nat.mod_eq_of_lt (by omega)
  have hn' : q.nbits.toNat = ics r + 1 := by
    rw [hn, BitVec.toNat_ofNat]
    exact Nat.mod_eq_of_lt (by omega)
  refine ⟨⟨?_, by omega, ?_, .inl ?_⟩, ⟨?_, by omega, ?_⟩, hx', hn'⟩
  · rw [ics_congr hp]; omega
  · rw [hn', two_pow_succ_ics, hx']; omega
  · rw [ics_congr hp]; omega
  · rw [firstFree_congr hp]; omega
  · rw [firstFree_congr hp, hx', hd]; simp

/-- `EmitClear` (40 R116). -/
theorem emitClear_keeps {r : Regs} (hm : MidOk r) (hl : PaletteLoaded r) (hp : PackerOk r) (hi : ics r + 1 ≤ r.nbits.toNat)
    (hn : r.nbits.toNat ≤ 12) :
    RunKeeps (fun q => MidOk q ∧ PackerOk q ∧ LzwFrame r q ∧ q.cur = r.cur ∧ WidthOk q ∧ CodesOk q ∧
      q.nextcode.toNat = firstFree r ∧ q.dict = [] ∧ q.nbits.toNat = ics r + 1) (emitClear r) := by
  have hcl : clearCode r < 2 ^ r.nbits.toNat := by
    refine Nat.lt_of_lt_of_le ?_ (Nat.pow_le_pow_right (by omega) hi)
    rw [two_pow_succ_ics]
    have : 0 < clearCode r := Nat.two_pow_pos _
    omega
  unfold emitClear
  refine runKeeps_cons ((packCode_keeps hm hp hcl hn).mono fun q hq => ?_)
  obtain ⟨qm, qp, qf⟩ := hq
  have qpal : q.paln = r.paln := by rw [qf]
  have hq := cleared_ok (r := q) (q := clearDictionary q) ⟨qpal ▸ hl.1, qpal ▸ hl.2⟩ rfl rfl rfl rfl
  rw [firstFree_congr qpal, ics_congr qpal] at hq
  obtain ⟨h1, h2, h3, h4⟩ := hq
  refine runKeeps_cons (runKeeps_write (runKeeps_nil ⟨?_, qp, qf.emit.lzw.trans rfl, ?_, h1, h2, h3, rfl, h4⟩))
  · obtain ⟨⟨a1, a2, a3, -⟩, a5, a6⟩ := qm
    exact ⟨⟨a1, a2, a3, rfl⟩, a5, a6⟩
  · rw [clearDictionary_cur, qf]

/-- `LzwInit` (40 R119): the registers of a fresh frame. -/
theorem lzwInit_keeps {r : Regs} (hm : MidOk r) (hl : PaletteLoaded r) :
    RunKeeps (fun q => MidOk q ∧ LzwOk q ∧ LzwFrame r q ∧ q.cur = 0#12) (lzwInit r) := by
  obtain ⟨i2, i8, -⟩ := ics_range hl.1 hl.2
  have c2 := clearCode_ge i2
  have hm' : MidOk (initCompressor r) := by
    obtain ⟨⟨a1, a2, a3, -⟩, a5, a6⟩ := hm
    exact ⟨⟨a1, a2, a3, rfl⟩, a5, a6⟩
  have hn : (initCompressor r).nbits.toNat = ics r + 1 := by
    rw [initCompressor_nbits, BitVec.toNat_ofNat]
    exact Nat.mod_eq_of_lt (by omega)
  have hi : ics (initCompressor r) = ics r := ics_congr rfl
  unfold lzwInit
  refine runKeeps_cons (runKeeps_write (runKeeps_cons ?_))
  refine (emitClear_keeps hm' hl ⟨by simp, by simp, by simp⟩ (by omega) (by omega)).mono fun q hq => runKeeps_nil ?_
  obtain ⟨qm, qp, qf, qc, qw, qd, qx, -, -⟩ := hq
  have hx : q.nextcode.toNat = clearCode r + 2 := qx.trans (firstFree_congr rfl)
  have hpal : q.paln = r.paln := by rw [qf]; rfl
  have hc0 : q.cur = 0#12 := by rw [qc]; rfl
  refine ⟨qm, ⟨qw, qd, ⟨?_, ?_, ?_⟩, qp⟩, ?_, hc0⟩
  · rw [hc0, hx]; simp
  · rw [hc0, clearCode_congr hpal]; simp; omega
  · rw [hc0, eofCode_congr hpal]; simp [eofCode]
  · exact LzwFrame.trans (r := r) (q := initCompressor r) (t := q) (by rfl) qf

theorem pixelCode_toNat (c : Byte) : (pixelCode c).toNat = c.toNat := by
  have := c.isLt
  simp [pixelCode]
  omega

/-- A pixel index below PALN is a code below CLEARC, so it can be CUR (40 R120 (d)). -/
theorem curOk_pixel {q : Regs} {c : Byte} (hl : PaletteLoaded q) (hc : c.toNat < q.paln.toNat) (hx : firstFree q ≤ q.nextcode.toNat)
    (hq : q.cur = pixelCode c) : CurOk q := by
  obtain ⟨-, -, hp⟩ := ics_range hl.1 hl.2
  have hff : firstFree q = clearCode q + 2 := rfl
  have hco : q.cur.toNat = c.toNat := by rw [hq, pixelCode_toNat]
  unfold CurOk eofCode
  omega

/-- The width after `EmitCode` leaves room for the insertion that follows (40 R120 (h)). -/
theorem widened_ok {r : Regs} (hw : WidthOk r) (hx : r.nextcode.toNat ≤ 4096) :
    r.nbits.toNat ≤ widened r ∧ widened r ≤ 12 ∧ (r.nextcode.toNat < 4096 → r.nextcode.toNat + 1 ≤ 2 ^ widened r) ∧
    (widened r = ics r + 1 ∨ 2 ^ (widened r - 1) ≤ r.nextcode.toNat) := by
  obtain ⟨w1, w2, w3, w4⟩ := hw
  have hpos : 0 < 2 ^ r.nbits.toNat := Nat.two_pow_pos _
  unfold widened
  split
  · rename_i h
    simp only [mustWiden, Bool.and_eq_true, decide_eq_true_eq, Config.maxBits] at h
    have hs : 2 ^ (r.nbits.toNat + 1) = 2 * 2 ^ r.nbits.toNat := by rw [Nat.pow_succ, Nat.mul_comm]
    refine ⟨by omega, by omega, fun _ => by omega, .inr ?_⟩
    rw [Nat.add_sub_cancel]
    omega
  · rename_i h
    simp only [mustWiden, Bool.and_eq_true, decide_eq_true_eq, Config.maxBits, not_and] at h
    refine ⟨by omega, w2, fun hlt => ?_, w4.imp id (fun h => by omega)⟩
    by_cases h12 : r.nbits.toNat = 12
    · rw [h12]; omega
    · omega

/-- The insertion of a pair (40 R117) keeps the dictionary's codes and the width. -/
theorem insertPair_ok {r q : Regs} {c : Byte} (hr : WidthOk r) (hd : CodesOk r) (hf : EmitFrame r q) (hn : q.nbits.toNat = widened r)
    (hx : r.nextcode.toNat < 4096) (hnew : dictLookup r r.cur c = none) :
    WidthOk (insertPair c q) ∧ CodesOk (insertPair c q) := by
  obtain ⟨d1, d2, d3⟩ := hd
  obtain ⟨w1, w2, w3, w4⟩ := widened_ok hr d2
  have hpal : q.paln = r.paln := by rw [hf]
  have hnx : q.nextcode = r.nextcode := by rw [hf]
  have hdict : q.dict = r.dict := by rw [hf]
  have hcur : q.cur = r.cur := by rw [hf]
  have hxx : (insertPair c q).nextcode.toNat = r.nextcode.toNat + 1 := by
    rw [insertPair_nextcode, BitVec.toNat_ofNat, hnx]
    exact Nat.mod_eq_of_lt (by omega)
  have hii : ics (insertPair c q) = ics r := ics_congr hpal
  have hffq : firstFree (insertPair c q) = firstFree r := firstFree_congr hpal
  refine ⟨⟨?_, ?_, ?_, ?_⟩, ?_, ?_, ?_⟩
  · rw [hii, insertPair_nbits, hn]; exact hr.1.trans w1
  · rw [insertPair_nbits, hn]; exact w2
  · rw [insertPair_nbits, hn, hxx]; exact w3 hx
  · rw [hii, insertPair_nbits, hn, hxx]; exact w4.imp id (fun h => by omega)
  · rw [hffq, hxx]; omega
  · rw [hxx]; omega
  · rw [hffq, hxx, insertPair_dict, hcur, hnx, hdict]
    have hp := map_insert_perm (a := BitVec.ofNat 12 r.nextcode.toNat) (fun v : BitVec 12 => v.toNat)
      (i := dictKey r.cur c) (m := r.dict) hnew
    refine hp.trans ?_
    have hv : (BitVec.ofNat 12 r.nextcode.toNat).toNat = r.nextcode.toNat := by
      rw [BitVec.toNat_ofNat]; exact Nat.mod_eq_of_lt (by omega)
    rw [hv, show r.nextcode.toNat + 1 - firstFree r = (r.nextcode.toNat - firstFree r) + 1 by omega,
      List.range'_1_concat, show firstFree r + (r.nextcode.toNat - firstFree r) = r.nextcode.toNat by omega]
    exact (d3.cons _).trans (List.perm_append_singleton _ _).symm

/-- The miss branch of `LzwPixel` (40 R117). -/
theorem lzwMiss_keeps {r : Regs} {c : Byte} (hm : MidOk r) (hl : PaletteLoaded r) (h : LzwOk r) (hc : c.toNat < r.paln.toNat)
    (hnew : dictLookup r r.cur c = none) :
    RunKeeps (fun q => MidOk q ∧ LzwOk q ∧ LzwFrame r q ∧ q.cur = pixelCode c) (lzwMiss c r) := by
  obtain ⟨hw, hd, hcur, hp⟩ := h
  have hcode : r.cur.toNat < 2 ^ r.nbits.toNat := Nat.lt_of_lt_of_le hcur.1 hw.2.2.1
  unfold lzwMiss
  refine runKeeps_cons ((emitCode_keeps hm hp hcode hw.2.1).mono fun q hq => ?_)
  obtain ⟨qm, qp, qf, qn⟩ := hq
  have qpal : q.paln = r.paln := by rw [qf]
  have qnx : q.nextcode = r.nextcode := by rw [qf]
  have ql : PaletteLoaded q := ⟨qpal ▸ hl.1, qpal ▸ hl.2⟩
  obtain ⟨w1, w2, -, -⟩ := widened_ok hw hd.2.1
  refine runKeeps_cons ?_
  have key : RunKeeps (fun t => MidOk t ∧ PackerOk t ∧ LzwFrame r t ∧ WidthOk t ∧ CodesOk t)
      (ifElse (fun r => decide (r.nextcode.toNat < Config.maxCodes)) (write (insertPair c)) emitClear q) := by
    unfold ifElse
    split
    · rename_i hx
      have hx' : r.nextcode.toNat < 4096 := by simpa [qnx] using hx
      obtain ⟨k1, k2⟩ := insertPair_ok (c := c) hw hd qf qn hx' hnew
      refine runKeeps_write ⟨?_, qp, qf.lzw.trans rfl, k1, k2⟩
      obtain ⟨⟨a1, a2, a3, a4⟩, a5, a6⟩ := qm
      exact ⟨⟨a1, a2, a3, wfMap_insert a4 _ (dictKey_lt _ _)⟩, a5, a6⟩
    · refine (emitClear_keeps qm ql qp ?_ (by omega)).mono fun t ht => ?_
      · rw [ics_congr qpal, qn]; exact hw.1.trans w1
      · obtain ⟨t1, t2, t3, -, t5, t6, -⟩ := ht
        exact ⟨t1, t2, qf.lzw.trans t3, t5, t6⟩
  refine key.mono fun t ht => ?_
  obtain ⟨t1, t2, t3, t4, t5⟩ := ht
  have tpal : t.paln = r.paln := by rw [t3]
  refine runKeeps_cons (runKeeps_write (runKeeps_nil ⟨t1, ⟨t4, t5, ?_, t2⟩, t3.trans rfl, rfl⟩))
  exact curOk_pixel (c := c) ⟨tpal ▸ hl.1, tpal ▸ hl.2⟩ (show c.toNat < t.paln.toNat by rw [tpal]; exact hc) t5.1 rfl

/-- A code found in the dictionary can be CUR (40 R120 (d), (g)). -/
theorem curOk_hit {r : Regs} {code : BitVec 12} {c : Byte} (hd : CodesOk r) (hfound : dictLookup r r.cur c = some code) :
    CurOk { r with cur := code } := by
  obtain ⟨d1, d2, d3⟩ := hd
  have hmem : code.toNat ∈ r.dict.map (fun e => e.2.toNat) := List.mem_map.mpr ⟨_, find_mem hfound, rfl⟩
  rw [d3.mem_iff, List.mem_range'_1] at hmem
  have hff : firstFree r = clearCode r + 2 := rfl
  have h1 : clearCode { r with cur := code } = clearCode r := clearCode_congr rfl
  have h2 : eofCode { r with cur := code } = clearCode r + 1 := eofCode_congr rfl
  unfold CurOk
  rw [h1, h2]
  exact ⟨show code.toNat < r.nextcode.toNat by omega, show code.toNat ≠ clearCode r by omega,
    show code.toNat ≠ clearCode r + 1 by omega⟩

/-- `LzwPixel` (40 R117) keeps the invariants of R120 and changes only the compressor's registers. -/
theorem lzwPixel_keeps {r : Regs} {c : Byte} (hm : MidOk r) (hl : PaletteLoaded r) (h : LzwOk r) (hc : c.toNat < r.paln.toNat) :
    RunKeeps (fun q => MidOk q ∧ LzwOk q ∧ LzwFrame r q) (lzwPixel c r) := by
  unfold lzwPixel
  split
  · refine runKeeps_write ⟨hm, ⟨h.1, h.2.1, ?_, h.2.2.2⟩, rfl⟩
    exact curOk_pixel (c := c) (q := { r with cur := pixelCode c }) hl hc h.2.1.1 rfl
  · split
    · rename_i code hfound
      exact runKeeps_write ⟨hm, ⟨h.1, h.2.1, curOk_hit h.2.1 hfound, h.2.2.2⟩, rfl⟩
    · rename_i hnew
      exact (lzwMiss_keeps hm hl h hc hnew).mono fun q hq => ⟨hq.1, hq.2.1, hq.2.2.1⟩

/-- `LzwFinish` (40 R118): BITCNT = 0 and SBCNT = 0 afterwards. -/
theorem lzwFinish_keeps {r : Regs} (hm : MidOk r) (hl : PaletteLoaded r) (h : LzwOk r) :
    RunKeeps (fun q => MidOk q ∧ LzwFrame r q ∧ q.bitcnt.toNat = 0 ∧ q.sbcnt.toNat = 0) (lzwFinish r) := by
  obtain ⟨hw, hd, hcur, hp⟩ := h
  have hcode : r.cur.toNat < 2 ^ r.nbits.toNat := Nat.lt_of_lt_of_le hcur.1 hw.2.2.1
  obtain ⟨w1, w2, -, -⟩ := widened_ok hw hd.2.1
  unfold lzwFinish
  refine runKeeps_cons ((emitCode_keeps hm hp hcode hw.2.1).mono fun q hq => ?_)
  obtain ⟨qm, qp, qf, qn⟩ := hq
  have qpal : q.paln = r.paln := by rw [qf]
  have heof : eofCode q < 2 ^ q.nbits.toNat := by
    have hpos : 4 ≤ clearCode r := clearCode_ge (ics_range hl.1 hl.2).1
    have : 2 ^ (ics r + 1) ≤ 2 ^ q.nbits.toNat := Nat.pow_le_pow_right (by omega) (by rw [qn]; exact hw.1.trans w1)
    rw [two_pow_succ_ics] at this
    rw [eofCode_congr qpal, eofCode]
    omega
  refine runKeeps_cons ((emitCode_keeps qm qp heof (by omega)).mono fun t ht => ?_)
  obtain ⟨tm, tp, tf, -⟩ := ht
  refine runKeeps_cons ?_
  have key : RunKeeps (fun u => MidOk u ∧ LzwFrame r u ∧ u.bitcnt.toNat = 0 ∧ u.sbcnt.toNat ≤ 253)
      (whenever (fun r => decide (0 < r.bitcnt.toNat)) (program [
        fun r => subPut (r.acc.setWidth 8) r,
        write (fun r => { r with acc := 0, bitcnt := 0 })]) t) := by
    refine runKeeps_whenever (fun _ => ?_) (fun hz => ?_)
    · refine runKeeps_cons ((subPut_keeps _ tm tp.2.2).mono fun u hu => ?_)
      obtain ⟨um, us, uf, -, -⟩ := hu
      refine runKeeps_cons (runKeeps_write (runKeeps_nil ⟨midOk_sbbuf um um.1.2.2.1 _ _ _, ?_, by simp, us⟩))
      exact qf.lzw.trans (tf.lzw.trans (uf.emit.lzw.trans rfl))
    · refine ⟨tm, qf.lzw.trans tf.lzw, by simpa using hz, tp.2.2⟩
  refine key.mono fun u hu => ?_
  obtain ⟨um, uf, ub, us⟩ := hu
  refine runKeeps_cons ((subFlush_keeps um (by omega)).mono fun v hv => runKeeps_nil ?_)
  subst hv
  exact ⟨midOk_sbbuf um um.1.2.2.1 _ _ _, uf.trans rfl, ub, by simp⟩

end Sys2Proof.Machine
end

