-- ==== Sys2Proof/Laws/Packer.lean ====
section
/-!
SUPPORT. What the packer and the sub-block emitter do, exactly: the bytes that enter the buffer (spec 40 R111, R112), the sub-block that
leaves it when it fills, and the entries of SBBUF that are written.
-/

namespace Sys2Proof.Machine

/-- `SubPut` short of the 254th byte: one entry of SBBUF and SBCNT (40 R112). -/
theorem subPut_stores {r : Regs} (v : Byte) (hs : r.sbcnt.toNat + 1 < 254) :
    subPut v r =
      ⟨[], none, { r with sbbuf := Memory.put r.sbcnt.toNat v r.sbbuf, sbcnt := BitVec.ofNat 8 (r.sbcnt.toNat + 1) }⟩ := by
  have hn : (r.sbcnt.toNat + 1) % 256 = r.sbcnt.toNat + 1 := Nat.mod_eq_of_lt (by omega)
  unfold subPut
  rw [program_guard_pass (by simp; omega), program_write, program_write,
    program_whenever_false (by simp [hn]; omega), program_nil]

/-- `SubPut` of the 254th byte: the sub-block leaves, length byte `FE` first, and SBCNT is 0 (40 R112, R113). -/
theorem subPut_flushes {r : Regs} (v : Byte) (hs : r.sbcnt.toNat = 253) :
    subPut v r =
      ⟨((0xFE#8 : Byte) :: (List.range 254).map (Memory.get (Memory.put 253 v r.sbbuf))).map
          (Offer.mk { r with sbbuf := Memory.put 253 v r.sbbuf, sbcnt := 254#8 }),
        none, { r with sbbuf := Memory.put 253 v r.sbbuf, sbcnt := 0#8 }⟩ := by
  unfold subPut
  rw [program_guard_pass (by simp [hs]), program_write, program_write, program_whenever_true (by simp [hs])]
  simp only [program_cons, andThen, program_nil, subFlush, whenever, guardFault, write_eq, emit_eq, stuck, pass_eq]
  simp [hs, subBlockBytes]

/-- The offers of `SubPut`: the byte is stored and SBCNT is 254, every other register is as it was (40 R112, 60 R206). -/
theorem subPut_offers {r : Regs} (v : Byte) (hs : r.sbcnt.toNat ≤ 253) :
    ∀ o ∈ (subPut v r).offers, r.sbcnt.toNat = 253 ∧ o.regs = { r with sbbuf := o.regs.sbbuf, sbcnt := 254#8 } := by
  intro o ho
  by_cases h : r.sbcnt.toNat = 253
  · rw [subPut_flushes v h] at ho
    obtain ⟨b, -, rfl⟩ := List.mem_map.mp ho
    exact ⟨h, rfl⟩
  · rw [subPut_stores v (by omega)] at ho
    simp at ho

/-- A byte put at the end of the buffer is the next valid byte (10 R47). -/
theorem subBlockBytes_put {r : Regs} (v : Byte) (hm : Memory.wf 254 r.sbbuf = true) (hs : r.sbcnt.toNat + 1 < 254) :
    subBlockBytes { r with sbbuf := Memory.put r.sbcnt.toNat v r.sbbuf, sbcnt := BitVec.ofNat 8 (r.sbcnt.toNat + 1) } =
      subBlockBytes r ++ [v] := by
  have hn : (r.sbcnt.toNat + 1) % 256 = r.sbcnt.toNat + 1 := Nat.mod_eq_of_lt (by omega)
  unfold subBlockBytes
  simp only [BitVec.toNat_ofNat, Nat.reducePow, hn, List.range_succ, List.map_append, List.map_cons, List.map_nil]
  congr 1
  · refine List.map_congr_left fun i hi => ?_
    rw [get_put hm, if_neg (by have := List.mem_range.mp hi; omega)]
  · rw [get_put hm, if_pos rfl]

/-! ### The packer -/

theorem program_single (p : Micro) (r : Regs) : program [p] r = p r := by
  rw [program_cons]
  cases h : (p r).stop with
  | some st => exact andThen_of_some h
  | none => rw [andThen_of_none h]; simp [h.symm]

theorem RunKeeps.regs {post : Regs → Prop} {run : Run} (h : RunKeeps post run) (hs : run.stop = Option.none) : post run.regs := by
  have := h.2
  rwa [hs] at this

/-- `PackCode` of a code that fits is its loop, from the registers with the code added (40 R111). -/
theorem packCode_eq {r : Regs} {code : Nat} (hb : r.bitcnt.toNat ≤ 7) (hc : code < 2 ^ r.nbits.toNat) (hn : r.nbits.toNat ≤ 12) :
    packCode code r = repeatTimes ((r.bitcnt.toNat + r.nbits.toNat) / 8) shiftOutByte (addCode code r) := by
  have hbit : (addCode code r).bitcnt.toNat = r.bitcnt.toNat + r.nbits.toNat := by
    rw [addCode_bitcnt, BitVec.toNat_ofNat]
    exact Nat.mod_eq_of_lt (by omega)
  unfold packCode
  rw [program_check_pass (by simp; omega), program_guard_pass (by simp; omega), program_write, program_single, hbit]

/-! ### Which bytes leave and which wait -/

/-- A run that moves the bytes `new` into the sub-block buffer: what leaves and what waits is what `fillSubBlock` says (40 R112), and only
the entries of SBBUF that were filled are written. -/
structure Fills (new : List Byte) (r : Regs) (run : Run) : Prop where
  stop : run.stop = none
  filled : (offeredBytes run, subBlockBytes run.regs) = fillSubBlock (subBlockBytes r ++ new)
  stored : ∀ i, (∀ j, j < new.length → i ≠ (r.sbcnt.toNat + j) % 254) → Memory.get run.regs.sbbuf i = Memory.get r.sbbuf i
  wf : Memory.wf 254 run.regs.sbbuf = true
  room : run.regs.sbcnt.toNat ≤ 253

theorem subBlockBytes_length (r : Regs) : (subBlockBytes r).length = r.sbcnt.toNat := by simp [subBlockBytes]

theorem subBlockBytes_congr {r q : Regs} (hb : q.sbbuf = r.sbbuf) (hc : q.sbcnt = r.sbcnt) : subBlockBytes q = subBlockBytes r := by
  simp [subBlockBytes, hb, hc]

theorem Fills.none {r q : Regs} (hb : q.sbbuf = r.sbbuf) (hc : q.sbcnt = r.sbcnt) (hm : Memory.wf 254 r.sbbuf = true)
    (hs : r.sbcnt.toNat ≤ 253) : Fills [] r ⟨[], none, q⟩ where
  stop := rfl
  filled := by
    have : (subBlockBytes r).length < 254 := by rw [subBlockBytes_length]; omega
    simp [fillSubBlock, this, offeredBytes, subBlockBytes_congr hb hc]
  stored := fun i _ => by rw [hb]
  wf := by simpa [hb] using hm
  room := by simpa [hc] using hs

theorem map_byte_mk (q : Regs) (bs : List Byte) : (bs.map (Offer.mk q)).map Offer.byte = bs := by
  rw [List.map_map]
  exact List.map_id bs

theorem Fills.subPut {r : Regs} (v : Byte) (hm : Memory.wf 254 r.sbbuf = true) (hs : r.sbcnt.toNat ≤ 253) :
    Fills [v] r (subPut v r) := by
  have hl := subBlockBytes_length r
  by_cases h : r.sbcnt.toNat = 253
  · rw [subPut_flushes v h]
    refine ⟨rfl, ?_, fun i hi => ?_, wf_put hm _ (by omega) (Nat.le_refl _), by simp⟩
    rotate_left
    · have := hi 0 (by simp)
      rw [get_put hm, if_neg (by omega)]
    have hlen : (subBlockBytes r ++ [v]).length = 254 := by simp [hl, h]
    have hdata : (List.range 254).map (Memory.get (Memory.put 253 v r.sbbuf)) = subBlockBytes r ++ [v] := by
      rw [List.range_succ, List.map_append, subBlockBytes, h]
      congr 1
      · refine List.map_congr_left fun i hi => ?_
        rw [get_put hm, if_neg (by have := List.mem_range.mp hi; omega)]
      · simp [get_put hm]
    unfold fillSubBlock offeredBytes
    rw [if_neg (by omega), map_byte_mk, hdata, List.take_of_length_le (by omega), List.drop_of_length_le (by omega)]
    simp [subBlockBytes]
  · rw [subPut_stores v (by omega)]
    have hn : (r.sbcnt.toNat + 1) % 256 = r.sbcnt.toNat + 1 := Nat.mod_eq_of_lt (by omega)
    refine ⟨rfl, ?_, fun i hi => ?_, wf_put hm _ (by omega) (Nat.le_refl _), by simp [hn]; omega⟩
    rotate_left
    · have := hi 0 (by simp)
      have : (r.sbcnt.toNat + 0) % 254 = r.sbcnt.toNat := Nat.mod_eq_of_lt (by omega)
      rw [get_put hm, if_neg (by omega)]
    have hlen : (subBlockBytes r ++ [v]).length < 254 := by simp [hl]; omega
    unfold fillSubBlock
    rw [if_pos hlen, subBlockBytes_put v hm (by omega)]
    rfl

/-- SBCNT counts the bytes round from 0 at every full sub-block. -/
theorem Fills.count {new : List Byte} {r : Regs} {run : Run} (h : Fills new r run) (hs : r.sbcnt.toNat + new.length < 508) :
    run.regs.sbcnt.toNat = (r.sbcnt.toNat + new.length) % 254 := by
  have hl := congrArg (fun x => x.2.length) h.filled
  simp only [subBlockBytes_length] at hl
  have ha : (subBlockBytes r ++ new).length = r.sbcnt.toNat + new.length := by simp [subBlockBytes_length]
  rw [hl]
  unfold fillSubBlock
  split
  · simp only [ha]
    omega
  · simp only [List.length_drop, ha]
    omega

/-- It offers nothing, or exactly one full sub-block of 255 bytes, `FE` first (40 R121 (c)). -/
theorem Fills.offers {new : List Byte} {r : Regs} {run : Run} (h : Fills new r run) :
    (offeredBytes run = [] ∧ r.sbcnt.toNat + new.length < 254) ∨
    ((offeredBytes run).length = 255 ∧ (offeredBytes run).head? = some 0xFE#8 ∧ 254 ≤ r.sbcnt.toNat + new.length) := by
  have hl := congrArg Prod.fst h.filled
  simp only at hl
  have ha : (subBlockBytes r ++ new).length = r.sbcnt.toNat + new.length := by simp [subBlockBytes_length]
  rw [hl]
  unfold fillSubBlock
  split
  · exact .inl ⟨rfl, by omega⟩
  · refine .inr ⟨?_, rfl, by omega⟩
    simp only [List.length_cons, List.length_take]
    omega

/-- Two such runs in a row, with too few bytes for the buffer to fill twice. -/
theorem Fills.andThen {a b : List Byte} {r : Regs} {p q : Micro} (hp : Fills a r (p r)) (hq : Fills b (p r).regs (q (p r).regs))
    (hs : (subBlockBytes r).length + a.length + b.length < 508) : Fills (a ++ b) r (andThen p q r) := by
  rw [andThen_of_none hp.stop]
  have hfull : offeredBytes ⟨(p r).offers ++ (q (p r).regs).offers, (q (p r).regs).stop, (q (p r).regs).regs⟩ =
      offeredBytes (p r) ++ offeredBytes (q (p r).regs) := by simp [offeredBytes]
  have hl1 : r.sbcnt.toNat + a.length + b.length < 508 := by
    have := subBlockBytes_length r
    omega
  have hc := hp.count (by omega)
  refine ⟨hq.stop, ?_, fun i hi => ?_, hq.wf, hq.room⟩
  rotate_left
  · simp only [List.length_append] at hi
    rw [hq.stored i fun j hj => ?_, hp.stored i fun j hj => hi j (by omega)]
    have := hi (a.length + j) (by omega)
    rw [hc]
    omega
  have h1 := hp.filled
  have h2 := hq.filled
  rw [hfull]
  unfold fillSubBlock at h1 h2 ⊢
  by_cases hl : (subBlockBytes r ++ a).length < 254
  · rw [if_pos hl, Prod.mk.injEq] at h1
    rw [h1.1, List.nil_append, h2, h1.2, List.append_assoc]
  · rw [if_neg hl, Prod.mk.injEq] at h1
    have hle : 254 ≤ (subBlockBytes r ++ a).length := by omega
    have hla : (subBlockBytes r ++ a).length = (subBlockBytes r).length + a.length := List.length_append
    have hd : ((subBlockBytes r ++ a).drop 254 ++ b).length < 254 := by
      rw [List.length_append, List.length_drop]
      omega
    rw [h1.2, if_pos hd, Prod.mk.injEq] at h2
    have hl' : ¬ (subBlockBytes r ++ (a ++ b)).length < 254 := by simp at hl ⊢; omega
    rw [if_neg hl', h1.1, h2.1, h2.2, ← List.append_assoc, List.take_append_of_le_length (l₂ := b) hle,
      List.drop_append_of_le_length (l₂ := b) hle, List.append_nil]

/-- Registers that agree on the buffer have the same `Fills`. -/
theorem Fills.congr {new : List Byte} {r q : Regs} {run : Run} (h : Fills new q run) (hb : q.sbbuf = r.sbbuf)
    (hc : q.sbcnt = r.sbcnt) : Fills new r run := by
  obtain ⟨h1, h2, h3, h4, h5⟩ := h
  rw [subBlockBytes_congr hb hc] at h2
  rw [hb, hc] at h3
  exact ⟨h1, h2, h3, h4, h5⟩

/-- A register write outside the buffer after such a run. -/
theorem Fills.thenWrite {new : List Byte} {r : Regs} {p : Micro} {f : Regs → Regs} (hp : Fills new r (p r))
    (hb : (f (p r).regs).sbbuf = (p r).regs.sbbuf) (hc : (f (p r).regs).sbcnt = (p r).regs.sbcnt) :
    Fills new r (Sys2Proof.Machine.andThen p (write f) r) := by
  rw [andThen_of_none hp.stop]
  obtain ⟨h1, h2, h3, h4, h5⟩ := hp
  refine ⟨rfl, ?_, ?_, ?_, ?_⟩
  · simpa [offeredBytes, subBlockBytes_congr hb hc] using h2
  · simpa [hb] using h3
  · simpa [hb] using h4
  · simpa [hc] using h5

/-- One turn of the loop of `PackCode`: the low byte of ACC leaves it (40 R111). -/
theorem shiftOutByte_fills {r : Regs} (hm : Memory.wf 254 r.sbbuf = true) (hs : r.sbcnt.toNat ≤ 253) :
    Fills [r.acc.setWidth 8] r (shiftOutByte r) ∧ PackFrame r (shiftOutByte r).regs ∧
      (shiftOutByte r).regs.acc = r.acc >>> 8 ∧ (shiftOutByte r).regs.bitcnt = BitVec.ofNat 5 (r.bitcnt.toNat - 8) := by
  have h := Fills.subPut (r.acc.setWidth 8) hm hs
  have hq : (subPut (r.acc.setWidth 8) r).regs =
      { r with sbbuf := (subPut (r.acc.setWidth 8) r).regs.sbbuf, sbcnt := (subPut (r.acc.setWidth 8) r).regs.sbcnt } := by
    by_cases h253 : r.sbcnt.toNat = 253
    · rw [subPut_flushes _ h253]
    · rw [subPut_stores _ (by omega)]
  have e : shiftOutByte r = ⟨(subPut (r.acc.setWidth 8) r).offers, none,
      { (subPut (r.acc.setWidth 8) r).regs with acc := r.acc >>> 8, bitcnt := BitVec.ofNat 5 (r.bitcnt.toNat - 8) }⟩ := by
    unfold shiftOutByte
    rw [program_cons, andThen_of_none (p := fun r => subPut (r.acc.setWidth 8) r) h.stop, program_write, program_write, program_nil]
    have ha : (subPut (r.acc.setWidth 8) r).regs.acc = r.acc := by rw [hq]
    have hb : (subPut (r.acc.setWidth 8) r).regs.bitcnt = r.bitcnt := by rw [hq]
    simp [ha, hb]
  rw [e]
  refine ⟨⟨rfl, h.filled, h.stored, h.wf, h.room⟩, ?_, rfl, rfl⟩
  show _ = _
  simp only
  rw [hq]

/-- The loop of `PackCode`, at most two turns in practice: `n` bytes of ACC, the lowest first. -/
theorem repeatShift_fills :
    ∀ (n : Nat) (r : Regs), Memory.wf 254 r.sbbuf = true → r.sbcnt.toNat ≤ 253 → n ≤ 254 → 8 * n ≤ r.bitcnt.toNat →
      Fills ((List.range n).map (fun i => (r.acc >>> (8 * i)).setWidth 8)) r (repeatTimes n shiftOutByte r) ∧
        PackFrame r (repeatTimes n shiftOutByte r).regs ∧ (repeatTimes n shiftOutByte r).regs.acc = r.acc >>> (8 * n) ∧
        (repeatTimes n shiftOutByte r).regs.bitcnt.toNat = r.bitcnt.toNat - 8 * n
  | 0, r, hm, hs, _, _ => ⟨Fills.none rfl rfl hm hs, rfl, by simp [repeatTimes], by simp [repeatTimes]⟩
  | n + 1, r, hm, hs, hn, hb => by
    have hb32 := r.bitcnt.isLt
    obtain ⟨f, ff, fa, fb⟩ := shiftOutByte_fills hm hs
    have tb : (shiftOutByte r).regs.bitcnt.toNat = r.bitcnt.toNat - 8 := by
      rw [fb, BitVec.toNat_ofNat]
      exact Nat.mod_eq_of_lt (by omega)
    obtain ⟨g, gf, ga, gb⟩ := repeatShift_fills n (shiftOutByte r).regs f.wf f.room (by omega) (by omega)
    have hand := Fills.andThen (p := shiftOutByte) (q := repeatTimes n shiftOutByte) f g
      (by simp [subBlockBytes_length]; omega)
    have hregs : (repeatTimes (n + 1) shiftOutByte r).regs = (repeatTimes n shiftOutByte (shiftOutByte r).regs).regs := by
      show (andThen shiftOutByte (repeatTimes n shiftOutByte) r).regs = _
      rw [andThen_of_none f.stop]
    refine ⟨?_, ?_, ?_, ?_⟩
    · have : (List.range (n + 1)).map (fun i => (r.acc >>> (8 * i)).setWidth 8) =
          [r.acc.setWidth 8] ++ (List.range n).map (fun i => ((shiftOutByte r).regs.acc >>> (8 * i)).setWidth 8) := by
        rw [List.range_succ_eq_map, List.map_cons, List.map_map]
        simp only [List.singleton_append, Nat.mul_zero, BitVec.ushiftRight_zero, List.cons.injEq, true_and]
        refine List.map_congr_left fun i _ => ?_
        simp only [Function.comp, fa]
        rw [show 8 * (i + 1) = 8 + 8 * i by omega, BitVec.shiftRight_add]
      rw [this]
      exact hand
    · rw [hregs]; exact ff.trans gf
    · rw [hregs, ga, fa, show 8 * (n + 1) = 8 + 8 * n by omega, BitVec.shiftRight_add]
    · rw [hregs, gb]; omega

/-- The offers of the loop of `PackCode`: they come from its turn that stores the 254th byte, at which ACC and BITCNT have lost the bytes of
the turns before it and no more (60 R206). -/
theorem repeatShift_offers :
    ∀ (n : Nat) (r : Regs), Memory.wf 254 r.sbbuf = true → r.sbcnt.toNat ≤ 253 → n ≤ 254 → 8 * n ≤ r.bitcnt.toNat →
      ∀ o ∈ (repeatTimes n shiftOutByte r).offers,
        253 - r.sbcnt.toNat < n ∧
        o.regs = { r with
          acc := r.acc >>> (8 * (253 - r.sbcnt.toNat)), bitcnt := BitVec.ofNat 5 (r.bitcnt.toNat - 8 * (253 - r.sbcnt.toNat))
          sbbuf := o.regs.sbbuf, sbcnt := 254#8 }
  | 0, r, _, _, _, _, o, ho => by simp [repeatTimes] at ho
  | n + 1, r, hm, hs, hn, hb, o, ho => by
    obtain ⟨f, ff, fa, fb⟩ := shiftOutByte_fills hm hs
    have hb32 := r.bitcnt.isLt
    have tb : (shiftOutByte r).regs.bitcnt.toNat = r.bitcnt.toNat - 8 := by
      rw [fb, BitVec.toNat_ofNat]
      exact Nat.mod_eq_of_lt (by omega)
    have hc := f.count (by simp; omega)
    simp only [List.length_singleton] at hc
    change o ∈ (andThen shiftOutByte (repeatTimes n shiftOutByte) r).offers at ho
    rw [andThen_of_none f.stop] at ho
    rcases List.mem_append.mp ho with ho | ho
    · have hsub : o ∈ (subPut (r.acc.setWidth 8) r).offers := by
        unfold shiftOutByte at ho
        rw [program_cons, andThen_of_none (p := fun r => subPut (r.acc.setWidth 8) r) (Fills.subPut _ hm hs).stop,
          program_write, program_write, program_nil] at ho
        simpa using ho
      obtain ⟨h253, ho⟩ := subPut_offers _ hs o hsub
      refine ⟨by omega, ?_⟩
      rw [h253]
      simpa using ho
    · obtain ⟨h1, h2⟩ := repeatShift_offers n (shiftOutByte r).regs f.wf f.room (by omega) (by omega) o ho
      have hs' : (shiftOutByte r).regs.sbcnt.toNat = r.sbcnt.toNat + 1 := by omega
      have hsub : 253 - r.sbcnt.toNat = (253 - (r.sbcnt.toNat + 1)) + 1 := by omega
      rw [hs'] at h1 h2
      refine ⟨by omega, ?_⟩
      rw [h2, ff, fa, tb, hsub]
      have e1 : r.acc >>> 8 >>> (8 * (253 - (r.sbcnt.toNat + 1))) = r.acc >>> (8 * ((253 - (r.sbcnt.toNat + 1)) + 1)) := by
        rw [← BitVec.shiftRight_add]
        congr 1
        omega
      have e2 : r.bitcnt.toNat - 8 - 8 * (253 - (r.sbcnt.toNat + 1)) = r.bitcnt.toNat - 8 * ((253 - (r.sbcnt.toNat + 1)) + 1) := by omega
      rw [e1, e2]

/-- `PackCode` (40 R111) of a code that fits: the bytes of ACC with the code above the bits it held enter the buffer, the rest stays. -/
theorem packCode_fills {r : Regs} {code : Nat} (hm : Memory.wf 254 r.sbbuf = true) (hp : PackerOk r)
    (hc : code < 2 ^ r.nbits.toNat) (hn : r.nbits.toNat ≤ 12) :
    Fills ((List.range ((r.bitcnt.toNat + r.nbits.toNat) / 8)).map (fun i => ((addCode code r).acc >>> (8 * i)).setWidth 8)) r
        (packCode code r) ∧
      PackFrame r (packCode code r).regs ∧
      (packCode code r).regs.acc = (addCode code r).acc >>> (8 * ((r.bitcnt.toNat + r.nbits.toNat) / 8)) ∧
      (packCode code r).regs.bitcnt.toNat = (r.bitcnt.toNat + r.nbits.toNat) % 8 := by
  obtain ⟨hb, -, hs⟩ := hp
  have hbit : (addCode code r).bitcnt.toNat = r.bitcnt.toNat + r.nbits.toNat := by
    rw [addCode_bitcnt, BitVec.toNat_ofNat]
    exact Nat.mod_eq_of_lt (by omega)
  obtain ⟨h1, h2, h3, h4⟩ :=
    repeatShift_fills ((r.bitcnt.toNat + r.nbits.toNat) / 8) (addCode code r) hm hs (by omega) (by omega)
  rw [packCode_eq hb hc hn]
  exact ⟨h1.congr rfl rfl, PackFrame.trans (q := addCode code r) rfl h2, h3, by omega⟩

/-- The value of ACC after a code is added: the code stands above the bits already held, without overlap (40 R122: "the or is also their
sum"). -/
theorem addCode_acc_eq {r : Regs} {code : Nat} (hb : r.bitcnt.toNat ≤ 7) (ha : r.acc.toNat < 2 ^ r.bitcnt.toNat)
    (hc : code < 2 ^ r.nbits.toNat) (hn : r.nbits.toNat ≤ 12) :
    (addCode code r).acc.toNat = r.acc.toNat + code * 2 ^ r.bitcnt.toNat := by
  have h12 : 2 ^ r.nbits.toNat ≤ 2 ^ 12 := Nat.pow_le_pow_right (by omega) hn
  have h7 : 2 ^ r.bitcnt.toNat ≤ 2 ^ 7 := Nat.pow_le_pow_right (by omega) hb
  have hc' : code % 2 ^ 19 = code := Nat.mod_eq_of_lt (by omega)
  have hmul : code * 2 ^ r.bitcnt.toNat < 2 ^ 19 := by
    calc code * 2 ^ r.bitcnt.toNat ≤ code * 2 ^ 7 := Nat.mul_le_mul_left _ h7
      _ < 2 ^ 12 * 2 ^ 7 := Nat.mul_lt_mul_of_pos_right (by omega) (by norm_num)
      _ = 2 ^ 19 := by norm_num
  rw [addCode_acc, BitVec.toNat_or, BitVec.toNat_shiftLeft, BitVec.toNat_ofNat, hc', Nat.shiftLeft_eq, Nat.mod_eq_of_lt hmul,
    ← Nat.shiftLeft_eq, Nat.or_comm, ← Nat.shiftLeft_add_eq_or_of_lt ha, Nat.shiftLeft_eq]
  omega

end Sys2Proof.Machine
end

