-- ==== Sys2Proof/Laws/Commands.lean ====
section
/-!
SUPPORT. What the pseudocode of PAL, BEGIN, FRAME, PIX and the end-of-frame actions does from good registers, and which registers each of
them can change, from any registers whatever.
-/

namespace Sys2Proof.Machine

/-! ### Good registers -/

theorem regsOk_errcode {r : Regs} (h : RegsOk r) (hp : r.phase ≠ .error) : r.errcode = none := by
  by_contra hne
  exact hp (h.2.1.1.mp hne)

theorem RegsOk.mid {r : Regs} (h : RegsOk r) (hp : r.phase ≠ .error) : MidOk r := ⟨h.1, regsOk_errcode h hp, hp⟩

/-- Good registers in the middle of a step that end it in a phase that is not ERROR. -/
theorem RegsOk.ofMid {r : Regs} (hm : MidOk r) (hp : PhaseOk r) : RegsOk r := by
  refine ⟨hm.1, ⟨⟨fun h => absurd hm.2.1 h, fun h => absurd h hm.2.2⟩, ?_⟩, hp⟩
  rw [hm.2.1]
  simp

/-- Raising a fault from good registers, InvariantViolation apart (60 R200). -/
theorem regsOk_enterError {r : Regs} {e : ErrorClass} (hm : MidOk r) (he : e ≠ .invariantViolation) : RegsOk (enterError e r) :=
  ⟨hm.1, ⟨⟨fun _ => rfl, fun _ => by simp⟩, by simpa using he⟩, trivial⟩

theorem paletteLoaded_of {r : Regs} (h : StoresOk r) (hc : StreamConfigOk r) : PaletteLoaded r := ⟨hc.2.1, h.1⟩

/-- `EndFrame` (41 R150) closes a frame and, after the last one, the stream. -/
theorem endFrame_keeps {r : Regs} (hm : MidOk r) (hc : StreamConfigOk r) (hf : r.fdone.toNat < r.nframes.toNat) (h : LzwOk r) :
    RunKeeps (fun q => RegsOk q ∧ (q.phase = .stream ∨ q.phase = .done)) (endFrame r) := by
  unfold endFrame
  refine runKeeps_cons ((lzwFinish_keeps hm (paletteLoaded_of hm.1 hc) h).mono fun q hq => ?_)
  obtain ⟨qm, qf, -, -⟩ := hq
  have hn : q.nframes = r.nframes := by rw [qf]
  have hd : q.fdone = r.fdone := by rw [qf]
  have qc : StreamConfigOk q := by rw [qf]; exact hc
  have hlt := r.nframes.isLt
  refine runKeeps_cons (runKeeps_emit qm (runKeeps_cons (runKeeps_guard (by simp [hd]; omega) ?_)))
  refine runKeeps_cons (runKeeps_write (runKeeps_cons ?_))
  have hval : (BitVec.ofNat 16 (q.fdone.toNat + 1)).toNat = r.fdone.toNat + 1 := by
    rw [BitVec.toNat_ofNat, hd]
    exact Nat.mod_eq_of_lt (by omega)
  have tm : MidOk { q with fdone := BitVec.ofNat 16 (q.fdone.toNat + 1) } := qm
  unfold ifElse
  split
  · rename_i hlast
    have heq : BitVec.ofNat 16 (q.fdone.toNat + 1) = q.nframes := by simpa using hlast
    have heq' : r.fdone.toNat + 1 = q.nframes.toNat := by rw [← heq, hval]
    refine runKeeps_cons (runKeeps_emit tm (runKeeps_cons (runKeeps_write (runKeeps_nil (runKeeps_nil ⟨?_, .inr rfl⟩)))))
    refine RegsOk.ofMid ⟨qm.1, qm.2.1, by simp⟩ ⟨qc, ?_⟩
    show (BitVec.ofNat 16 (q.fdone.toNat + 1)).toNat = q.nframes.toNat
    omega
  · rename_i hlast
    have hne : BitVec.ofNat 16 (q.fdone.toNat + 1) ≠ q.nframes := by simpa using hlast
    have hne' : r.fdone.toNat + 1 ≠ q.nframes.toNat := fun h => hne (BitVec.eq_of_toNat_eq (by omega))
    refine runKeeps_write (runKeeps_nil ⟨?_, .inl rfl⟩)
    refine RegsOk.ofMid ⟨qm.1, qm.2.1, by simp⟩ ⟨qc, ?_⟩
    show (BitVec.ofNat 16 (q.fdone.toNat + 1)).toNat < q.nframes.toNat
    rw [hn] at hne' ⊢
    omega

theorem palMicro_runOk {r : Regs} {rgb : Rgb} (h : RegsOk r) (hp : r.phase = .idle) : RunOk (palMicro rgb r) := by
  have hm : MidOk r := h.mid (by simp [hp])
  have hle := h.1.1
  rw [runOk_iff]
  unfold palMicro
  refine runKeeps_cons (runKeeps_check (by simp) hm fun hne => ?_)
  have hlt : r.paln.toNat < 256 := by
    have : r.paln.toNat ≠ 256 := by simpa using hne
    omega
  refine runKeeps_cons (runKeeps_guard (by simp; omega) ?_)
  refine runKeeps_cons (runKeeps_write (runKeeps_cons (runKeeps_write (runKeeps_nil ?_))))
  have hval : (BitVec.ofNat 9 (r.paln.toNat + 1)).toNat = r.paln.toNat + 1 := by
    rw [BitVec.toNat_ofNat]
    exact Nat.mod_eq_of_lt (by omega)
  refine RegsOk.ofMid ⟨⟨?_, ?_, h.1.2.2.1, h.1.2.2.2⟩, hm.2.1, hm.2.2⟩ ?_
  · show (BitVec.ofNat 9 (r.paln.toNat + 1)).toNat ≤ 256
    omega
  · show Memory.wf (BitVec.ofNat 9 (r.paln.toNat + 1)).toNat (Memory.put r.paln.toNat rgb r.pal) = true
    rw [hval]
    exact wf_put h.1.2.1 _ (by omega) (by omega)
  · have h3 := h.2.2
    unfold PhaseOk at h3 ⊢
    simp only [hp] at h3 ⊢
    exact h3

theorem beginMicro_runOk {r : Regs} (h : RegsOk r) (hp : r.phase = .idle) : RunOk (beginMicro r) := by
  have hm : MidOk r := h.mid (by simp [hp])
  rw [runOk_iff]
  unfold beginMicro
  refine runKeeps_cons (runKeeps_check (by simp) hm fun c1 => ?_)
  refine runKeeps_cons (runKeeps_check (by simp) hm fun c2 => ?_)
  refine runKeeps_cons (runKeeps_check (by simp) hm fun c3 => ?_)
  refine runKeeps_cons (runKeeps_check (by simp) hm fun c4 => ?_)
  refine runKeeps_cons (runKeeps_emit hm (runKeeps_cons (runKeeps_emit hm (runKeeps_cons (runKeeps_emit hm ?_)))))
  have nz : ∀ {w : Nat} {x : BitVec w}, x ≠ 0#w → x.toNat ≠ 0 := fun hx h0 => hx (BitVec.eq_of_toNat_eq (by simpa using h0))
  have hend : RunKeeps RegsOk (program [
      write (fun r => { r with fdone := 0 }), write (fun r => { r with phase := .stream })] r) := by
    refine runKeeps_cons (runKeeps_write (runKeeps_cons (runKeeps_write (runKeeps_nil ?_))))
    simp only [decide_eq_false_iff_not, Bool.or_eq_false_iff, Bool.and_eq_false_iff] at c1 c2 c3 c4
    refine RegsOk.ofMid ⟨hm.1, hm.2.1, by simp⟩ ⟨⟨nz c1, nz c2, nz c3.1, nz c3.2, fun ht => ?_⟩, ?_⟩
    · have ht' : r.trv = 1 := ht
      rcases c4 with c4 | c4
      · exact absurd ht' c4
      · exact Nat.lt_of_not_le c4
    · show (0#16).toNat < r.nframes.toNat
      have := nz c1
      simp
      omega
  exact runKeeps_cons (runKeeps_whenever (fun _ => runKeeps_emit hm hend) (fun _ => hend))

theorem frameMicro_runOk {r : Regs} (h : RegsOk r) (hp : r.phase = .stream) : RunOk (frameMicro r) := by
  have hm : MidOk r := h.mid (by simp [hp])
  have hph := h.2.2
  unfold PhaseOk at hph
  rw [hp] at hph
  obtain ⟨hc, hf⟩ := hph
  rw [runOk_iff]
  unfold frameMicro
  refine runKeeps_cons (runKeeps_check (by simp) hm fun c1 => ?_)
  refine runKeeps_cons (runKeeps_check (by simp) hm fun c2 => ?_)
  refine runKeeps_cons (runKeeps_check (by simp) hm fun c3 => ?_)
  have nz : ∀ {w : Nat} {x : BitVec w}, x ≠ 0#w → x.toNat ≠ 0 := fun hx h0 => hx (BitVec.eq_of_toNat_eq (by simpa using h0))
  simp only [outsideCanvas, decide_eq_false_iff_not, Bool.or_eq_false_iff, Bool.and_eq_false_iff] at c1 c2 c3
  have hw : r.fw.toNat ≠ 0 := nz c1.1
  have hh : r.fh.toNat ≠ 0 := nz c1.2
  have hprod : r.fw.toNat * r.fh.toNat < 2 ^ 32 := by
    calc r.fw.toNat * r.fh.toNat < 2 ^ 16 * 2 ^ 16 := Nat.mul_lt_mul'' r.fw.isLt r.fh.isLt
      _ = 2 ^ 32 := by norm_num
  have hend : RunKeeps RegsOk (program [
      emit imageDescriptorBytes,
      emit (fun r => [minCodeSizeByte r]),
      write (fun r => { r with npix := pixelCount r }),
      write (fun r => { r with pixcnt := 0 }),
      lzwInit,
      write (fun r => { r with phase := .pixels })] r) := by
    refine runKeeps_cons (runKeeps_emit hm (runKeeps_cons (runKeeps_emit hm ?_)))
    refine runKeeps_cons (runKeeps_write (runKeeps_cons (runKeeps_write (runKeeps_cons ?_))))
    have hm' : MidOk { r with npix := pixelCount r, pixcnt := 0 } := hm
    refine (lzwInit_keeps hm' (paletteLoaded_of hm.1 hc)).mono fun q hq => ?_
    obtain ⟨qm, ql, qf, -⟩ := hq
    have hnpix : (pixelCount r).toNat = r.fw.toNat * r.fh.toNat := by
      unfold pixelCount
      rw [BitVec.toNat_ofNat]
      exact Nat.mod_eq_of_lt hprod
    refine runKeeps_cons (runKeeps_write (runKeeps_nil ?_))
    refine RegsOk.ofMid ⟨qm.1, qm.2.1, by simp⟩ ?_
    show StreamConfigOk q ∧ q.fdone.toNat < q.nframes.toNat ∧ FrameOk q ∧ LzwOk q
    have hfr : FrameOk q := by
      rw [qf]
      refine ⟨hw, hh, Nat.le_of_not_lt c2.1, Nat.le_of_not_lt c2.2, fun ht => ?_, hnpix, ?_⟩
      · have ht' : r.ftr = 1 := ht
        rcases c3 with c3 | c3
        · exact absurd ht' c3
        · have h2 := r.trv.isLt
          have h0 := nz c3
          exact BitVec.eq_of_toNat_eq (show r.trv.toNat = 1 by omega)
      · show (0#32).toNat < (pixelCount r).toNat
        rw [hnpix]
        exact Nat.mul_pos (Nat.pos_of_ne_zero hw) (Nat.pos_of_ne_zero hh)
    refine ⟨?_, ?_, hfr, ql⟩
    · rw [qf]; exact hc
    · rw [qf]; exact hf
  exact runKeeps_cons (runKeeps_whenever (fun _ => runKeeps_emit hm hend) (fun _ => hend))

theorem pixMicro_runOk {r : Regs} {c : Byte} (h : RegsOk r) (hp : r.phase = .pixels) : RunOk (pixMicro c r) := by
  have hm : MidOk r := h.mid (by simp [hp])
  have hph := h.2.2
  unfold PhaseOk at hph
  rw [hp] at hph
  obtain ⟨hc, hf, hfr, hl⟩ := hph
  rw [runOk_iff]
  unfold pixMicro
  refine runKeeps_cons (runKeeps_check (by simp) hm fun c1 => ?_)
  have hlt : c.toNat < r.paln.toNat := by
    have : ¬ r.paln.toNat ≤ c.toNat := by simpa using c1
    omega
  refine runKeeps_cons ((lzwPixel_keeps hm (paletteLoaded_of hm.1 hc) hl hlt).mono fun q hq => ?_)
  obtain ⟨qm, ql, qf⟩ := hq
  have qc : StreamConfigOk q := by rw [qf]; exact hc
  have qfd : q.fdone.toNat < q.nframes.toNat := by rw [qf]; exact hf
  have qfr : FrameOk q := by rw [qf]; exact hfr
  have qphase : q.phase = .pixels := by rw [qf]; exact hp
  have hnlt := q.npix.isLt
  have hpc : q.pixcnt.toNat < q.npix.toNat := qfr.2.2.2.2.2.2
  refine runKeeps_cons (runKeeps_guard (by simp; omega) (runKeeps_cons (runKeeps_write (runKeeps_cons ?_))))
  have hval : (BitVec.ofNat 32 (q.pixcnt.toNat + 1)).toNat = q.pixcnt.toNat + 1 := by
    rw [BitVec.toNat_ofNat]
    exact Nat.mod_eq_of_lt (by omega)
  refine runKeeps_whenever (fun _ => ?_) (fun hne => ?_)
  · exact (endFrame_keeps (r := { q with pixcnt := BitVec.ofNat 32 (q.pixcnt.toNat + 1) }) qm qc qfd ql).mono
      fun t ht => runKeeps_nil ht.1
  · refine runKeeps_nil (RegsOk.ofMid qm ?_)
    have hne' : q.pixcnt.toNat + 1 ≠ q.npix.toNat := by
      intro he
      have : BitVec.ofNat 32 (q.pixcnt.toNat + 1) = q.npix := BitVec.eq_of_toNat_eq (by omega)
      simp [this] at hne
    unfold PhaseOk
    simp only [qphase]
    obtain ⟨f1, f2, f3, f4, f5, f6, -⟩ := qfr
    refine ⟨qc, qfd, ⟨f1, f2, f3, f4, f5, f6, ?_⟩, ql⟩
    show (BitVec.ofNat 32 (q.pixcnt.toNat + 1)).toNat < q.npix.toNat
    omega

/-! ### Frames, from any registers -/

/-- From `r`, the run goes only through registers related to `r`. -/
def RunWithin (R : Regs → Regs → Prop) (r : Regs) (run : Run) : Prop :=
  (∀ o ∈ run.offers, R r o.regs) ∧ R r run.regs

theorem within_pass {R : Regs → Regs → Prop} (refl : ∀ r, R r r) (r : Regs) : RunWithin R r (pass r) := ⟨by simp, refl r⟩

theorem within_write {R : Regs → Regs → Prop} {f : Regs → Regs} {r : Regs} (h : R r (f r)) : RunWithin R r (write f r) :=
  ⟨by simp, h⟩

theorem within_emit {R : Regs → Regs → Prop} (refl : ∀ r, R r r) (f : Regs → List Byte) (r : Regs) :
    RunWithin R r (emit f r) := by
  refine ⟨fun o ho => ?_, refl r⟩
  obtain ⟨b, -, rfl⟩ := List.mem_map.mp ho
  exact refl r

theorem within_whenever {R : Regs → Regs → Prop} (refl : ∀ r, R r r) {c : Regs → Bool} {p : Micro} {r : Regs}
    (h : RunWithin R r (p r)) : RunWithin R r (whenever c p r) := by
  unfold whenever
  split
  · exact h
  · exact within_pass refl r

theorem within_raise {R : Regs → Regs → Prop} (refl : ∀ r, R r r) (e : ErrorClass) (r : Regs) :
    RunWithin R r (raiseError e r) := ⟨by simp, refl r⟩

theorem within_stuck {R : Regs → Regs → Prop} (refl : ∀ r, R r r) (f : Fault) (r : Regs) :
    RunWithin R r (stuck f r) := ⟨by simp [stuck], refl r⟩

theorem within_andThen {R : Regs → Regs → Prop} (trans : ∀ r q t, R r q → R q t → R r t) {p q : Micro} {r : Regs}
    (hp : RunWithin R r (p r)) (hq : ∀ t, RunWithin R t (q t)) : RunWithin R r (andThen p q r) := by
  cases h : (p r).stop with
  | some st => rw [andThen_of_some h]; exact hp
  | none =>
    rw [andThen_of_none h]
    refine ⟨fun o ho => ?_, trans _ _ _ hp.2 (hq _).2⟩
    rcases List.mem_append.mp ho with ho | ho
    · exact hp.1 o ho
    · exact trans _ _ _ hp.2 ((hq _).1 o ho)

theorem within_program {R : Regs → Regs → Prop} (refl : ∀ r, R r r) (trans : ∀ r q t, R r q → R q t → R r t) :
    ∀ (ps : List Micro), (∀ p ∈ ps, ∀ r, RunWithin R r (p r)) → ∀ r, RunWithin R r (program ps r)
  | [], _, r => within_pass refl r
  | p :: ps, h, r =>
    within_andThen trans (h p (by simp) r) fun t => within_program refl trans ps (fun q hq => h q (by simp [hq])) t

theorem within_repeat {R : Regs → Regs → Prop} (refl : ∀ r, R r r) (trans : ∀ r q t, R r q → R q t → R r t) {m : Micro}
    (h : ∀ r, RunWithin R r (m r)) : ∀ n r, RunWithin R r (repeatTimes n m r)
  | 0, r => within_pass refl r
  | n + 1, r => within_andThen trans (h r) fun t => within_repeat refl trans h n t

theorem subFlush_within (r : Regs) : RunWithin PackFrame r (subFlush r) := by
  refine within_whenever PackFrame.refl (within_program PackFrame.refl (fun _ _ _ => PackFrame.trans) _ (fun p hp => ?_) r)
  simp only [List.mem_cons, List.not_mem_nil, or_false] at hp
  rcases hp with rfl | rfl | rfl
  · exact fun r => within_whenever PackFrame.refl (within_stuck PackFrame.refl _ r)
  · exact within_emit PackFrame.refl _
  · exact fun r => within_write rfl

theorem subPut_within (v : Byte) (r : Regs) : RunWithin PackFrame r (subPut v r) := by
  refine within_program PackFrame.refl (fun _ _ _ => PackFrame.trans) _ (fun p hp => ?_) r
  simp only [List.mem_cons, List.not_mem_nil, or_false] at hp
  rcases hp with rfl | rfl | rfl | rfl
  · exact fun r => within_whenever PackFrame.refl (within_stuck PackFrame.refl _ r)
  · exact fun r => within_write rfl
  · exact fun r => within_write rfl
  · exact fun r => within_whenever PackFrame.refl (subFlush_within r)

theorem shiftOutByte_within (r : Regs) : RunWithin PackFrame r (shiftOutByte r) := by
  refine within_program PackFrame.refl (fun _ _ _ => PackFrame.trans) _ (fun p hp => ?_) r
  simp only [List.mem_cons, List.not_mem_nil, or_false] at hp
  rcases hp with rfl | rfl | rfl
  · exact fun r => subPut_within _ r
  · exact fun r => within_write rfl
  · exact fun r => within_write rfl

/-- `PackCode`, from any registers and for any code, changes only the packer and the sub-block buffer (40 R111). -/
theorem packCode_within (code : Nat) (r : Regs) : RunWithin PackFrame r (packCode code r) := by
  refine within_program PackFrame.refl (fun _ _ _ => PackFrame.trans) _ (fun p hp => ?_) r
  simp only [List.mem_cons, List.not_mem_nil, or_false] at hp
  rcases hp with rfl | rfl | rfl | rfl
  · exact fun r => within_whenever PackFrame.refl (within_raise PackFrame.refl _ r)
  · exact fun r => within_whenever PackFrame.refl (within_stuck PackFrame.refl _ r)
  · exact fun r => within_write rfl
  · exact fun r => within_repeat PackFrame.refl (fun _ _ _ => PackFrame.trans) shiftOutByte_within _ r

theorem RunWithin.mono {R S : Regs → Regs → Prop} {r : Regs} {run : Run} (h : RunWithin R r run) (hi : ∀ q, R r q → S r q) :
    RunWithin S r run := ⟨fun o ho => hi _ (h.1 o ho), hi _ h.2⟩

theorem emitCode_within (code : Nat) (r : Regs) : RunWithin LzwFrame r (emitCode code r) := by
  refine within_program LzwFrame.refl (fun _ _ _ => LzwFrame.trans) _ (fun p hp => ?_) r
  simp only [List.mem_cons, List.not_mem_nil, or_false] at hp
  rcases hp with rfl | rfl
  · exact fun r => (packCode_within _ r).mono fun _ h => h.emit.lzw
  · exact fun r => within_whenever LzwFrame.refl (within_write rfl)

theorem emitClear_within (r : Regs) : RunWithin LzwFrame r (emitClear r) := by
  refine within_program LzwFrame.refl (fun _ _ _ => LzwFrame.trans) _ (fun p hp => ?_) r
  simp only [List.mem_cons, List.not_mem_nil, or_false] at hp
  rcases hp with rfl | rfl
  · exact fun r => (packCode_within _ r).mono fun _ h => h.emit.lzw
  · exact fun r => within_write rfl

/-- `LzwPixel`, from any registers, changes only the compressor's (40 R117). -/
theorem lzwPixel_within (c : Byte) (r : Regs) : RunWithin LzwFrame r (lzwPixel c r) := by
  unfold lzwPixel
  split
  · exact within_write rfl
  · split
    · exact within_write rfl
    · refine within_program LzwFrame.refl (fun _ _ _ => LzwFrame.trans) _ (fun p hp => ?_) r
      simp only [List.mem_cons, List.not_mem_nil, or_false] at hp
      rcases hp with rfl | rfl | rfl
      · exact fun r => emitCode_within _ r
      · intro r
        unfold ifElse
        split
        · exact within_write rfl
        · exact emitClear_within r
      · exact fun r => within_write rfl

/-- `LzwFinish`, from any registers, changes only the compressor's (40 R118). -/
theorem lzwFinish_within (r : Regs) : RunWithin LzwFrame r (lzwFinish r) := by
  refine within_program LzwFrame.refl (fun _ _ _ => LzwFrame.trans) _ (fun p hp => ?_) r
  simp only [List.mem_cons, List.not_mem_nil, or_false] at hp
  rcases hp with rfl | rfl | rfl | rfl
  · exact fun r => emitCode_within _ r
  · exact fun r => emitCode_within _ r
  · refine fun r => within_whenever LzwFrame.refl (within_program LzwFrame.refl (fun _ _ _ => LzwFrame.trans) _ (fun p hp => ?_) r)
    simp only [List.mem_cons, List.not_mem_nil, or_false] at hp
    rcases hp with rfl | rfl
    · exact fun r => (subPut_within _ r).mono fun _ h => h.emit.lzw
    · exact fun r => within_write rfl
  · exact fun r => (subFlush_within r).mono fun _ h => h.emit.lzw

/-- Everything a run can leave behind when it is delivered: registers it went through, SinkIOError or its own fault entered from them, and
OUT extended. -/
theorem deliver_next_cases {run : Run} {s t : State} (h : deliver run s = .next t) :
    t.host = s.host ∧ (∃ bs, t.out = s.out ++ bs) ∧
    ((run.stop = none ∧ t.regs = run.regs ∧ t.held = none ∧ t.out = s.out ++ offeredBytes run) ∨
     (∃ e, run.stop = some (.raise e) ∧ t.regs = enterError e run.regs ∧ t.held = none) ∨
     (∃ o ∈ run.offers, t.regs = enterError .sinkIOError o.regs ∧ t.held = none) ∨
     (∃ o ∈ run.offers, ∃ rest, t.regs = o.regs ∧ t.held = some ⟨o :: rest, run.stop, run.regs⟩ ∧ ∀ x ∈ rest, x ∈ run.offers)) := by
  unfold deliver at h
  rcases offerAll_cases run.stop run.regs run.offers s with ⟨s', hs, hh⟩ | ⟨pre, o, post, s', hos, hs, hh⟩
  · rw [hh] at h
    unfold finish at h
    split at h
    · rename_i hst
      injection h with h
      subst h
      rw [hs]
      exact ⟨rfl, ⟨_, rfl⟩, .inl ⟨hst, rfl, rfl, rfl⟩⟩
    · rename_i e hst
      injection h with h
      subst h
      rw [hs]
      exact ⟨rfl, ⟨_, rfl⟩, .inr (.inl ⟨e, hst, rfl, rfl⟩)⟩
    · simp at h
  · have ho : o ∈ run.offers := by rw [hos]; simp
    have hpost : ∀ x ∈ post, x ∈ run.offers := fun x hx => by rw [hos]; simp [hx]
    rcases hh with hh | hh
    · rw [hh] at h
      injection h with h
      subst h
      rw [hs]
      exact ⟨rfl, ⟨_, rfl⟩, .inr (.inr (.inl ⟨o, ho, rfl, rfl⟩))⟩
    · rw [hh] at h
      injection h with h
      subst h
      rw [hs]
      exact ⟨rfl, ⟨_, rfl⟩, .inr (.inr (.inr ⟨o, ho, post, rfl, rfl, hpost⟩))⟩

end Sys2Proof.Machine
end

