-- ==== Sys2Proof/Laws/PerInstr.lean ====
section
/-!
SUPPORT. Per command: the word the encoder gives it is in its own row of the opcode table, `w & mask = match` (spec 30 R82), whatever its
operands; its reserved bits are 0 (R81).
-/

namespace Sys2Proof.Laws

/-- The encoded command matches its row. -/
def RowMatch.Statement (i : Instr) : Prop := encode i &&& (opcodeRow i).mask = (opcodeRow i).mat

theorem and_split {a b : Nat} (x m : BitVec a) (y n : BitVec b) : (x ++ y) &&& (m ++ n) = (x &&& m) ++ (y &&& n) :=
  BitVec.and_append

theorem and_byte_ones (x : Byte) : x &&& 0xFF#8 = x := BitVec.and_allOnes

/-- Format H under its mask keeps the opcode and the reserved zeros. -/
theorem wordH_masked (op : Byte) (v : Half) : wordH op v &&& 0xFFFF0000#32 = op ++ 0#8 ++ 0#16 := by
  have hm : (0xFFFF0000#32 : Word) = (0xFF#8 ++ 0xFF#8) ++ 0#16 := by decide
  unfold wordH
  rw [hm]
  show (op ++ 0#8 ++ v) &&& ((0xFF#8 ++ 0xFF#8) ++ 0#16) = _
  rw [and_split, and_split]
  simp [and_byte_ones]

theorem RowMatch.rst : Statement .rst := by unfold Statement; decide
theorem RowMatch.setw (v : Half) : Statement (.setw v) := (wordH_masked _ v).trans rfl
theorem RowMatch.seth (v : Half) : Statement (.seth v) := (wordH_masked _ v).trans rfl
theorem RowMatch.setnf (v : Half) : Statement (.setnf v) := (wordH_masked _ v).trans rfl
theorem RowMatch.setloop (lp : BitVec 1) : Statement (.setloop lp) := by
  unfold Statement
  revert lp
  decide
theorem RowMatch.settr (tv : BitVec 1) (ti : Byte) : Statement (.settr tv ti) := by
  unfold Statement
  revert tv ti
  decide
theorem RowMatch.pal (r g b : Byte) : Statement (.pal r g b) := by
  have hm : (0xFF000000#32 : Word) = 0xFF#8 ++ 0#8 ++ 0#8 ++ 0#8 := by decide
  unfold Statement
  show (0x15#8 ++ r ++ g ++ b : Word) &&& (0xFF000000#32 : Word) = 0x15#8 ++ 0#8 ++ 0#8 ++ 0#8
  rw [hm, and_split, and_split, and_split]
  simp
theorem RowMatch.begin : Statement .begin := by unfold Statement; decide
theorem RowMatch.setfx (v : Half) : Statement (.setfx v) := (wordH_masked _ v).trans rfl
theorem RowMatch.setfy (v : Half) : Statement (.setfy v) := (wordH_masked _ v).trans rfl
theorem RowMatch.setfw (v : Half) : Statement (.setfw v) := (wordH_masked _ v).trans rfl
theorem RowMatch.setfh (v : Half) : Statement (.setfh v) := (wordH_masked _ v).trans rfl
theorem RowMatch.setfd (v : Half) : Statement (.setfd v) := (wordH_masked _ v).trans rfl
theorem RowMatch.setff (tr il : BitVec 1) : Statement (.setff tr il) := by
  unfold Statement
  revert tr il
  decide
theorem RowMatch.frame : Statement .frame := by unfold Statement; decide
theorem RowMatch.pix (c : Byte) : Statement (.pix c) := by
  unfold Statement
  revert c
  decide

end Sys2Proof.Laws
end

