-- ==== Sys2Proof/Tests/Slice0.lean ====
section
/-!
SUPPORT. Tests: words written out from the encodings of spec 30 and 95 part 2.3, the vectors of 95 for single steps, ill-formed assembler
lines, and for each statement with hypotheses a witness that meets them together. Expected values come from spec/95 or by hand from the
rules, never from the model.
-/

namespace Sys2Proof.Tests

open Sys2Proof Sys2Proof.Machine

/-! ### Helpers -/

/-- The registers after an answer. -/
def regsOf : Answered → Option Regs
  | .next s => some s.regs
  | _ => none

/-- What an answer has delivered. -/
def outOf : Answered → Option (List Byte)
  | .next s => some s.out
  | _ => none

/-- The state after an answer. -/
def stateOf : Answered → Option State
  | .next s => some s
  | _ => none

/-- The status word after an answer. -/
def statusOf (a : Answered) : Option Word := (regsOf a).map status

/-- A state with the given registers, the sink accepting everything. -/
def withRegs (r : Regs) : State := { State.reset with regs := r }

/-- Scenario A before BEGIN (95 V-A, F1). -/
def configuredA : Regs :=
  { Regs.reset with canvw := 2#16, canvh := 2#16, nframes := 1#16, paln := 1#9, pal := [(0, 0xFF0000#24)] }

/-- Scenario A before FRAME (95 V-A, F6). -/
def streamA : Regs := { configuredA with phase := .stream, fw := 2#16, fh := 2#16 }

/-- Scenario A after FRAME (95 V-A, the row of `40000000`). -/
def pixelsA : Regs :=
  { streamA with phase := .pixels, npix := 4#32, nextcode := 6#13, nbits := 3#4, acc := 4#19, bitcnt := 3#5 }

/-- Scenario A after the second PIX (95 V-A). -/
def secondA : Regs :=
  { pixelsA with pixcnt := 2#32, nextcode := 7#13, bitcnt := 6#5, dict := [(0, 6#12)] }

/-- Scenario A after the third PIX (95 V-A). -/
def thirdA : Regs := { secondA with pixcnt := 3#32, cur := 6#12 }

/-- Scenario B before BEGIN (95 V-B, F2). -/
def configuredB : Regs :=
  { Regs.reset with
    canvw := 2#16, canvh := 1#16, nframes := 2#16, trv := 1#1, tridx := 2#8, paln := 3#9
    pal := [(0, 0x112233#24), (1, 0x445566#24), (2, 0x000001#24)] }

/-- Scenario B before the first FRAME (95 F7). -/
def streamB : Regs := { configuredB with phase := .stream, fw := 2#16, fh := 1#16, fdelay := 10#16 }

/-- A palette of 256 black entries: ICS = 8. -/
def streamWide : Regs := { streamA with paln := 256#9, pal := [] }

/-- How many pairs a full dictionary holds at ICS = 8 (10 R44): 3838. -/
@[irreducible] def fullCount : Nat := 3838

/-- A full dictionary for ICS = 8: the pairs with keys 0 to 3837 have the codes 258 to 4095. -/
def fullDict : List (Nat × BitVec 12) := (List.range fullCount).map (fun i => (i, BitVec.ofNat 12 (258 + i)))

/-- Inside a frame of 256 colours with a full dictionary (95 2.1, `LzwPixel(5)`, full): the pair (300, 5), key 76805, is absent. -/
def pixelsFull : Regs :=
  { streamWide with
    phase := .pixels, npix := 65536#32, fw := 256#16, fh := 256#16, canvw := 256#16, canvh := 256#16, pixcnt := 5000#32
    cur := 300#12, nextcode := 4096#13, nbits := 12#4
    dict := fullDict }

/-- Scenario A held by its sink at the second byte of BEGIN. -/
def heldA : State :=
  { withRegs configuredA with
    out := [0x47#8], sink := ⟨[], .withhold⟩
    held := some ⟨(beginMicro configuredA).offers.drop 1, none, { configuredA with phase := .stream }⟩ }

/-! ### Decoding (30 R81, R82; 95 part 2.3): one word or two for each command -/

theorem test_decode_rst : decode 0x01000000#32 = .ok .rst := by decide
theorem test_decode_setw : decode 0x10000280#32 = .ok (.setw 640#16) := by decide
theorem test_decode_seth : decode 0x1100FFFF#32 = .ok (.seth 65535#16) := by decide
theorem test_decode_setnf : decode 0x12000003#32 = .ok (.setnf 3#16) := by decide
theorem test_decode_setloop : decode 0x13000001#32 = .ok (.setloop 1#1) ∧ decode 0x13000000#32 = .ok (.setloop 0#1) := by decide
theorem test_decode_settr : decode 0x140001FF#32 = .ok (.settr 1#1 255#8) ∧ decode 0x14000007#32 = .ok (.settr 0#1 7#8) := by decide
theorem test_decode_pal : decode 0x15FF8000#32 = .ok (.pal 0xFF#8 0x80#8 0x00#8) := by decide
theorem test_decode_begin : decode 0x20000000#32 = .ok .begin := by decide
theorem test_decode_setfx : decode 0x30000001#32 = .ok (.setfx 1#16) := by decide
theorem test_decode_setfy : decode 0x31000002#32 = .ok (.setfy 2#16) := by decide
theorem test_decode_setfw : decode 0x32000003#32 = .ok (.setfw 3#16) := by decide
theorem test_decode_setfh : decode 0x33000002#32 = .ok (.setfh 2#16) := by decide
theorem test_decode_setfd : decode 0x34001234#32 = .ok (.setfd 0x1234#16) := by decide
theorem test_decode_setff : decode 0x35000002#32 = .ok (.setff 1#1 0#1) ∧ decode 0x35000001#32 = .ok (.setff 0#1 1#1) := by decide
theorem test_decode_frame : decode 0x40000000#32 = .ok .frame := by decide
theorem test_decode_pix : decode 0x410000FF#32 = .ok (.pix 255#8) := by decide

/-- 30 R83: the illegal words the rule names, and one reserved bit of each format. -/
theorem test_decode_illegal :
    ([0x00000000#32, 0xFFFFFFFF#32, 0x01000001#32, 0x10010000#32, 0x13000002#32, 0x14000200#32, 0x20000001#32, 0x35000004#32,
      0x41000100#32, 0x16000000#32] : List Word).all (fun w => (decode w).toOption.isNone) = true := by decide

theorem test_encode_words :
    encode (.settr 1#1 255#8) = 0x140001FF#32 ∧ encode (.setff 1#1 0#1) = 0x35000002#32 ∧
    encode (.pal 0xFF#8 0x80#8 0x00#8) = 0x15FF8000#32 ∧ encode (.setfd 0x1234#16) = 0x34001234#32 := by decide

theorem test_table_word : decodeTableWord 32 0x41000005 = some (.pix 5#8) ∧ decodeTableWord 32 0x41000100 = none := by decide

theorem test_with_fetch_word :
    regsOf (step (State.reset.withFetchWord 32 0x10000280)) = some { Regs.reset with canvw := 640#16 } := by decide

/-! ### Ill-formed assembler lines (30 R85: "An operand out of its range is an assembly error, never a truncation") -/

theorem test_ill_formed_half : assembleLine (.setw 65536) = .error .operandRange := by decide
theorem test_ill_formed_bit : assembleLine (.setloop 2) = .error .operandRange := by decide
theorem test_ill_formed_tv : assembleLine (.settr 2 0) = .error .operandRange := by decide
theorem test_ill_formed_ti : assembleLine (.settr 0 256) = .error .operandRange := by decide
theorem test_ill_formed_rgb : assembleLine (.pal 16777216) = .error .operandRange := by decide
theorem test_ill_formed_flags : assembleLine (.setff 0 2) = .error .operandRange := by decide
theorem test_ill_formed_byte : assembleLine (.pix 256) = .error .operandRange := by decide
theorem test_ill_formed_canvas : assembleLine (.canvas 1 65536) = .error .operandRange := by decide
theorem test_ill_formed_palette : assembleLine (.palette [0, 16777216]) = .error .operandRange := by decide
theorem test_ill_formed_empty_palette : assembleLine (.palette []) = .error .operandRange := by decide
theorem test_ill_formed_framedesc : assembleLine (.framedesc 0 0 1 1 0 2 0) = .error .operandRange := by decide
theorem test_ill_formed_pixels : assembleLine (.pixels [0, 256]) = .error .operandRange := by decide
theorem test_ill_formed_empty_pixels : assembleLine (.pixels []) = .error .operandRange := by decide
theorem test_ill_formed_times : assembleLine (.pixelsTimes 3 256) = .error .operandRange := by decide

/-- 30 R85, R86: a text of two lines, a comment and a pseudo-instruction. -/
theorem test_assemble_text :
    assembleText "CANVAS 2, 2 # both\nSETTR 1, 0xFF\nPIXELS 2 * 3".toList =
      .ok [0x10000002#32, 0x11000002#32, 0x140001FF#32, 0x41000003#32, 0x41000003#32] := by decide

/-! ### Single steps (95 parts 1 and 2) -/

/-- 95 2.3: `PAL 0xFF8000` from reset. -/
theorem test_pal_appends :
    (regsOf (exec (.pal 0xFF#8 0x80#8 0x00#8) State.reset)).map (fun r => (r.paln, Memory.get r.pal 0)) = some (1#9, 0xFF8000#24) := by
  decide

/-- 95 V-C: the 257th PAL. -/
theorem test_pal_257 :
    statusOf (exec (.pal 0x12#8 0x34#8 0x56#8) (withRegs { Regs.reset with paln := 256#9 })) = some 0x00000014#32 := by decide

/-- 95 2.3: SETTR and SETFF put each field in its own register. -/
theorem test_settr_fields :
    regsOf (exec (.settr 1#1 255#8) State.reset) = some { Regs.reset with trv := 1#1, tridx := 255#8 } := by decide
theorem test_setff_fields :
    regsOf (exec (.setff 1#1 0#1) State.reset) = some { Regs.reset with ftr := 1#1, fil := 0#1 } := by decide

/-- 95 F1: BEGIN's 19 bytes. -/
theorem test_begin_scenario_a :
    outOf (exec .begin (withRegs configuredA)) =
      some [0x47#8, 0x49#8, 0x46#8, 0x38#8, 0x39#8, 0x61#8, 0x02#8, 0x00#8, 0x02#8, 0x00#8, 0x80#8, 0x00#8, 0x00#8,
        0xFF#8, 0x00#8, 0x00#8, 0x00#8, 0x00#8, 0x00#8] := by decide

/-- 95 V-D: BEGIN from the bare reset state raises EmptyAnimation. -/
theorem test_begin_empty : statusOf (exec .begin State.reset) = some 0x00000024#32 := by decide

/-- 95 F8: FRAME with every field in use. -/
theorem test_frame_fields :
    outOf (exec .frame (withRegs { Regs.reset with
        phase := .stream, nframes := 1#16, trv := 1#1, tridx := 1#8, paln := 3#9, canvw := 5#16, canvh := 4#16
        fx := 1#16, fy := 2#16, fw := 3#16, fh := 2#16, fdelay := 0x1234#16, ftr := 1#1, fil := 1#1 })) =
      some [0x21#8, 0xF9#8, 0x04#8, 0x01#8, 0x34#8, 0x12#8, 0x01#8, 0x00#8, 0x2C#8, 0x01#8, 0x00#8, 0x02#8, 0x00#8, 0x03#8, 0x00#8,
        0x02#8, 0x00#8, 0x40#8, 0x02#8] := by decide

/-- 95 V-A, the row of `40000000`: what FRAME leaves. -/
theorem test_frame_registers : regsOf (exec .frame (withRegs streamA)) = some pixelsA := by decide

/-- 95 V-A, the fourth PIX: `02 84 51 00 3B`, STATUS `00010003`. -/
theorem test_pix_last_scenario_a :
    outOf (exec (.pix 0#8) (withRegs thirdA)) = some [0x02#8, 0x84#8, 0x51#8, 0x00#8, 0x3B#8] ∧
    statusOf (exec (.pix 0#8) (withRegs thirdA)) = some 0x00010003#32 := by decide

/-- 95 V-A, the third PIX is a hit. -/
theorem test_pix_hit_scenario_a : regsOf (exec (.pix 0#8) (withRegs secondA)) = some thirdA := by decide

/-- 42 R160: `PIX 0` in IDLE leaves STATUS `00000074`. -/
theorem test_pix_in_idle : statusOf (exec (.pix 0#8) State.reset) = some 0x00000074#32 := by decide

/-- 95 V-D and 60 R201: in ERROR a BEGIN changes nothing; RST returns to reset. -/
theorem test_error_ignores :
    statusOf (exec .begin (withRegs { Regs.reset with phase := .error, errcode := some .emptyAnimation })) = some 0x00000024#32 := by
  decide
theorem test_rst_from_error :
    regsOf (exec .rst (withRegs { configuredA with phase := .error, errcode := some .badConfig })) = some Regs.reset := by decide

/-- 95 2.1: `PackCode(0xABC)` with ACC = 0x55, BITCNT = 7, NBITS = 12: bytes 55 and 5E, ACC = 5, BITCNT = 3. -/
theorem test_pack_code :
    (packCode 0xABC { Regs.reset with acc := 0x55#19, bitcnt := 7#5, nbits := 12#4 }).regs =
      { Regs.reset with acc := 5#19, bitcnt := 3#5, nbits := 12#4, sbbuf := [(0, 0x55#8), (1, 0x5E#8)], sbcnt := 2#8 } := by decide

set_option maxRecDepth 8000 in
/-- 95 2.1: `SubPut(0x5A)` with SBCNT = 253 delivers 255 bytes, `FE` first and `5A` last. -/
theorem test_sub_put_flushes :
    let run := subPut 0x5A#8 { Regs.reset with sbcnt := 253#8 }
    (offeredBytes run).length = 255 ∧ (offeredBytes run).head? = some 0xFE#8 ∧ (offeredBytes run).getLast? = some 0x5A#8 ∧
      run.regs.sbcnt = 0#8 := by decide

/-- 95 2.1: the width rule of `EmitCode(0)` at NBITS = 3, with NEXTCODE = 8 and with NEXTCODE = 7. -/
theorem test_emit_code_width :
    (emitCode 0 { Regs.reset with nbits := 3#4, nextcode := 8#13 }).regs.nbits = 4#4 ∧
    (emitCode 0 { Regs.reset with nbits := 3#4, nextcode := 7#13 }).regs.nbits = 3#4 := by decide

/-- 60 R206: a sink that refuses the third byte of BEGIN: two bytes delivered, STATUS `00000034`. -/
theorem test_sink_error :
    outOf (exec .begin { withRegs configuredA with sink := ⟨[.accept, .accept, .error], .accept⟩ }) = some [0x47#8, 0x49#8] ∧
    statusOf (exec .begin { withRegs configuredA with sink := ⟨[.accept, .accept, .error], .accept⟩ }) = some 0x00000034#32 := by decide

/-! ### Witnesses: good registers -/

theorem storesOk_pixelsA : StoresOk pixelsA := ⟨by decide, by decide, by decide, by decide⟩

theorem errcodeOk_of {r : Regs} (h1 : r.errcode = none) (h2 : r.phase ≠ .error) : ErrcodeOk r :=
  ⟨⟨fun h => absurd h1 h, fun h => absurd h h2⟩, by simp [h1]⟩

theorem regsOk_reset_registers : RegsOk Regs.reset :=
  ⟨⟨by decide, by decide, by decide, by decide⟩, errcodeOk_of rfl (by decide), show (0#16).toNat = 0 by decide⟩

theorem regsOk_streamA : RegsOk streamA :=
  ⟨⟨by decide, by decide, by decide, by decide⟩, errcodeOk_of rfl (by decide),
    show StreamConfigOk streamA ∧ _ from ⟨⟨by decide, by decide, by decide, by decide, by decide⟩, by decide⟩⟩

/-- The registers of Scenario A after FRAME and after the second and third PIX satisfy the invariants of 40 R120. -/
theorem regsOk_pixelsA : RegsOk pixelsA :=
  ⟨storesOk_pixelsA, errcodeOk_of rfl (by decide),
    show StreamConfigOk pixelsA ∧ _ from
      ⟨⟨by decide, by decide, by decide, by decide, by decide⟩, by decide,
        ⟨by decide, by decide, by decide, by decide, by decide, by decide, by decide⟩,
        ⟨by decide, by decide, by decide, by decide⟩, ⟨by decide, by decide, by decide⟩, ⟨by decide, by decide, by decide⟩,
        ⟨by decide, by decide, by decide⟩⟩⟩

theorem regsOk_secondA : RegsOk secondA :=
  ⟨⟨by decide, by decide, by decide, by decide⟩, errcodeOk_of rfl (by decide),
    show StreamConfigOk secondA ∧ _ from
      ⟨⟨by decide, by decide, by decide, by decide, by decide⟩, by decide,
        ⟨by decide, by decide, by decide, by decide, by decide, by decide, by decide⟩,
        ⟨by decide, by decide, by decide, by decide⟩, ⟨by decide, by decide, by decide⟩, ⟨by decide, by decide, by decide⟩,
        ⟨by decide, by decide, by decide⟩⟩⟩

theorem regsOk_thirdA : RegsOk thirdA :=
  ⟨⟨by decide, by decide, by decide, by decide⟩, errcodeOk_of rfl (by decide),
    show StreamConfigOk thirdA ∧ _ from
      ⟨⟨by decide, by decide, by decide, by decide, by decide⟩, by decide,
        ⟨by decide, by decide, by decide, by decide, by decide, by decide, by decide⟩,
        ⟨by decide, by decide, by decide, by decide⟩, ⟨by decide, by decide, by decide⟩, ⟨by decide, by decide, by decide⟩,
        ⟨by decide, by decide, by decide⟩⟩⟩

/-- The dictionary of `pixelsFull` is in canonical form: a list of the keys lo, lo + 1, ... is rising. -/
theorem rising_range {α : Type} (f : Nat → α) (bound : Nat) :
    ∀ n lo, lo + n ≤ bound → Memory.rising lo bound ((List.range' lo n).map (fun i => (i, f i))) = true
  | 0, _, _ => rfl
  | n + 1, lo, h => by
    simp only [List.range'_succ, List.map_cons, Memory.rising, Bool.and_eq_true, decide_eq_true_eq]
    exact ⟨⟨Nat.le_refl _, by omega⟩, rising_range f bound n (lo + 1) (by omega)⟩

theorem fullCount_eq : fullCount = 3838 := by unfold fullCount; rfl

theorem rising_full (bound : Nat) (h : 3838 ≤ bound) : Memory.rising 0 bound fullDict = true := by
  have hc := fullCount_eq
  unfold fullDict
  rw [List.range_eq_range']
  exact rising_range (fun i => BitVec.ofNat 12 (258 + i)) bound fullCount 0 (by omega)

theorem full_pair_absent : dictLookup pixelsFull pixelsFull.cur 5#8 = none :=
  find_eq_none_of_bound (bound := 3838) (by decide) (rising_full 3838 (Nat.le_refl _))

theorem fullDict_codes : fullDict.map (fun e => e.2.toNat) = List.range' 258 fullCount := by
  have hc := fullCount_eq
  unfold fullDict
  rw [List.map_map, List.range'_eq_map_range]
  refine List.map_congr_left fun i hi => ?_
  have := List.mem_range.mp hi
  simp only [Function.comp, BitVec.toNat_ofNat]
  omega

theorem codesOk_full : CodesOk pixelsFull := by
  have hc := fullCount_eq
  have hff : firstFree pixelsFull = 258 := by decide
  have hnx : pixelsFull.nextcode.toNat = 4096 := by decide
  refine ⟨by omega, by omega, ?_⟩
  have hd : pixelsFull.dict = fullDict := rfl
  rw [hff, hnx, hd, fullDict_codes, hc]

/-- Inside a frame with the dictionary full: the boundary NEXTCODE = 4096 of 40 R120 (b). -/
theorem regsOk_pixelsFull : RegsOk pixelsFull :=
  ⟨⟨by decide, by decide, by decide, rising_full 1048576 (by omega)⟩, errcodeOk_of rfl (by decide),
    show StreamConfigOk pixelsFull ∧ _ from
      ⟨⟨by decide, by decide, by decide, by decide, by decide⟩, by decide,
        ⟨by decide, by decide, by decide, by decide, by decide, by decide, by decide⟩,
        ⟨by decide, by decide, by decide, by decide⟩, codesOk_full, ⟨by decide, by decide, by decide⟩,
        ⟨by decide, by decide, by decide⟩⟩⟩

/-- The held state of Scenario A satisfies the invariant. -/
theorem invariant_heldA : Invariant heldA := by
  have hm : MidOk configuredA := ⟨⟨by decide, by decide, by decide, by decide⟩, rfl, by decide⟩
  refine ⟨⟨fun o ho => ?_, ?_⟩, rfl⟩
  · have : o.regs = configuredA := by
      have h : ∀ o ∈ (beginMicro configuredA).offers, o.regs = configuredA := by decide
      exact h o (List.mem_of_mem_drop ho)
    rw [this]
    exact hm
  · exact ⟨⟨by decide, by decide, by decide, by decide⟩, errcodeOk_of rfl (by decide),
      show StreamConfigOk { configuredA with phase := .stream } ∧ _ from
        ⟨⟨by decide, by decide, by decide, by decide, by decide⟩, by decide⟩⟩

/-- The words of Scenario A, in spec/95's order; then SETFW, illegal in DONE (95 2.4), and RST. -/
def wordsA : List HostMove :=
  [0x10000002#32, 0x11000002#32, 0x12000001#32, 0x15FF0000#32, 0x20000000#32, 0x32000002#32, 0x33000002#32, 0x40000000#32,
   0x41000000#32, 0x41000000#32, 0x41000000#32, 0x41000000#32, 0x32000001#32, 0x01000000#32].map HostMove.word

theorem answers_of {a : Answered} {t : State} (h : stateOf a = some t) : a = .next t := by
  unfold stateOf at h
  split at h
  · rw [Option.some.injEq] at h
    rw [h]
  · simp at h

theorem reached_of {s t : State} (h : Reached s) (e : stateOf (step s) = some t) : Reached t := by
  unfold stateOf at e
  split at e
  · rename_i u hu
    rw [Option.some.injEq] at e
    exact .next s t h (e ▸ hu)
  · simp at e

/-- Scenario A, its first words carried out and the others still to come. -/
def runningA (r : Regs) (out : List Byte) (n : Nat) : State := { withRegs r with out := out, host := wordsA.drop n }

/-- What BEGIN delivers in Scenario A (95 F1). -/
def headA : List Byte :=
  [0x47#8, 0x49#8, 0x46#8, 0x38#8, 0x39#8, 0x61#8, 0x02#8, 0x00#8, 0x02#8, 0x00#8, 0x80#8, 0x00#8, 0x00#8, 0xFF#8, 0x00#8, 0x00#8,
   0x00#8, 0x00#8, 0x00#8]

/-- What FRAME delivers in Scenario A (95 V-A). -/
def frameHeadA : List Byte := [0x2C#8, 0x00#8, 0x00#8, 0x00#8, 0x00#8, 0x02#8, 0x00#8, 0x02#8, 0x00#8, 0x00#8, 0x02#8]

/-- Scenario A after its last PIX (95 V-A). -/
def doneA : Regs :=
  { thirdA with
    phase := .done, fdone := 1#16, pixcnt := 4#32, cur := 0#12, nextcode := 8#13, nbits := 4#4, acc := 0#19, bitcnt := 0#5
    dict := [(0, 6#12), (1536, 7#12)], sbbuf := [(0, 0x84#8), (1, 0x51#8)] }

/-- Scenario A reaches PIXELS from reset. -/
theorem reached_frameA : Reached (runningA pixelsA (headA ++ frameHeadA) 8) := by
  have e1 : Reached (runningA Regs.reset [] 0) := .start wordsA ⟨[], .accept⟩
  have e2 : Reached (runningA { Regs.reset with canvw := 2#16 } [] 1) := reached_of e1 (by decide)
  have e3 : Reached (runningA { Regs.reset with canvw := 2#16, canvh := 2#16 } [] 2) := reached_of e2 (by decide)
  have e4 : Reached (runningA { Regs.reset with canvw := 2#16, canvh := 2#16, nframes := 1#16 } [] 3) := reached_of e3 (by decide)
  have e5 : Reached (runningA configuredA [] 4) := reached_of e4 (by decide)
  have e6 : Reached (runningA { configuredA with phase := .stream } headA 5) := reached_of e5 (by decide)
  have e7 : Reached (runningA { configuredA with phase := .stream, fw := 2#16 } headA 6) := reached_of e6 (by decide)
  have e8 : Reached (runningA streamA headA 7) := reached_of e7 (by decide)
  exact reached_of e8 (by decide)

theorem reached_pixelsA : ∃ s, Reached s ∧ Ready s ∧ s.regs = pixelsA := ⟨_, reached_frameA, rfl, rfl⟩

/-- What Scenario A delivers in all (95 V-A). -/
def outA : List Byte := headA ++ frameHeadA ++ [0x02#8, 0x84#8, 0x51#8, 0x00#8, 0x3B#8]

/-- Scenario A reaches the last PIX from reset. -/
theorem reached_thirdA : Reached (runningA thirdA (headA ++ frameHeadA) 11) := by
  have e1 : Reached (runningA { pixelsA with pixcnt := 1#32 } (headA ++ frameHeadA) 9) := reached_of reached_frameA (by decide)
  have e2 : Reached (runningA secondA (headA ++ frameHeadA) 10) := reached_of e1 (by decide)
  exact reached_of e2 (by decide)

/-- Scenario A reaches DONE from reset. -/
theorem reached_doneA : Reached (runningA doneA outA 12) := reached_of reached_thirdA (by decide)

/-- The SETFW in DONE enters ERROR. -/
theorem reached_faultedA :
    Reached (runningA { doneA with phase := .error, errcode := some .illegalCommand } outA 13) := reached_of reached_doneA (by decide)

/-- Scenario A with a sink that does not answer the first byte of BEGIN at once. -/
def slowA (r : Regs) (n : Nat) : State := { runningA r [] n with sink := ⟨[.withhold], .accept⟩ }

/-- Its BEGIN is held. -/
def slowHeldA : State :=
  { runningA configuredA [] 5 with held := some ⟨(beginMicro configuredA).offers, none, { configuredA with phase := .stream }⟩ }

theorem reached_slowHeldA : Reached slowHeldA := by
  have e1 : Reached (slowA Regs.reset 0) := .start wordsA ⟨[.withhold], .accept⟩
  have e2 : Reached (slowA { Regs.reset with canvw := 2#16 } 1) := reached_of e1 (by decide)
  have e3 : Reached (slowA { Regs.reset with canvw := 2#16, canvh := 2#16 } 2) := reached_of e2 (by decide)
  have e4 : Reached (slowA { Regs.reset with canvw := 2#16, canvh := 2#16, nframes := 1#16 } 3) := reached_of e3 (by decide)
  have e5 : Reached (slowA configuredA 4) := reached_of e4 (by decide)
  exact reached_of e5 (by decide)

/-! ### Witnesses: for each statement with hypotheses, a state and operands that meet them together -/

theorem acceptsAll_reset : AcceptsAll State.reset.sink := ⟨rfl, by simp [State.reset]⟩

theorem test_witness_EncodeOfDecode : decode 0x35000003#32 = .ok (.setff 1#1 1#1) := by decide

/-- Both ends of a field: the row of PIX matches with its operand all zeros and all ones. -/
theorem test_witness_WordIsCommandExactlyWhenRowMatches :
    0x41000000#32 &&& (opcodeRow (.pix 0#8)).mask = (opcodeRow (.pix 0#8)).mat ∧
    0x410000FF#32 &&& (opcodeRow (.pix 0#8)).mask = (opcodeRow (.pix 0#8)).mat ∧
    decode 0x410000FF#32 = .ok (.pix 255#8) := by decide

theorem no_row_zero : ∀ i : Instr, 0x00000000#32 &&& (opcodeRow i).mask ≠ (opcodeRow i).mat := by
  intro i
  cases i <;> (simp only [opcodeRow]; decide)

/-- The all-zero word, in IDLE and in ERROR. -/
theorem test_witness_UnmatchedWordIsIllegal :
    (∃ (s : State) (rest : List HostMove), Ready s ∧ s.host = .word 0x00000000#32 :: rest ∧ s.regs.phase = .idle) ∧
    (∃ (s : State) (rest : List HostMove), Ready s ∧ s.host = .word 0x00000000#32 :: rest ∧ s.regs.phase = .error) ∧
    (∀ i : Instr, 0x00000000#32 &&& (opcodeRow i).mask ≠ (opcodeRow i).mat) :=
  ⟨⟨{ State.reset with host := [.word 0x00000000#32] }, [], rfl, rfl, rfl⟩,
    ⟨{ withRegs { Regs.reset with phase := .error, errcode := some .badConfig } with host := [.word 0x00000000#32] }, [],
      rfl, rfl, rfl⟩, no_row_zero⟩

theorem test_witness_ResetLeavesResetValues :
    (∃ s t : State, Ready s ∧ exec .rst s = .next t) ∧
    (∃ (s t : State) (rest : List HostMove), Ready s ∧ s.host = .resetPin :: rest ∧ step s = .next t) :=
  ⟨⟨State.reset, _, rfl, rfl⟩, ⟨{ State.reset with host := [.resetPin] }, _, [], rfl, rfl, rfl⟩⟩

theorem test_witness_StepRunsDecodedWord :
    ∃ (s : State) (rest : List HostMove), Ready s ∧ s.host = .word 0x10000280#32 :: rest ∧ decode 0x10000280#32 = .ok (.setw 640#16) :=
  ⟨{ State.reset with host := [.word 0x10000280#32] }, [], rfl, rfl, by decide⟩

/-- The five branches of the dispatcher: RST; a word in ERROR; no row; not legal in the phase; legal. -/
theorem test_witness_DispatcherTestsInOrder :
    (∃ (s : State) (rest : List HostMove), Ready s ∧ s.host = .word 0x01000000#32 :: rest ∧ s.regs.phase = .error) ∧
    (∃ (s : State) (rest : List HostMove), Ready s ∧ s.host = .word 0x01000001#32 :: rest ∧ s.regs.phase = .error) ∧
    (∃ (s : State) (rest : List HostMove), Ready s ∧ s.host = .word 0x01000001#32 :: rest ∧ s.regs.phase = .idle) ∧
    (decode 0x01000001#32).toOption = none ∧ legalIn (.pix 0#8) .idle = false ∧ legalIn .begin .idle = true :=
  ⟨⟨{ withRegs { Regs.reset with phase := .error, errcode := some .badConfig } with host := [.word 0x01000000#32] }, [], rfl, rfl, rfl⟩,
    ⟨{ withRegs { Regs.reset with phase := .error, errcode := some .badConfig } with host := [.word 0x01000001#32] }, [], rfl, rfl, rfl⟩,
    ⟨{ State.reset with host := [.word 0x01000001#32] }, [], rfl, rfl, rfl⟩, by decide, by decide, by decide⟩

theorem test_witness_WaitChangesNothing : Ready State.reset ∧ State.reset.host = [] := ⟨rfl, rfl⟩

/-- ERROR and DONE, left by RST alone. -/
theorem test_witness_RstReturnsToReset :
    (∃ s t : State, Ready s ∧ exec .rst s = .next t) ∧
    (∃ s t : State, Ready s ∧ exec .begin s = .next t ∧ s.regs.phase = .error) ∧
    (∃ s t : State, Ready s ∧ exec .begin s = .next t ∧ s.regs.phase = .done) :=
  ⟨⟨State.reset, _, rfl, rfl⟩,
    ⟨withRegs { Regs.reset with phase := .error, errcode := some .badConfig }, _, rfl, rfl, rfl⟩,
    ⟨withRegs { thirdA with phase := .done, fdone := 1#16 }, _, rfl, rfl, rfl⟩⟩

theorem test_witness_ErrorPhaseIgnoresAllButRst :
    ∃ (s : State) (rest : List HostMove), Ready s ∧ s.regs.phase = .error ∧ s.host = .word 0x20000000#32 :: rest ∧
      (0x20000000#32 : Word) ≠ 0x01000000#32 :=
  ⟨{ withRegs { Regs.reset with phase := .error, errcode := some .badConfig } with host := [.word 0x20000000#32] }, [],
    rfl, rfl, rfl, by decide⟩

theorem test_witness_FaultEntryWritesTwoRegisters : (withRegs configuredA).regs = configuredA ∧ Ready (withRegs configuredA) := ⟨rfl, rfl⟩

theorem test_witness_CommandOutsideItsPhasesIsIllegal :
    (Ready State.reset ∧ State.reset.regs.phase ≠ .error ∧ legalIn (.pix 0#8) State.reset.regs.phase = false) ∧
    (∃ (s : State) (rest : List HostMove), Ready s ∧ s.regs.phase ≠ .error ∧ s.host = .word 0x41000000#32 :: rest ∧
      decode 0x41000000#32 = .ok (.pix 0#8) ∧ legalIn (.pix 0#8) s.regs.phase = false) :=
  ⟨⟨rfl, by decide, by decide⟩, ⟨{ State.reset with host := [.word 0x41000000#32] }, [], rfl, by decide, rfl, by decide, by decide⟩⟩

/-- A held state, without and with the reset pin as the next move. -/
theorem test_witness_HeldEngineTakesNoWord :
    (∃ (t : State) (run : Run), heldA.held = some run ∧ step heldA = .next t ∧ heldA.host.head? ≠ some .resetPin) ∧
    (∃ (s t : State) (run : Run), s.held = some run ∧ step s = .next t ∧ s.host = [.resetPin] ∧ t.host = []) ∧ ¬ Ready heldA :=
  ⟨⟨_, _, rfl, rfl, by simp [heldA, withRegs, State.reset]⟩, ⟨{ heldA with host := [.resetPin] }, _, _, rfl, rfl, rfl, rfl⟩,
    by simp [Ready, heldA]⟩

theorem test_witness_EveryCommandAnswers : Ready (withRegs pixelsFull) ∧ RegsOk (withRegs pixelsFull).regs :=
  ⟨rfl, regsOk_pixelsFull⟩

/-- Good registers; `err` falling on RST; `done` falling on RST and on a fault; a held step of a run; of the reading `donePinUntilRst`, its
rise at the last PIX of a run, a command in DONE, and its fall on RST. -/
theorem test_witness_PinsFollowPhase :
    (RegsOk Regs.reset ∧ RegsOk pixelsA) ∧
    (∃ s t : State, Ready s ∧ step s = .next t ∧ errPin s.regs = true ∧ errPin t.regs = false) ∧
    (∃ s t : State, Ready s ∧ step s = .next t ∧ donePinByPhase s.regs = true ∧ donePinByPhase t.regs = false ∧ errPin t.regs = false) ∧
    (∃ s t : State, Ready s ∧ step s = .next t ∧ donePinByPhase s.regs = true ∧ donePinByPhase t.regs = false ∧ errPin t.regs = true) ∧
    (∃ s : State, Reached s ∧ ¬ Ready s) ∧ Regs.reset.phase ≠ .error ∧
    (∃ s t : State, Reached s ∧ step s = .next t ∧ donePinUntilRst s.regs = false ∧ donePinUntilRst t.regs = true) ∧
    (∃ s : State, Reached s ∧ s.regs.phase = .done ∧ (.frame : Instr) ≠ .rst) ∧
    (∃ s t : State, Reached s ∧ step s = .next t ∧ donePinUntilRst s.regs = true ∧ donePinUntilRst t.regs = false) :=
  ⟨⟨regsOk_reset_registers, regsOk_pixelsA⟩,
    ⟨{ withRegs { Regs.reset with phase := .error, errcode := some .badConfig } with host := [.word 0x01000000#32] }, _, rfl, rfl, rfl, rfl⟩,
    ⟨{ withRegs doneA with host := [.word 0x01000000#32] }, _, rfl, rfl, rfl, rfl, rfl⟩,
    ⟨{ withRegs doneA with host := [.word 0x00000000#32] }, _, rfl, rfl, rfl, rfl, rfl⟩,
    ⟨slowHeldA, reached_slowHeldA, by simp [Ready, slowHeldA]⟩, by decide,
    ⟨_, runningA doneA outA 12, reached_thirdA, answers_of (by decide), by decide, by decide⟩,
    ⟨_, reached_doneA, rfl, by decide⟩,
    ⟨_, runningA Regs.reset outA 14, reached_faultedA, answers_of (by decide), by decide, by decide⟩⟩

theorem test_witness_AnimationConfigWrites : Ready State.reset ∧ State.reset.regs.phase = .idle := ⟨rfl, rfl⟩

/-- IDLE and STREAM. -/
theorem test_witness_FrameConfigWrites :
    (Ready State.reset ∧ State.reset.regs.phase = .idle) ∧ (Ready (withRegs streamA) ∧ (withRegs streamA).regs.phase = .stream) :=
  ⟨⟨rfl, rfl⟩, rfl, rfl⟩

/-- PALN = 0, the last free entry, and the full palette. -/
theorem test_witness_PalAppendsEntry :
    (Ready State.reset ∧ State.reset.regs.phase = .idle ∧ StoresOk State.reset.regs ∧ State.reset.regs.paln.toNat < 256) ∧
    (∃ r : Regs, r.phase = .idle ∧ StoresOk r ∧ r.paln.toNat = 255) ∧ (∃ r : Regs, r.phase = .idle ∧ StoresOk r ∧ r.paln.toNat = 256) :=
  ⟨⟨rfl, rfl, regsOk_reset_registers.1, by decide⟩,
    ⟨{ Regs.reset with paln := 255#9 }, rfl, ⟨by decide, by decide, by decide, by decide⟩, by decide⟩,
    ⟨{ Regs.reset with paln := 256#9 }, rfl, ⟨by decide, by decide, by decide, by decide⟩, by decide⟩⟩

/-- PALN at both ends, CBITS by the table of 95 V-P1. -/
theorem test_witness_CbitsIsLeast : (configuredA.paln.toNat = 1 ∧ colorBits configuredA = 1) ∧
    (streamWide.paln.toNat = 256 ∧ colorBits streamWide = 8 ∧ ics streamWide = 8 ∧ firstFree streamWide = 258) := by decide

/-- An entry below PALN and one above it. -/
theorem test_witness_ColorTableLayout : 0 < 2 ^ colorBits configuredA ∧ 0 < configuredA.paln.toNat ∧
    1 < 2 ^ colorBits configuredA ∧ ¬ 1 < configuredA.paln.toNat := by decide

/-- Without and with the looping extension and a transparent index. -/
theorem test_witness_BeginOpensStream :
    (Ready (withRegs configuredA) ∧ configuredA.phase = .idle ∧ AcceptsAll (withRegs configuredA).sink ∧ configuredA.nframes.toNat ≠ 0 ∧
      configuredA.paln.toNat ≠ 0 ∧ configuredA.canvw.toNat ≠ 0 ∧ configuredA.canvh.toNat ≠ 0 ∧ configuredA.trv = 0#1) ∧
    (configuredB.phase = .idle ∧ configuredB.nframes.toNat ≠ 0 ∧ configuredB.paln.toNat ≠ 0 ∧ configuredB.canvw.toNat ≠ 0 ∧
      configuredB.canvh.toNat ≠ 0 ∧ configuredB.trv = 1#1 ∧ configuredB.tridx.toNat < configuredB.paln.toNat ∧
      configuredB.loop = 1#1 ∧ 1 < configuredB.nframes.toNat) :=
  ⟨⟨rfl, rfl, acceptsAll_reset, by decide, by decide, by decide, by decide, rfl⟩, by decide⟩

theorem test_witness_BeginWithoutFramesIsEmptyAnimation :
    Ready State.reset ∧ State.reset.regs.phase = .idle ∧ State.reset.regs.nframes.toNat = 0 := ⟨rfl, rfl, rfl⟩

/-- Each cause of BadConfig (95 B2 to B5, B7 to B9). -/
theorem test_witness_BadConfigurationRaisesBadConfig :
    (∃ r : Regs, r.phase = .idle ∧ r.nframes.toNat ≠ 0 ∧ r.paln.toNat = 0) ∧
    (∃ r : Regs, r.phase = .idle ∧ r.nframes.toNat ≠ 0 ∧ r.paln.toNat ≠ 0 ∧ r.canvw.toNat = 0) ∧
    (∃ r : Regs, r.phase = .idle ∧ r.nframes.toNat ≠ 0 ∧ r.paln.toNat ≠ 0 ∧ r.canvw.toNat ≠ 0 ∧ r.canvh.toNat = 0) ∧
    (∃ r : Regs, r.phase = .idle ∧ r.nframes.toNat ≠ 0 ∧ r.trv = 1#1 ∧ r.paln.toNat = r.tridx.toNat) ∧
    (∃ r : Regs, r.phase = .stream ∧ r.fw.toNat = 0) ∧ (∃ r : Regs, r.phase = .stream ∧ r.fh.toNat = 0) ∧
    (∃ r : Regs, r.phase = .stream ∧ r.canvw.toNat + 1 = r.fx.toNat + r.fw.toNat) ∧
    (∃ r : Regs, r.phase = .stream ∧ r.canvh.toNat + 1 = r.fy.toNat + r.fh.toNat) ∧
    (∃ r : Regs, r.phase = .stream ∧ r.ftr = 1#1 ∧ r.trv = 0#1) :=
  ⟨⟨{ configuredA with paln := 0#9, pal := [] }, by decide⟩, ⟨{ configuredA with canvw := 0#16 }, by decide⟩,
    ⟨{ configuredA with canvh := 0#16 }, by decide⟩, ⟨{ configuredA with trv := 1#1, tridx := 1#8 }, by decide⟩,
    ⟨{ streamA with fw := 0#16 }, by decide⟩, ⟨{ streamA with fh := 0#16 }, by decide⟩, ⟨{ streamA with fx := 1#16 }, by decide⟩,
    ⟨{ streamA with fy := 1#16 }, by decide⟩, ⟨{ streamA with ftr := 1#1 }, by decide⟩⟩

/-- ICS = 2 (nothing enters the buffer) and ICS = 8 (one byte does). -/
theorem test_witness_FrameOpensFrame :
    (Ready (withRegs streamA) ∧ streamA.phase = .stream ∧ AcceptsAll (withRegs streamA).sink ∧ StoresOk streamA ∧
      streamA.paln.toNat ≠ 0 ∧ streamA.fw.toNat ≠ 0 ∧ streamA.fh.toNat ≠ 0 ∧
      streamA.fx.toNat + streamA.fw.toNat ≤ streamA.canvw.toNat ∧ streamA.fy.toNat + streamA.fh.toNat ≤ streamA.canvh.toNat ∧
      streamA.ftr = 0#1 ∧ ics streamA + 1 < 8) ∧
    (streamWide.phase = .stream ∧ StoresOk streamWide ∧ streamWide.paln.toNat ≠ 0 ∧ streamWide.fw.toNat ≠ 0 ∧ streamWide.fh.toNat ≠ 0 ∧
      streamWide.fx.toNat + streamWide.fw.toNat ≤ streamWide.canvw.toNat ∧
      streamWide.fy.toNat + streamWide.fh.toNat ≤ streamWide.canvh.toNat ∧ streamWide.ftr = 0#1 ∧ 8 ≤ ics streamWide + 1) :=
  ⟨⟨rfl, rfl, acceptsAll_reset, regsOk_streamA.1, by decide, by decide, by decide, by decide, by decide, rfl, by decide⟩,
    rfl, ⟨by decide, by decide, by decide, by decide⟩, by decide, by decide, by decide, by decide, by decide, rfl, by decide⟩

/-- 95 2.1: `PackCode(0xABC)` with ACC = 0x55, BITCNT = 7, NBITS = 12, and the same at the end of the buffer. -/
theorem test_witness_PackCodePacksLowBitsFirst :
    (∃ r : Regs, StoresOk r ∧ PackerOk r ∧ r.nbits.toNat = 12 ∧ 0xABC < 2 ^ r.nbits.toNat ∧ r.bitcnt.toNat = 7 ∧ r.sbcnt.toNat = 0) ∧
    (∃ r : Regs, StoresOk r ∧ PackerOk r ∧ r.nbits.toNat = 12 ∧ 0xABC < 2 ^ r.nbits.toNat ∧ r.bitcnt.toNat = 7 ∧ r.sbcnt.toNat = 253) :=
  ⟨⟨{ Regs.reset with acc := 0x55#19, bitcnt := 7#5, nbits := 12#4 }, ⟨by decide, by decide, by decide, by decide⟩,
      ⟨by decide, by decide, by decide⟩, by decide⟩,
    ⟨{ Regs.reset with acc := 0x55#19, bitcnt := 7#5, nbits := 12#4, sbcnt := 253#8 }, ⟨by decide, by decide, by decide, by decide⟩,
      ⟨by decide, by decide, by decide⟩, by decide⟩⟩

/-- SBCNT = 252 (nothing leaves) and 253 (the sub-block leaves). -/
theorem test_witness_SubPutStoresAndFlushesAt254 :
    (∃ r : Regs, StoresOk r ∧ r.sbcnt.toNat = 252) ∧ (∃ r : Regs, StoresOk r ∧ r.sbcnt.toNat = 253) :=
  ⟨⟨{ Regs.reset with sbcnt := 252#8 }, ⟨by decide, by decide, by decide, by decide⟩, by decide⟩,
    ⟨{ Regs.reset with sbcnt := 253#8 }, ⟨by decide, by decide, by decide, by decide⟩, by decide⟩⟩

/-- SBCNT = 0, 1 and 254. -/
theorem test_witness_SubFlushFramesSubBlock :
    Regs.reset.sbcnt = 0#8 ∧ (∃ r : Regs, r.sbcnt.toNat = 1) ∧ (∃ r : Regs, r.sbcnt.toNat = 254) :=
  ⟨rfl, ⟨{ Regs.reset with sbcnt := 1#8 }, rfl⟩, ⟨{ Regs.reset with sbcnt := 254#8 }, rfl⟩⟩

/-- 95 2.1: NBITS = 3 with NEXTCODE = 7 and 8, and NBITS = 12 with NEXTCODE = 4096. -/
theorem test_witness_EmitCodeWidensAfterPacking :
    (packCode 0 { Regs.reset with nbits := 3#4, nextcode := 7#13 }).stop = none ∧
    (packCode 0 { Regs.reset with nbits := 3#4, nextcode := 8#13 }).stop = none ∧
    (packCode 9 { Regs.reset with nbits := 12#4, nextcode := 4096#13 }).stop = none := by decide

theorem test_witness_EmitClearRestoresInitialState :
    1 ≤ streamWide.paln.toNat ∧ streamWide.paln.toNat ≤ 256 ∧
    (packCode (clearCode { streamWide with nbits := 12#4 }) { streamWide with nbits := 12#4 }).stop = none := by decide

theorem lzwOk_of {r : Regs} (h : RegsOk r) (hp : r.phase = .pixels) : LzwOk r := by
  have h3 := h.2.2
  unfold PhaseOk at h3
  rw [hp] at h3
  exact h3.2.2.2

theorem test_witness_FinishEmitsCurThenEofThenFlushes :
    (StoresOk thirdA ∧ thirdA.paln.toNat ≠ 0 ∧ LzwOk thirdA) ∧ (StoresOk pixelsFull ∧ pixelsFull.paln.toNat ≠ 0 ∧ LzwOk pixelsFull) :=
  ⟨⟨regsOk_thirdA.1, by decide, lzwOk_of regsOk_thirdA rfl⟩, regsOk_pixelsFull.1, by decide, lzwOk_of regsOk_pixelsFull rfl⟩

/-- A first pixel, and the only pixel of a frame. -/
theorem test_witness_PixFirstSeedsCur :
    (Ready (withRegs pixelsA) ∧ pixelsA.phase = .pixels ∧ (0#8).toNat < pixelsA.paln.toNat ∧ pixelsA.pixcnt = 0#32 ∧
      1 < pixelsA.npix.toNat) ∧
    (∃ r : Regs, r.pixcnt = 0#32 ∧ r.npix = 1#32) :=
  ⟨⟨rfl, rfl, by decide, rfl, by decide⟩, ⟨{ pixelsA with npix := 1#32 }, rfl, rfl⟩⟩

/-- A hit, and a hit with the last pixel of a frame. -/
theorem test_witness_PixHitReplacesCur :
    (Ready (withRegs secondA) ∧ secondA.phase = .pixels ∧ (0#8).toNat < secondA.paln.toNat ∧ secondA.pixcnt ≠ 0#32 ∧
      dictLookup secondA secondA.cur 0#8 = some 6#12 ∧ secondA.pixcnt.toNat + 1 < secondA.npix.toNat) ∧
    (∃ r : Regs, r.pixcnt ≠ 0#32 ∧ dictLookup r r.cur 0#8 = some 6#12 ∧ r.pixcnt.toNat + 1 = r.npix.toNat) :=
  ⟨⟨rfl, rfl, by decide, by decide, by decide, by decide⟩, ⟨{ secondA with npix := 3#32 }, by decide, by decide, by decide⟩⟩

/-- Scenario A after its first PIX: the second one misses. -/
theorem regsOk_firstA : RegsOk { pixelsA with pixcnt := 1#32 } := by
  obtain ⟨a, b, c⟩ := regsOk_pixelsA
  refine ⟨a, b, ?_⟩
  obtain ⟨c1, c2, ⟨f1, f2, f3, f4, f5, f6, -⟩, c4⟩ := (show StreamConfigOk pixelsA ∧ _ ∧ FrameOk pixelsA ∧ LzwOk pixelsA from c)
  exact show StreamConfigOk _ ∧ _ from ⟨c1, c2, ⟨f1, f2, f3, f4, f5, f6, by decide⟩, c4⟩

/-- A miss, and a miss with the last pixel of a frame. -/
theorem test_witness_PixMissPacksCurAndLearnsPair :
    (∃ s : State, Ready s ∧ s.regs.phase = .pixels ∧ RegsOk s.regs ∧ AcceptsAll s.sink ∧ (0#8).toNat < s.regs.paln.toNat ∧
      s.regs.pixcnt ≠ 0#32 ∧ dictLookup s.regs s.regs.cur 0#8 = none ∧ s.regs.nextcode.toNat < 4096 ∧
      s.regs.pixcnt.toNat + 1 < s.regs.npix.toNat) ∧
    (∃ r : Regs, r.phase = .pixels ∧ RegsOk r ∧ (0#8).toNat < r.paln.toNat ∧ r.pixcnt ≠ 0#32 ∧ dictLookup r r.cur 0#8 = none ∧
      r.nextcode.toNat < 4096 ∧ r.pixcnt.toNat + 1 = r.npix.toNat) :=
  ⟨⟨withRegs { pixelsA with pixcnt := 1#32 }, rfl, rfl, regsOk_firstA, acceptsAll_reset, by decide, by decide, by decide, by decide,
    by decide⟩, ⟨thirdA, rfl, regsOk_thirdA, by decide, by decide, by decide, by decide, by decide⟩⟩

/-- The full dictionary with the last pixel of its frame to come. -/
theorem regsOk_lastFull : RegsOk { pixelsFull with pixcnt := 65535#32 } := by
  obtain ⟨a, b, c⟩ := regsOk_pixelsFull
  refine ⟨a, b, ?_⟩
  obtain ⟨c1, c2, ⟨f1, f2, f3, f4, f5, f6, -⟩, c4⟩ := (show StreamConfigOk pixelsFull ∧ _ ∧ FrameOk pixelsFull ∧ LzwOk pixelsFull from c)
  exact show StreamConfigOk _ ∧ _ from ⟨c1, c2, ⟨f1, f2, f3, f4, f5, f6, by decide⟩, c4⟩

/-- A miss with a full dictionary, and the same with the last pixel of a frame. -/
theorem test_witness_PixMissWithFullDictionaryClears :
    (∃ s : State, Ready s ∧ s.regs.phase = .pixels ∧ RegsOk s.regs ∧ AcceptsAll s.sink ∧ (5#8).toNat < s.regs.paln.toNat ∧
      s.regs.pixcnt ≠ 0#32 ∧ dictLookup s.regs s.regs.cur 5#8 = none ∧ s.regs.nextcode.toNat = 4096 ∧
      s.regs.pixcnt.toNat + 1 < s.regs.npix.toNat) ∧
    (∃ r : Regs, r.phase = .pixels ∧ RegsOk r ∧ (5#8).toNat < r.paln.toNat ∧ r.pixcnt ≠ 0#32 ∧ dictLookup r r.cur 5#8 = none ∧
      r.nextcode.toNat = 4096 ∧ r.pixcnt.toNat + 1 = r.npix.toNat) :=
  ⟨⟨withRegs pixelsFull, rfl, rfl, regsOk_pixelsFull, acceptsAll_reset, by decide, by decide, full_pair_absent, by decide, by decide⟩,
    ⟨{ pixelsFull with pixcnt := 65535#32 }, rfl, regsOk_lastFull, by decide, by decide, full_pair_absent, by decide, by decide⟩⟩

/-- The first index that is out of range: `PIX PALN`. -/
theorem test_witness_PixOutOfRangeRaisesPixelRange :
    Ready (withRegs pixelsA) ∧ pixelsA.phase = .pixels ∧ pixelsA.paln.toNat = (1#8).toNat := ⟨rfl, rfl, by decide⟩

/-- A pixel that is not the frame's last, and the last. -/
theorem test_witness_PixCompletes :
    (Ready (withRegs secondA) ∧ secondA.phase = .pixels ∧ RegsOk secondA ∧ AcceptsAll (withRegs secondA).sink ∧
      (0#8).toNat < secondA.paln.toNat ∧ secondA.pixcnt.toNat + 1 ≠ secondA.npix.toNat) ∧
    (thirdA.phase = .pixels ∧ RegsOk thirdA ∧ (0#8).toNat < thirdA.paln.toNat ∧ thirdA.pixcnt.toNat + 1 = thirdA.npix.toNat) :=
  ⟨⟨rfl, rfl, regsOk_secondA, acceptsAll_reset, by decide, by decide⟩, rfl, regsOk_thirdA, by decide, by decide⟩

/-- The last frame of a run, and a frame that is not the last. -/
theorem test_witness_EndFrameActsInOrder :
    (lzwFinish thirdA).stop = none ∧ thirdA.fdone.toNat < 65535 ∧
    BitVec.ofNat 16 (thirdA.fdone.toNat + 1) = thirdA.nframes ∧
    BitVec.ofNat 16 (thirdA.fdone.toNat + 1) ≠ ({ thirdA with nframes := 2#16 } : Regs).nframes := by decide

theorem regsOk_thirdOfTwo : RegsOk { thirdA with nframes := 2#16 } := by
  obtain ⟨a, b, c⟩ := regsOk_thirdA
  refine ⟨a, b, ?_⟩
  obtain ⟨-, -, c3, c4⟩ := (show StreamConfigOk thirdA ∧ _ ∧ FrameOk thirdA ∧ LzwOk thirdA from c)
  exact show StreamConfigOk _ ∧ _ from ⟨⟨by decide, by decide, by decide, by decide, by decide⟩, by decide, c3, c4⟩

theorem test_witness_LastPixClosesFrame :
    (Ready (withRegs thirdA) ∧ thirdA.phase = .pixels ∧ RegsOk thirdA ∧ AcceptsAll (withRegs thirdA).sink ∧
      (0#8).toNat < thirdA.paln.toNat ∧ thirdA.pixcnt.toNat + 1 = thirdA.npix.toNat ∧
      thirdA.fdone.toNat + 1 = thirdA.nframes.toNat) ∧
    (∃ r : Regs, r.phase = .pixels ∧ RegsOk r ∧ (0#8).toNat < r.paln.toNat ∧ r.pixcnt.toNat + 1 = r.npix.toNat ∧
      r.fdone.toNat + 1 < r.nframes.toNat) :=
  ⟨⟨rfl, rfl, regsOk_thirdA, acceptsAll_reset, by decide, by decide, by decide⟩,
    ⟨_, rfl, regsOk_thirdOfTwo, by decide, by decide, by decide⟩⟩

/-- A first pixel, a hit, a miss and a miss with the dictionary full. -/
theorem test_witness_PixOffersNothingOrOneFullSubBlock :
    (RegsOk pixelsA ∧ pixelsA.phase = .pixels ∧ (0#8).toNat < pixelsA.paln.toNat ∧ pixelsA.pixcnt.toNat + 1 < pixelsA.npix.toNat) ∧
    (RegsOk secondA ∧ secondA.phase = .pixels ∧ (0#8).toNat < secondA.paln.toNat ∧ secondA.pixcnt.toNat + 1 < secondA.npix.toNat) ∧
    (RegsOk pixelsFull ∧ pixelsFull.phase = .pixels ∧ (5#8).toNat < pixelsFull.paln.toNat ∧
      pixelsFull.pixcnt.toNat + 1 < pixelsFull.npix.toNat) :=
  ⟨⟨regsOk_pixelsA, rfl, by decide, by decide⟩, ⟨regsOk_secondA, rfl, by decide, by decide⟩, regsOk_pixelsFull, rfl, by decide, by decide⟩

theorem test_witness_PixOffersAtMost512 : RegsOk thirdA ∧ thirdA.phase = .pixels := ⟨regsOk_thirdA, rfl⟩

theorem test_witness_WidthLaw : ∃ s : State, Reached s ∧ Ready s ∧ s.regs.phase = .pixels := by
  obtain ⟨s, h1, h2, h3⟩ := reached_pixelsA
  exact ⟨s, h1, h2, by rw [h3]; rfl⟩

/-- The first byte refused, and the third; a PIX that is not the last of its frame, and one that is. -/
theorem test_witness_SinkErrorDeliversExactPrefix :
    (∃ o, (beginMicro configuredA).offers[0]? = some o ∧
      ({ withRegs configuredA with sink := ⟨[.error], .accept⟩ } : State).sink = ⟨List.replicate 0 .accept ++ .error :: [], .accept⟩) ∧
    (∃ o, (beginMicro configuredA).offers[2]? = some o ∧
      ({ withRegs configuredA with sink := ⟨[.accept, .accept, .error], .accept⟩ } : State).sink =
        ⟨List.replicate 2 .accept ++ .error :: [], .accept⟩) ∧
    (RegsOk pixelsA ∧ pixelsA.phase = .pixels ∧ (0#8).toNat < pixelsA.paln.toNat ∧ pixelsA.pixcnt.toNat + 1 ≠ pixelsA.npix.toNat) ∧
    (RegsOk thirdA ∧ thirdA.phase = .pixels ∧ (0#8).toNat < thirdA.paln.toNat ∧ thirdA.pixcnt.toNat + 1 = thirdA.npix.toNat) :=
  ⟨⟨⟨configuredA, 0x47#8⟩, by decide, rfl⟩, ⟨⟨configuredA, 0x46#8⟩, by decide, rfl⟩,
    ⟨regsOk_pixelsA, rfl, by decide, by decide⟩, ⟨regsOk_thirdA, rfl, by decide, by decide⟩⟩

/-- 95 2.4, last row but one: FRAME in DONE; STATUS `00010074`, and `err = 1` replaces `done = 1`, as 10 R50 has it, where 60 R198 leaves `done` at 1 (log 17). -/
theorem test_frame_in_done :
    statusOf (exec .frame (withRegs doneA)) = some 0x00010074#32 ∧
    (regsOf (exec .frame (withRegs doneA))).map (fun r => (donePinByPhase r, errPin r, donePinUntilRst r)) = some (false, true, true) := by decide

/-- 95 2.5, k = 20: FRAME refused at the first byte of FX; `PIXCNT = 0` and the compressor is as it was. -/
theorem test_frame_refused :
    regsOf (exec .frame { withRegs streamA with sink := ⟨[.accept, .error], .accept⟩ }) =
      some { streamA with phase := .error, errcode := some .sinkIOError } := by decide

theorem test_witness_DelayedAnswerChangesNothing :
    ∃ (s : State) (o : Offer), (beginMicro configuredA).offers[1]? = some o ∧
      s.sink = ⟨List.replicate 1 .accept ++ .withhold :: [.accept], .accept⟩ ∧ s.host.head? ≠ some .resetPin :=
  ⟨{ withRegs configuredA with sink := ⟨[.accept, .withhold, .accept], .accept⟩ }, ⟨configuredA, 0x49#8⟩, by decide, rfl, by simp [withRegs, State.reset]⟩

theorem test_witness_HeldStepWaitsForSink :
    ∃ (run : Run) (o : Offer), heldA.held = some run ∧ run.offers.head? = some o ∧ heldA.regs = o.regs ∧
      sinkAnswer heldA.sink = .withhold ∧ heldA.host.head? ≠ some .resetPin :=
  ⟨_, ⟨configuredA, 0x49#8⟩, rfl, by decide, rfl, rfl, by simp [heldA, withRegs, State.reset]⟩

theorem test_witness_ResetPinActsAsRst :
    (∃ (s : State) (rest : List HostMove), Ready s ∧ s.host = .resetPin :: rest) ∧
    (∃ (s : State) (run : Run) (rest : List HostMove), s.held = some run ∧ s.host = .resetPin :: rest ∧ sinkAnswer s.sink = .withhold) :=
  ⟨⟨{ withRegs configuredA with host := [.resetPin] }, [], rfl, rfl⟩, ⟨{ heldA with host := [.resetPin] }, _, [], rfl, rfl, rfl⟩⟩

/-- A configuration command that completes, and one that is illegal. -/
theorem test_witness_ConfigCommandFrames :
    (∃ t, exec (.setw 640#16) State.reset = .next t) ∧ (∃ t, exec (.setw 640#16) (withRegs streamA) = .next t) := ⟨⟨_, rfl⟩, ⟨_, rfl⟩⟩

theorem frame_answers : exec .frame (withRegs streamA) =
    .next { withRegs pixelsA with
      out := frameHeadA } := answers_of (by decide)

theorem begin_answers : exec .begin (withRegs configuredA) =
    .next { withRegs { configuredA with phase := .stream } with out := headA } := answers_of (by decide)

theorem pix_hit_answers : exec (.pix 0#8) (withRegs secondA) = .next (withRegs thirdA) := answers_of (by decide)

/-- The last PIX of Scenario A (95 V-A): the state it leaves. -/
theorem pix_last_answers : exec (.pix 0#8) (withRegs thirdA) =
    .next { withRegs doneA with out := [0x02#8, 0x84#8, 0x51#8, 0x00#8, 0x3B#8] } := answers_of (by decide)

theorem test_witness_StreamCommandFrames :
    (∃ s t : State, exec .begin s = .next t) ∧ (∃ s t : State, exec .frame s = .next t) ∧
    (∃ s t : State, exec (.pix 0#8) s = .next t) := ⟨⟨_, _, begin_answers⟩, ⟨_, _, frame_answers⟩, ⟨_, _, pix_hit_answers⟩⟩

/-- Between steps, and in a held step. -/
theorem test_witness_StepKeepsInvariant :
    (∃ t, Invariant State.reset ∧ step State.reset = .next t) ∧ (∃ t, Invariant heldA ∧ step heldA = .next t) :=
  ⟨⟨_, regsOk_reset_registers, rfl⟩, ⟨_, invariant_heldA, rfl⟩⟩

theorem test_witness_InvariantStatesNeverStop : Invariant heldA ∧ Invariant (withRegs pixelsFull) := ⟨invariant_heldA, regsOk_pixelsFull⟩

theorem test_witness_NoRunReachesInvariantViolation :
    2 ^ (3#4).toNat ≤ 8 ∧ (∃ s : State, Reached s ∧ s.regs = pixelsA) := by
  obtain ⟨s, h1, -, h3⟩ := reached_pixelsA
  exact ⟨by decide, s, h1, h3⟩

theorem test_witness_OutOnlyGrows : ∃ t, step { State.reset with host := [.word 0x01000000#32] } = .next t := ⟨_, rfl⟩

/-- Every change the list names: BEGIN, FRAME, the last PIX, a fault, RST; and a held BEGIN of a run, which then comes to its end. -/
theorem test_witness_PhaseChangesOnlyAsListed :
    (∃ s t : State, Ready s ∧ exec .begin s = .next t ∧ t.held = none ∧ t.regs.phase = .stream) ∧
    (∃ s t : State, Ready s ∧ exec .frame s = .next t ∧ t.held = none ∧ t.regs.phase = .pixels) ∧
    (∃ s t : State, Ready s ∧ exec (.pix 0#8) s = .next t ∧ t.held = none ∧ t.regs.phase = .done) ∧
    (∃ s t : State, Ready s ∧ exec .begin s = .next t ∧ t.held = none ∧ t.regs.phase = .error) ∧
    (∃ s t : State, Ready s ∧ s.regs.phase = .stream ∧ exec .rst s = .next t ∧ t.held = none ∧ t.regs.phase = .idle) ∧
    (∃ s t : State, Reached s ∧ ¬ Ready s ∧ step s = .next t ∧ s.regs.phase = .idle ∧ t.regs.phase = .stream) :=
  ⟨⟨withRegs configuredA, _, rfl, begin_answers, rfl, rfl⟩, ⟨withRegs streamA, _, rfl, frame_answers, rfl, rfl⟩,
    ⟨withRegs thirdA, _, rfl, pix_last_answers, rfl, rfl⟩,
    ⟨State.reset, _, rfl, rfl, rfl, rfl⟩, ⟨withRegs streamA, _, rfl, rfl, rfl, rfl, rfl⟩,
    ⟨slowHeldA, runningA { configuredA with phase := .stream } headA 5, reached_slowHeldA, by simp [Ready, slowHeldA],
      answers_of (by decide), rfl, rfl⟩⟩

/-- The last PIX at once; the same held at the trailer; Scenario A from reset. -/
theorem test_witness_DoneMeansTrailerDelivered :
    (∃ s t : State, Ready s ∧ exec (.pix 0#8) s = .next t ∧ t.held = none ∧ s.regs.phase ≠ .done ∧ t.regs.phase = .done) ∧
    (∃ (s t : State) (run : Run), s.held = some run ∧ offeredBytes run = [0x3B#8] ∧ step s = .next t ∧ t.held = none ∧
      t.regs.phase = .done) ∧
    (∃ s : State, Reached s ∧ s.regs.phase = .done) :=
  ⟨⟨withRegs thirdA, _, rfl, pix_last_answers, rfl, by decide, rfl⟩,
    ⟨{ withRegs thirdA with held := some ⟨[⟨thirdA, 0x3B#8⟩], none, doneA⟩ }, _, _, rfl, rfl, rfl, rfl, rfl⟩,
    ⟨_, reached_doneA, rfl⟩⟩

theorem test_witness_AnimationConfigFixedAfterBegin :
    ∃ s t : State, s.regs.phase ≠ .idle ∧ (.frame : Instr) ≠ .rst ∧ exec .frame s = .next t :=
  ⟨_, _, by decide, by decide, frame_answers⟩

theorem test_witness_AssemblerWordsDecode : ∃ ws, assembleLine (.settr 1 255) = .ok ws := ⟨[0x140001FF#32], by decide⟩

end Sys2Proof.Tests
end

section
/-! The step, case by case: one equation for each way the engine can stand when a step begins (00 R11, 20 R75, 42 R160, 70 R220, R230). -/

namespace Sys2Proof.Machine

variable {s : State} {w : Word} {rest : List HostMove}

theorem step_of_held {run : Run} (hheld : s.held = some run) : step s = resume run s := by
  simp only [step, hheld]

theorem step_of_no_move (hready : Ready s) (hhost : s.host = []) : step s = .next s := by
  unfold Ready at hready
  simp only [step, hready, hhost]

theorem step_of_resetPin (hready : Ready s) (hhost : s.host = .resetPin :: rest) :
    step s = resetInput { s with host := rest } := by
  unfold Ready at hready
  simp only [step, hready, hhost]

theorem step_of_decode_ok {i : Instr} (hready : Ready s) (hhost : s.host = .word w :: rest) (hdecode : decode w = .ok i) :
    step s = exec i { s with host := rest } := by
  unfold Ready at hready
  simp only [step, hready, hhost, hdecode]

theorem step_of_decode_error {e : Reject} (hready : Ready s) (hhost : s.host = .word w :: rest)
    (hdecode : decode w = .error e) : step s = illegalWord { s with host := rest } := by
  unfold Ready at hready
  simp only [step, hready, hhost, hdecode]

/-- Settles O7: it is the equation of `step` for a word that decodes. -/
theorem stepRunsDecodedWord : Obligations.StepRunsDecodedWord :=
  fun _ _ _ _ hready hhost hdecode => step_of_decode_ok hready hhost hdecode

end Sys2Proof.Machine
end

section
/-! The dispatcher as one table: the pseudocode of each command, and everything one step can do (42 R160, 20 R75, 70 R220, R230). -/

namespace Sys2Proof.Machine

/-- The pseudocode of a command (42 R160, "the command's own rule"). RST is not dispatched this way (`execRst`), and has none here. -/
def microOf : Instr → Micro
  | .rst => pass
  | .setw v => write (fun r => { r with canvw := v })
  | .seth v => write (fun r => { r with canvh := v })
  | .setnf v => write (fun r => { r with nframes := v })
  | .setloop lp => write (fun r => { r with loop := lp })
  | .settr tv ti => write (fun r => { r with trv := tv, tridx := ti })
  | .pal r g b => palMicro (rgbOf r g b)
  | .begin => beginMicro
  | .setfx v => write (fun r => { r with fx := v })
  | .setfy v => write (fun r => { r with fy := v })
  | .setfw v => write (fun r => { r with fw := v })
  | .setfh v => write (fun r => { r with fh := v })
  | .setfd v => write (fun r => { r with fdelay := v })
  | .setff tr il => write (fun r => { r with ftr := tr, fil := il })
  | .frame => frameMicro
  | .pix c => pixMicro c

/-- Every command but RST goes through the dispatcher's rule R160, with its row of the phase table (42 R175). -/
theorem exec_eq_command {i : Instr} (hi : i ≠ .rst) (s : State) : exec i s = command (legalIn i) (microOf i) s := by
  have of_legalIn : ∀ {legal : Phase → Bool} {m : Micro}, legalIn i = legal → command legal m s = command (legalIn i) m s :=
    fun h => by rw [h]
  cases i with
  | rst => exact absurd rfl hi
  | setw | seth | setnf | setloop | settr | pal | begin | setfx | setfy | setfw | setfh | setfd | setff | frame | pix =>
    exact of_legalIn (by funext p; cases p <;> rfl)

theorem legalIn_done {i : Instr} (hi : i ≠ .rst) : legalIn i .done = false := by
  cases i with
  | rst => exact absurd rfl hi
  | _ => rfl

theorem legalIn_error {i : Instr} (hi : i ≠ .rst) : legalIn i .error = false := by
  cases i with
  | rst => exact absurd rfl hi
  | _ => rfl

/-- A command other than RST is legal only while a stream is being made (42 R175). -/
theorem phase_of_legalIn {i : Instr} {p : Phase} (hi : i ≠ .rst) (h : legalIn i p = true) : p ≠ .done ∧ p ≠ .error := by
  constructor
  · rintro rfl
    simp [legalIn_done hi] at h
  · rintro rfl
    simp [legalIn_error hi] at h

theorem word_of_decode_rst {w : Word} (h : decode w = .ok .rst) : w = 0x01000000#32 := by
  unfold decode at h
  split at h
  · simp at h
  · split at h
    · rename_i i hrow
      injection h with h
      subst h
      have hmask : w &&& (opcodeRow .rst).mask = w := BitVec.and_allOnes
      exact hmask.symm.trans hrow
    · simp at h

/-- What one step can do, rule by rule. -/
inductive StepRule (s : State) : State → Prop
  /-- no move of the host: the block waits (70 R230) -/
  | wait : s.held = none → s.host = [] → StepRule s s
  /-- a word in ERROR is consumed and ignored (60 R201) -/
  | ignore {w : Word} {rest : List HostMove} : s.held = none → s.host = .word w :: rest → s.regs.phase = .error →
      StepRule s { s with host := rest }
  /-- RST or the reset pin (42 R161, 70 R220) -/
  | reset {move : HostMove} {rest : List HostMove} : s.held = none → s.host = move :: rest →
      move = .resetPin ∨ move = .word 0x01000000#32 → StepRule s (resetBlock { s with host := rest })
  /-- a word turned away: it is no command, or its command is not legal in the phase (30 R83, 60 R197) -/
  | turnAway {w : Word} {rest : List HostMove} : s.held = none → s.host = .word w :: rest → s.regs.phase ≠ .error →
      StepRule s { s with host := rest, regs := enterError .illegalCommand s.regs, held := none }
  /-- a legal command, its pseudocode against the sink (42 R160) -/
  | run {i : Instr} {w : Word} {rest : List HostMove} {t : State} : s.held = none → s.host = .word w :: rest → i ≠ .rst →
      legalIn i s.regs.phase = true → deliver (microOf i s.regs) { s with host := rest } = .next t → StepRule s t
  /-- the held step goes on (20 R75) -/
  | resume {run : Run} {t : State} : s.held = some run → deliver run s = .next t → StepRule s t
  /-- the reset pin while the sink withholds its answer (70 R220) -/
  | resetHeld {run : Run} {rest : List HostMove} : s.held = some run → s.host = .resetPin :: rest →
      StepRule s (resetBlock { s with sink := sinkNext s.sink, host := rest })

variable {s t : State}

theorem stepRule_of_resume {run : Run} (hheld : s.held = some run) (h : resume run s = .next t) : StepRule s t := by
  unfold resume at h
  split at h
  · next rest _ hhost =>
    injection h with h
    exact h ▸ .resetHeld hheld hhost
  · exact .resume hheld h

/-- The three answers of the dispatcher to a word that is not RST (42 R160). -/
theorem stepRule_of_command {legal : Phase → Bool} {m : Micro} {w : Word} {rest : List HostMove} (hready : s.held = none)
    (hhost : s.host = .word w :: rest) (h : command legal m { s with host := rest } = .next t)
    (hlegal : legal s.regs.phase = true → deliver (m s.regs) { s with host := rest } = .next t → StepRule s t) :
    StepRule s t := by
  by_cases herror : s.regs.phase = .error
  · rw [command_error (s := { s with host := rest }) herror] at h
    injection h with h
    exact h ▸ .ignore hready hhost herror
  · cases hl : legal s.regs.phase with
    | false =>
      rw [command_illegal (s := { s with host := rest }) hready herror hl] at h
      injection h with h
      exact h ▸ .turnAway hready hhost herror
    | true =>
      rw [command_legal (s := { s with host := rest }) hready herror hl] at h
      exact hlegal hl h

/-- The inversion of `step`. -/
theorem stepRule_of_step (h : step s = .next t) : StepRule s t := by
  cases hheld : s.held with
  | some run => exact stepRule_of_resume hheld (step_of_held hheld ▸ h)
  | none =>
    match hhost : s.host with
    | [] =>
      rw [step_of_no_move hheld hhost] at h
      injection h with h
      exact h ▸ .wait hheld hhost
    | .resetPin :: rest =>
      rw [step_of_resetPin hheld hhost] at h
      injection h with h
      exact h ▸ .reset hheld hhost (.inl rfl)
    | .word w :: rest =>
      cases hdecode : decode w with
      | error e =>
        rw [step_of_decode_error hheld hhost hdecode] at h
        exact stepRule_of_command hheld hhost h (by simp)
      | ok i =>
        rw [step_of_decode_ok hheld hhost hdecode] at h
        by_cases hi : i = .rst
        · subst hi
          have hreset : resetBlock { s with host := rest } = t := by simpa [exec, execRst, hheld] using h
          exact hreset ▸ .reset hheld hhost (.inr (by rw [word_of_decode_rst hdecode]))
        · rw [exec_eq_command hi] at h
          exact stepRule_of_command hheld hhost h (.run hheld hhost hi)

/-- Settles O55: only `deliver` touches OUT, and it appends. -/
theorem outOnlyGrows : Obligations.OutOnlyGrows := by
  intro s t h
  cases stepRule_of_step h with
  | wait | ignore | reset | turnAway | resetHeld => exact ⟨[], by simp⟩
  | run _ _ _ _ h | resume _ h =>
    obtain ⟨-, hout, -⟩ := deliver_next_cases h
    exact hout

end Sys2Proof.Machine
end

section
/-! The registers of the machine after reset, the layout of STATUS and the derived quantities (10 R34, R35, R49, R52). -/

namespace Sys2Proof.Machine

/-! ### Reset -/

theorem regsOk_reset : RegsOk Regs.reset :=
  ⟨by unfold StoresOk; decide, by unfold ErrcodeOk; decide, show (0#16).toNat = 0 by decide⟩

/-- Settles O51: nothing is held after reset, so the invariant is that of the reset registers. -/
theorem resetSatisfiesInvariant : Obligations.ResetSatisfiesInvariant :=
  fun _ _ => regsOk_reset

theorem Memory.get_nil {w : Nat} (i : Nat) : Memory.get ([] : List (Nat × BitVec w)) i = 0 := rfl

theorem dictLookup_of_dict_nil {r : Regs} (h : r.dict = []) (p : BitVec 12) (c : Byte) : dictLookup r p c = none := by
  simp [dictLookup, h, Memory.find]

theorem exec_rst_of_ready {s : State} (hready : Ready s) : exec .rst s = .next (resetBlock s) := by
  unfold Ready at hready
  simp [exec, execRst, hready]

/-- The first check of BEGIN (41 R141). -/
theorem beginMicro_of_no_frames {r : Regs} (h : r.nframes = 0) : beginMicro r = ⟨[], some (.raise .emptyAnimation), r⟩ :=
  program_check_raise (by simp [h])

theorem exec_begin_reset : exec .begin State.reset =
    .next { State.reset with regs := { Regs.reset with errcode := some .emptyAnimation, phase := .error } } := by
  have hbegin : exec .begin State.reset = deliver (beginMicro Regs.reset) State.reset :=
    (exec_eq_command (by simp) _).trans (command_legal rfl (by decide) rfl)
  rw [hbegin, beginMicro_of_no_frames rfl, deliver_raise]
  rfl

/-- Settles O6: RST and the reset pin go through `resetBlock`, BEGIN stops at its first check, and the rest is read off the reset state. -/
theorem resetLeavesResetValues : Obligations.ResetLeavesResetValues := by
  refine ⟨⟨rfl, rfl, rfl, rfl, rfl, rfl, rfl, Memory.get_nil⟩, ⟨rfl, rfl, rfl, rfl, rfl, rfl, rfl⟩, ⟨rfl, rfl, rfl, rfl, rfl⟩,
    ⟨rfl, rfl, rfl, dictLookup_of_dict_nil rfl, rfl, rfl, Memory.get_nil, rfl⟩, by decide, ?_, ?_, exec_begin_reset⟩
  · intro s t hready h
    rw [exec_rst_of_ready hready] at h
    injection h with h
    rw [← h, resetBlock_regs]
    rfl
  · intro s t rest hready hhost h
    rw [step_of_resetPin hready hhost] at h
    injection h with h
    rw [← h, resetBlock_regs]
    rfl

/-! ### STATUS -/

/-- Appending puts the second word below the first. -/
theorem toNat_append_eq {v w : Nat} (x : BitVec v) (y : BitVec w) : (x ++ y).toNat = x.toNat * 2 ^ w + y.toNat := by
  rw [BitVec.toNat_append, ← Nat.shiftLeft_add_eq_or_of_lt y.isLt, Nat.shiftLeft_eq]

/-- STATUS as a number: the fields of 10 R49, each times the weight of its lowest bit. -/
theorem status_toNat (r : Regs) :
    (status r).toNat = r.fdone.toNat * 65536 + (errcodeBits r.errcode).toNat * 16 + (phaseBits r.phase).toNat := by
  simp only [status, toNat_append_eq, BitVec.toNat_ofNat]
  omega

/-- A field of STATUS, read off the number. -/
theorem status_field {r : Regs} {start len : Nat} {x : BitVec len} (h : (status r).toNat / 2 ^ start % 2 ^ len = x.toNat) :
    (status r).extractLsb' start len = x := by
  apply BitVec.eq_of_toNat_eq
  rw [BitVec.extractLsb'_toNat, Nat.shiftRight_eq_div_pow, h]

/-- Settles O16: each field is a quotient and a remainder of the number STATUS is. -/
theorem statusWordLayout : Obligations.StatusWordLayout := by
  refine ⟨by decide, fun r => ?_⟩
  have hword := status_toNat r
  have hcode := (errcodeBits r.errcode).isLt
  have hphase := (phaseBits r.phase).isLt
  have hfdone := r.fdone.isLt
  have hzero : ∀ w, (0#w).toNat = 0 := by simp
  exact ⟨status_field (by omega), status_field (by rw [hzero]; omega), status_field (by omega),
    status_field (by rw [hzero]; omega), status_field (by omega), hword⟩

/-! ### CBITS and what follows from it -/

/-- One bit less would not hold the palette, where CBITS is not 1 already (10 R34). -/
theorem cbits_narrowest {n : Nat} (h0 : n ≠ 0) (h : n ≤ 256) : cbits n = 1 ∨ 2 ^ (cbits n - 1) < n := by
  unfold cbits
  repeat' split
  all_goals omega

theorem cbits_le {n b : Nat} (h0 : n ≠ 0) (h : n ≤ 256) (hb : 1 ≤ b) (hwide : n ≤ 2 ^ b) : cbits n ≤ b := by
  rcases cbits_narrowest h0 h with hone | hnarrow
  · omega
  · have hlt : cbits n - 1 < b := (Nat.pow_lt_pow_iff_right Nat.one_lt_two).mp (hnarrow.trans_le hwide)
    omega

/-- Settles O21: `cbits` is a width that is wide enough and below every other, and ICS is in 2..8. -/
theorem cbitsIsLeast : Obligations.CbitsIsLeast := by
  intro r hlo hhi
  have hne : r.paln.toNat ≠ 0 := by omega
  obtain ⟨hics2, hics8, -⟩ := ics_range hne hhi
  exact ⟨cbits_range hne hhi, fun _ hb _ hwide => cbits_le hne hhi hb hwide, ⟨rfl, hics2, hics8⟩, rfl, rfl, rfl⟩

end Sys2Proof.Machine
end

section
/-! PHASE along a command's pseudocode (41 R152): every byte is offered in the phase the command began in, the new phase is the last thing
written, and IllegalCommand is the dispatcher's alone to raise (60 R197). -/

namespace Sys2Proof.Machine

/-! ### Pieces that leave PHASE alone -/

def SamePhase (r q : Regs) : Prop := q.phase = r.phase

theorem SamePhase.refl (r : Regs) : SamePhase r r := rfl

theorem SamePhase.trans (r q t : Regs) (h : SamePhase r q) (h' : SamePhase q t) : SamePhase r t := Eq.trans h' h

/-- From any registers, the piece goes only through registers of the same PHASE and does not raise IllegalCommand. -/
def HoldsPhase (p : Micro) : Prop := ∀ r, RunWithin SamePhase r (p r) ∧ (p r).stop ≠ some (.raise .illegalCommand)

@[simp] theorem holdsPhase_write {f : Regs → Regs} (h : ∀ r, (f r).phase = r.phase) : HoldsPhase (write f) :=
  fun r => ⟨within_write (h r), by simp⟩

@[simp] theorem holdsPhase_emit (f : Regs → List Byte) : HoldsPhase (emit f) :=
  fun r => ⟨within_emit SamePhase.refl f r, by simp⟩

@[simp] theorem holdsPhase_whenever {c : Regs → Bool} {p : Micro} (h : HoldsPhase p) : HoldsPhase (whenever c p) := by
  intro r
  refine ⟨within_whenever SamePhase.refl (h r).1, ?_⟩
  unfold whenever
  split
  · exact (h r).2
  · simp

@[simp] theorem holdsPhase_check (c : Regs → Bool) {e : ErrorClass} (he : e ≠ .illegalCommand) : HoldsPhase (check c e) :=
  holdsPhase_whenever fun r => ⟨within_raise SamePhase.refl e r, by simpa using he⟩

@[simp] theorem holdsPhase_guard (c : Regs → Bool) (f : Fault) : HoldsPhase (guardFault c f) :=
  holdsPhase_whenever fun r => ⟨within_stuck SamePhase.refl f r, by simp [stuck]⟩

@[simp] theorem holdsPhase_ifElse {c : Regs → Bool} {p q : Micro} (hp : HoldsPhase p) (hq : HoldsPhase q) :
    HoldsPhase (ifElse c p q) := by
  intro r
  unfold ifElse
  split
  · exact hp r
  · exact hq r

theorem holdsPhase_andThen {p q : Micro} (hp : HoldsPhase p) (hq : HoldsPhase q) : HoldsPhase (andThen p q) := by
  intro r
  refine ⟨within_andThen SamePhase.trans (hp r).1 fun t => (hq t).1, ?_⟩
  cases h : (p r).stop with
  | some st => exact andThen_of_some h ▸ (hp r).2
  | none => exact andThen_of_none h ▸ (hq _).2

theorem holdsPhase_nil : HoldsPhase (program []) := fun r => ⟨within_pass SamePhase.refl r, by simp⟩

theorem holdsPhase_program : ∀ {ps : List Micro}, (∀ p ∈ ps, HoldsPhase p) → HoldsPhase (program ps)
  | [], _ => holdsPhase_nil
  | p :: _, h => holdsPhase_andThen (h p (by simp)) (holdsPhase_program fun q hq => h q (by simp [hq]))

theorem holdsPhase_repeatTimes {p : Micro} (hp : HoldsPhase p) : ∀ n, HoldsPhase (repeatTimes n p)
  | 0 => holdsPhase_nil
  | n + 1 => holdsPhase_andThen hp (holdsPhase_repeatTimes hp n)

/-- A piece whose argument is read from the registers as they stand. -/
theorem HoldsPhase.arg {α : Type} {p : α → Micro} (h : ∀ a, HoldsPhase (p a)) (g : Regs → α) : HoldsPhase (fun r => p (g r) r) :=
  fun r => h (g r) r

/-! ### The compressor, micro-operation by micro-operation (40 R111 to R119) -/

@[simp] theorem subFlush_holdsPhase : HoldsPhase subFlush := holdsPhase_whenever (holdsPhase_program (by simp))

theorem subPut_holdsPhase (v : Byte) : HoldsPhase (subPut v) := holdsPhase_program (by simp)

theorem shiftOutByte_holdsPhase : HoldsPhase shiftOutByte :=
  holdsPhase_program (by simp [HoldsPhase.arg subPut_holdsPhase])

@[simp] theorem packCode_holdsPhase (code : Nat) : HoldsPhase (packCode code) :=
  holdsPhase_program (by simp [HoldsPhase.arg (holdsPhase_repeatTimes shiftOutByte_holdsPhase),
    holdsPhase_write (addCode_phase code)])

theorem emitCode_holdsPhase (code : Nat) : HoldsPhase (emitCode code) := holdsPhase_program (by simp)

@[simp] theorem emitClear_holdsPhase : HoldsPhase emitClear :=
  holdsPhase_program (by simp [HoldsPhase.arg packCode_holdsPhase, holdsPhase_write clearDictionary_phase])

theorem lzwMiss_holdsPhase (c : Byte) : HoldsPhase (lzwMiss c) :=
  holdsPhase_program (by simp [HoldsPhase.arg emitCode_holdsPhase, holdsPhase_write (insertPair_phase c)])

@[simp] theorem lzwPixel_holdsPhase (c : Byte) : HoldsPhase (lzwPixel c) := by
  intro r
  unfold lzwPixel
  split
  · exact holdsPhase_write (fun _ => rfl) r
  · split
    · exact holdsPhase_write (fun _ => rfl) r
    · exact lzwMiss_holdsPhase c r

@[simp] theorem lzwFinish_holdsPhase : HoldsPhase lzwFinish := by
  have hpartial : HoldsPhase (program [
      fun r => subPut (r.acc.setWidth 8) r,
      write (fun r => { r with acc := 0, bitcnt := 0 })]) :=
    holdsPhase_program (by simp [HoldsPhase.arg subPut_holdsPhase])
  exact holdsPhase_program (by
    simp only [List.forall_mem_cons]
    exact ⟨.arg emitCode_holdsPhase _, .arg emitCode_holdsPhase _, holdsPhase_whenever hpartial, subFlush_holdsPhase, by simp⟩)

@[simp] theorem lzwInit_holdsPhase : HoldsPhase lzwInit :=
  holdsPhase_program (by simp [holdsPhase_write initCompressor_phase])

/-! ### Commands -/

/-- The run of a command that began in phase `ph`: bytes are offered in that phase only, and ERROR is entered by a fault only, which is not
IllegalCommand. -/
def RunSteady (ph : Phase) (run : Run) : Prop :=
  (∀ o ∈ run.offers, o.regs.phase = ph) ∧ run.stop ≠ some (.raise .illegalCommand) ∧ (run.regs.phase = .error → ph = .error)

/-- From any registers, the pseudocode writes PHASE at its end if at all, and never the phase ERROR. -/
def Steady (p : Micro) : Prop := ∀ r, RunSteady r.phase (p r)

theorem HoldsPhase.steady {p : Micro} (h : HoldsPhase p) : Steady p := by
  intro r
  obtain ⟨⟨hoffers, hend⟩, hstop⟩ := h r
  exact ⟨hoffers, hstop, fun he => hend ▸ he⟩

theorem steady_write_phase {f : Regs → Regs} (h : ∀ r, (f r).phase ≠ .error) : Steady (write f) :=
  fun r => ⟨by simp, by simp, fun he => absurd he (h r)⟩

theorem steady_whenever {c : Regs → Bool} {p : Micro} (h : Steady p) : Steady (whenever c p) := by
  intro r
  unfold whenever
  split
  · exact h r
  · exact holdsPhase_nil.steady r

theorem steady_ifElse {c : Regs → Bool} {p q : Micro} (hp : Steady p) (hq : Steady q) : Steady (ifElse c p q) := by
  intro r
  unfold ifElse
  split
  · exact hp r
  · exact hq r

theorem steady_andThen {p q : Micro} (hp : HoldsPhase p) (hq : Steady q) : Steady (andThen p q) := by
  intro r
  cases h : (p r).stop with
  | some st => exact andThen_of_some h ▸ hp.steady r
  | none =>
    obtain ⟨⟨hoffers, hsame⟩, -⟩ := hp r
    obtain ⟨hoffers', hstop, hend⟩ := hq (p r).regs
    have hphase : (p r).regs.phase = r.phase := hsame
    rw [andThen_of_none h]
    rw [hphase] at hoffers' hend
    exact ⟨fun o ho => (List.mem_append.mp ho).elim (hoffers o) (hoffers' o), hstop, hend⟩

theorem program_singleton (p : Micro) : program [p] = p := by
  funext r
  rw [program_cons]
  cases h : (p r).stop with
  | some st => exact andThen_of_some h
  | none =>
    rw [andThen_of_none h, program_nil, List.append_nil, ← h]

/-- A program whose last statement alone may write PHASE. -/
theorem steady_snoc {q : Micro} (hq : Steady q) : ∀ {ps : List Micro}, (∀ p ∈ ps, HoldsPhase p) → Steady (program (ps ++ [q]))
  | [], _ => (program_singleton q).symm ▸ hq
  | p :: _, h => steady_andThen (h p (by simp)) (steady_snoc hq fun m hm => h m (by simp [hm]))

theorem beginMicro_steady : Steady beginMicro :=
  steady_snoc (ps := [_, _, _, _, _, _, _, _, _]) (steady_write_phase (by simp)) (by simp)

theorem frameMicro_steady : Steady frameMicro :=
  steady_snoc (ps := [_, _, _, _, _, _, _, _, _]) (steady_write_phase (by simp)) (by simp)

theorem endFrame_steady : Steady endFrame :=
  steady_snoc (ps := [_, _, _, _]) (steady_ifElse (steady_snoc (ps := [_]) (steady_write_phase (by simp)) (by simp))
    (steady_write_phase (by simp))) (by simp)

theorem pixMicro_steady (c : Byte) : Steady (pixMicro c) :=
  steady_snoc (ps := [_, _, _, _]) (steady_whenever endFrame_steady) (by simp)

theorem palMicro_steady (rgb : Rgb) : Steady (palMicro rgb) := (holdsPhase_program (by simp)).steady

theorem microOf_steady (i : Instr) : Steady (microOf i) := by
  cases i with
  | rst => exact holdsPhase_nil.steady
  | pal => exact palMicro_steady _
  | begin => exact beginMicro_steady
  | frame => exact frameMicro_steady
  | pix => exact pixMicro_steady _
  | setw | seth | setnf | setloop | settr | setfx | setfy | setfw | setfh | setfd | setff =>
    exact (holdsPhase_write fun _ => rfl).steady

end Sys2Proof.Machine
end

section
/-! The invariant along a run: it holds after reset and every step keeps it (40 R120, 10 R36 to R48), and a held step stays in the phase of
the command it belongs to (20 R75). -/

namespace Sys2Proof.Machine

/-! ### Good registers after each command -/

/-- In IDLE the animation-level configuration may be anything (42 R162 to R166). -/
theorem regsOk_of_animConfig {r q : Regs} (h : RegsOk r) (hp : r.phase = .idle)
    (hq : q = { r with canvw := q.canvw, canvh := q.canvh, nframes := q.nframes, loop := q.loop, trv := q.trv, tridx := q.tridx }) :
    RegsOk q := by
  obtain ⟨hstores, herrcode, hphase⟩ := h
  rw [hq]
  refine ⟨hstores, herrcode, ?_⟩
  unfold PhaseOk at hphase ⊢
  simp only [hp] at hphase ⊢
  exact hphase

/-- In IDLE and STREAM the frame-level configuration may be anything (42 R168 to R173). -/
theorem regsOk_of_frameConfig {r q : Regs} (h : RegsOk r) (hp : r.phase = .idle ∨ r.phase = .stream)
    (hq : q = { r with fx := q.fx, fy := q.fy, fw := q.fw, fh := q.fh, fdelay := q.fdelay, ftr := q.ftr, fil := q.fil }) :
    RegsOk q := by
  obtain ⟨hstores, herrcode, hphase⟩ := h
  rw [hq]
  refine ⟨hstores, herrcode, ?_⟩
  unfold PhaseOk at hphase ⊢
  rcases hp with hp | hp <;> simp only [hp] at hphase ⊢ <;> exact hphase

theorem runOk_write {f : Regs → Regs} {r : Regs} (h : RegsOk (f r)) : RunOk (write f r) := runKeeps_write h

/-- The pseudocode of a legal command, from good registers. -/
theorem microOf_runOk {i : Instr} {r : Regs} (hi : i ≠ .rst) (h : RegsOk r) (hlegal : legalIn i r.phase = true) :
    RunOk (microOf i r) := by
  obtain ⟨-, herror⟩ := phase_of_legalIn hi hlegal
  cases i with
  | rst => exact absurd rfl hi
  | setw | seth | setnf | setloop | settr =>
    have hidle : r.phase = .idle := by simpa [legalIn, herror] using hlegal
    exact runOk_write (regsOk_of_animConfig h hidle rfl)
  | pal => exact palMicro_runOk h (by simpa [legalIn, herror] using hlegal)
  | begin => exact beginMicro_runOk h (by simpa [legalIn, herror] using hlegal)
  | setfx | setfy | setfw | setfh | setfd | setff =>
    exact runOk_write (regsOk_of_frameConfig h (by simpa [legalIn, herror] using hlegal) rfl)
  | frame => exact frameMicro_runOk h (by simpa [legalIn, herror] using hlegal)
  | pix => exact pixMicro_runOk h (by simpa [legalIn, herror] using hlegal)

/-! ### The step -/

variable {s t : State}

theorem invariant_of_ready (hready : s.held = none) : Invariant s ↔ RegsOk s.regs := by
  simp only [Invariant, hready]

theorem regsOk_turnAway {r : Regs} (h : RegsOk r) (hp : r.phase ≠ .error) : RegsOk (enterError .illegalCommand r) :=
  regsOk_enterError (h.mid hp) (by simp)

/-- Whatever the sink answers to a good run, the state it leaves is good. -/
theorem invariant_of_deliver {run : Run} (hrun : RunOk run) (h : deliver run s = .next t) : Invariant t := by
  obtain ⟨hoffers, hend⟩ := hrun
  obtain ⟨-, -, hcases⟩ := deliver_next_cases h
  rcases hcases with ⟨hstop, hregs, hheld, -⟩ | ⟨e, hstop, hregs, hheld⟩ | ⟨o, ho, hregs, hheld⟩ |
    ⟨o, ho, rest, hregs, hheld, hrest⟩
  · rw [hstop] at hend
    exact (invariant_of_ready hheld).mpr (hregs ▸ hend)
  · rw [hstop] at hend
    exact (invariant_of_ready hheld).mpr (hregs ▸ regsOk_enterError hend.1 hend.2)
  · exact (invariant_of_ready hheld).mpr (hregs ▸ regsOk_enterError (hoffers o ho) (by simp))
  · simp only [Invariant, hheld]
    refine ⟨⟨fun x hx => ?_, hend⟩, by simp [hregs]⟩
    rcases List.mem_cons.mp hx with rfl | hx
    · exact hoffers x ho
    · exact hoffers x (hrest x hx)

theorem invariant_step (hs : Invariant s) (h : step s = .next t) : Invariant t := by
  cases stepRule_of_step h with
  | wait => exact hs
  | ignore hready =>
    exact (invariant_of_ready hready).mpr ((invariant_of_ready hready).mp hs)
  | reset | resetHeld => exact regsOk_reset
  | turnAway hready _ hphase => exact regsOk_turnAway ((invariant_of_ready hready).mp hs) hphase
  | run hready _ hi hlegal hdeliver =>
    exact invariant_of_deliver (microOf_runOk hi ((invariant_of_ready hready).mp hs) hlegal) hdeliver
  | resume hheld hdeliver =>
    simp only [Invariant, hheld] at hs
    exact invariant_of_deliver hs.1 hdeliver

theorem Reached.invariant (h : Reached s) : Invariant s := by
  induction h with
  | start => exact regsOk_reset
  | next _ _ _ hstep ih => exact invariant_step ih hstep

/-! ### The phase of a held step -/

/-- A held step is in the phase of its command, at every byte it still has to offer, and that phase is neither DONE nor ERROR. -/
def HeldSteady (s : State) : Prop :=
  ∀ run, s.held = some run → RunSteady s.regs.phase run ∧ s.regs.phase ≠ .done ∧ s.regs.phase ≠ .error

theorem heldSteady_of_ready (h : s.held = none) : HeldSteady s := by
  intro run hrun
  simp [h] at hrun

theorem heldSteady_of_deliver {ph : Phase} {run : Run} (hrun : RunSteady ph run) (hdone : ph ≠ .done) (herror : ph ≠ .error)
    (h : deliver run s = .next t) : HeldSteady t := by
  obtain ⟨hoffers, hstop, hend⟩ := hrun
  obtain ⟨-, -, hcases⟩ := deliver_next_cases h
  rcases hcases with ⟨-, -, hheld, -⟩ | ⟨e, -, -, hheld⟩ | ⟨o, -, -, hheld⟩ | ⟨o, ho, rest, hregs, hheld, hrest⟩
  · exact heldSteady_of_ready hheld
  · exact heldSteady_of_ready hheld
  · exact heldSteady_of_ready hheld
  · have hphase : t.regs.phase = ph := hregs ▸ hoffers o ho
    intro run' hrun'
    obtain rfl : ⟨o :: rest, run.stop, run.regs⟩ = run' := Option.some.inj (hheld.symm.trans hrun')
    rw [hphase]
    refine ⟨⟨fun x hx => ?_, hstop, hend⟩, hdone, herror⟩
    rcases List.mem_cons.mp hx with rfl | hx
    · exact hoffers x ho
    · exact hoffers x (hrest x hx)

theorem heldSteady_step (hs : HeldSteady s) (h : step s = .next t) : HeldSteady t := by
  cases stepRule_of_step h with
  | wait => exact hs
  | ignore hready => exact heldSteady_of_ready hready
  | reset | resetHeld | turnAway => exact heldSteady_of_ready rfl
  | run _ _ hi hlegal hdeliver =>
    obtain ⟨hdone, herror⟩ := phase_of_legalIn hi hlegal
    exact heldSteady_of_deliver (microOf_steady _ _) hdone herror hdeliver
  | resume hheld hdeliver =>
    obtain ⟨hrun, hdone, herror⟩ := hs _ hheld
    exact heldSteady_of_deliver hrun hdone herror hdeliver

theorem Reached.heldSteady (h : Reached s) : HeldSteady s := by
  induction h with
  | start => exact heldSteady_of_ready rfl
  | next _ _ _ hstep ih => exact heldSteady_step ih hstep

end Sys2Proof.Machine
end

section
/-! The pins (10 R50, 60 R198). -/

namespace Sys2Proof.Machine

variable {r : Regs} {s t : State}

theorem donePinByPhase_iff : donePinByPhase r = true ↔ r.phase = .done := by simp [donePinByPhase]

theorem errPin_iff : errPin r = true ↔ r.phase = .error := by simp [errPin]

theorem errcodeBits_eq_zero_iff (e : Option ErrorClass) : errcodeBits e = 0#4 ↔ e = none := by
  cases e with
  | none => simp [errcodeBits]
  | some e => cases e <;> simp [errcodeBits, errorBits]

theorem faultedInDone_iff : faultedInDone r = true ↔
    r.phase = .error ∧ r.errcode = some .illegalCommand ∧ r.nframes ≠ 0 ∧ r.fdone = r.nframes := by
  simp [faultedInDone, and_assoc]

/-- The two readings of `done` are the same outside ERROR. -/
theorem donePinUntilRst_of_phase_ne_error (h : r.phase ≠ .error) : donePinUntilRst r = donePinByPhase r := by
  have hfaulted : faultedInDone r = false := by simp [faultedInDone, h]
  rw [donePinUntilRst, hfaulted, Bool.or_false]

theorem donePinUntilRst_phase (h : donePinUntilRst r = true) : r.phase = .done ∨ r.phase = .error := by
  by_cases he : r.phase = .error
  · exact .inr he
  · exact .inl (donePinByPhase_iff.mp (donePinUntilRst_of_phase_ne_error he ▸ h))

/-- Good registers outside ERROR have counted every frame of a stream exactly in DONE (10 R38, 41 R150). -/
theorem all_frames_counted_iff_done (h : RegsOk r) (herror : r.phase ≠ .error) :
    r.nframes ≠ 0 ∧ r.fdone = r.nframes ↔ r.phase = .done := by
  obtain ⟨-, -, hphase⟩ := h
  unfold PhaseOk at hphase
  have hzero : (0 : Half).toNat = 0 := rfl
  rw [ne_eq, ← BitVec.toNat_inj, ← BitVec.toNat_inj, hzero]
  cases hp : r.phase with
  | idle =>
    rw [hp] at hphase
    have hnone : r.fdone.toNat = 0 := hphase
    exact iff_of_false (by omega) (by simp)
  | stream =>
    rw [hp] at hphase
    obtain ⟨-, hleft⟩ := hphase
    exact iff_of_false (by omega) (by simp)
  | pixels =>
    rw [hp] at hphase
    obtain ⟨-, hleft, -⟩ := hphase
    exact iff_of_false (by omega) (by simp)
  | done =>
    rw [hp] at hphase
    obtain ⟨⟨hframes, -⟩, hall⟩ := hphase
    exact iff_of_true ⟨hframes, hall⟩ rfl
  | error => exact absurd hp herror

/-- IllegalCommand, entered from good registers, leaves `donePinUntilRst` 1 exactly when it was entered from DONE (log 17). -/
theorem donePinUntilRst_enterError_illegal (h : RegsOk r) (herror : r.phase ≠ .error) :
    donePinUntilRst (enterError .illegalCommand r) = true ↔ r.phase = .done := by
  rw [← all_frames_counted_iff_done h herror]
  simp [donePinUntilRst, donePinByPhase, faultedInDone_iff]

/-- What a command's own pseudocode leaves is no ERROR entered from DONE: IllegalCommand is not its to raise. -/
theorem faultedInDone_of_deliver {ph : Phase} {run : Run} (hrun : RunSteady ph run) (herror : ph ≠ .error)
    (h : deliver run s = .next t) : faultedInDone t.regs = false := by
  obtain ⟨hoffers, hstop, hend⟩ := hrun
  obtain ⟨-, -, hcases⟩ := deliver_next_cases h
  rcases hcases with ⟨-, hregs, -⟩ | ⟨e, hraise, hregs, -⟩ | ⟨o, -, hregs, -⟩ | ⟨o, ho, rest, hregs, -⟩
  · have hphase : run.regs.phase ≠ .error := fun he => herror (hend he)
    simp [hregs, faultedInDone, hphase]
  · have he : e ≠ .illegalCommand := fun he => hstop (he ▸ hraise)
    simp [hregs, faultedInDone, he]
  · simp [hregs, faultedInDone]
  · have hphase : o.regs.phase ≠ .error := hoffers o ho ▸ herror
    simp [hregs, faultedInDone, hphase]

theorem done_of_deliver {ph : Phase} {run : Run} (hrun : RunSteady ph run) (herror : ph ≠ .error)
    (h : deliver run s = .next t) (hpin : donePinUntilRst t.regs = true) : t.regs.phase = .done := by
  rw [donePinUntilRst, faultedInDone_of_deliver hrun herror h, Bool.or_false] at hpin
  exact donePinByPhase_iff.mp hpin

/-- `err` falls only on RST or the reset pin (60 R198, R202). -/
theorem errPin_falls (hready : Ready s) (h : step s = .next t) (hs : errPin s.regs = true) (ht : errPin t.regs = false) :
    ∃ rest, s.host = .resetPin :: rest ∨ s.host = .word 0x01000000#32 :: rest := by
  have herror := errPin_iff.mp hs
  cases stepRule_of_step h with
  | wait | ignore => simp [hs] at ht
  | reset _ hhost hmove => exact ⟨_, hmove.imp (· ▸ hhost) (· ▸ hhost)⟩
  | turnAway _ _ hphase => exact absurd herror hphase
  | run _ _ hi hlegal => exact absurd herror (phase_of_legalIn hi hlegal).2
  | resume hheld | resetHeld hheld => exact absurd (hready.symm.trans hheld) (by simp)

/-- `done` by R50 falls only on RST, the reset pin or a fault (42 R175). -/
theorem donePinByPhase_falls (hready : Ready s) (h : step s = .next t) (hs : donePinByPhase s.regs = true)
    (ht : donePinByPhase t.regs = false) :
    errPin t.regs = true ∨ ∃ rest, s.host = .resetPin :: rest ∨ s.host = .word 0x01000000#32 :: rest := by
  have hdone := donePinByPhase_iff.mp hs
  cases stepRule_of_step h with
  | wait | ignore => simp [hs] at ht
  | reset _ hhost hmove => exact .inr ⟨_, hmove.imp (· ▸ hhost) (· ▸ hhost)⟩
  | turnAway => exact .inl rfl
  | run _ _ hi hlegal => exact absurd hdone (phase_of_legalIn hi hlegal).1
  | resume hheld | resetHeld hheld => exact absurd (hready.symm.trans hheld) (by simp)

theorem Reached.phase_of_held (h : Reached s) (hheld : ¬ Ready s) : s.regs.phase ≠ .done ∧ s.regs.phase ≠ .error := by
  obtain ⟨run, hrun⟩ := Option.ne_none_iff_exists'.mp hheld
  exact (h.heldSteady run hrun).2

theorem Reached.regsOk (h : Reached s) (hready : s.held = none) : RegsOk s.regs := (invariant_of_ready hready).mp h.invariant

/-- `done` by R198 rises only on arrival in DONE. -/
theorem donePinUntilRst_rises (hs : Reached s) (h : step s = .next t) (hlow : donePinUntilRst s.regs = false)
    (hhigh : donePinUntilRst t.regs = true) : t.regs.phase = .done := by
  cases stepRule_of_step h with
  | wait | ignore => simp [hlow] at hhigh
  | reset | resetHeld => exact absurd hhigh Bool.false_ne_true
  | turnAway hready _ herror =>
    have hdone := (donePinUntilRst_enterError_illegal (hs.regsOk hready) herror).mp hhigh
    simp [donePinUntilRst_of_phase_ne_error herror, donePinByPhase_iff.mpr hdone] at hlow
  | run _ _ hi hlegal hdeliver =>
    exact done_of_deliver (microOf_steady _ _) (phase_of_legalIn hi hlegal).2 hdeliver hhigh
  | resume hheld hdeliver =>
    obtain ⟨hrun, -, herror⟩ := hs.heldSteady _ hheld
    exact done_of_deliver hrun herror hdeliver hhigh

/-- `done` by R198 falls only on RST or the reset pin. -/
theorem donePinUntilRst_falls (hs : Reached s) (h : step s = .next t) (hhigh : donePinUntilRst s.regs = true)
    (hlow : donePinUntilRst t.regs = false) : ∃ rest, s.host = .resetPin :: rest ∨ s.host = .word 0x01000000#32 :: rest := by
  have hphase := donePinUntilRst_phase hhigh
  cases stepRule_of_step h with
  | wait | ignore => simp [hhigh] at hlow
  | reset _ hhost hmove => exact ⟨_, hmove.imp (· ▸ hhost) (· ▸ hhost)⟩
  | turnAway hready _ herror =>
    have hdone := hphase.resolve_right herror
    have hstays := (donePinUntilRst_enterError_illegal (hs.regsOk hready) herror).mpr hdone
    exact absurd (hstays.symm.trans hlow) (by simp)
  | run _ _ hi hlegal =>
    obtain ⟨hdone, herror⟩ := phase_of_legalIn hi hlegal
    exact absurd hphase (not_or.mpr ⟨hdone, herror⟩)
  | resume hheld | resetHeld hheld =>
    obtain ⟨-, hdone, herror⟩ := hs.heldSteady _ hheld
    exact absurd hphase (not_or.mpr ⟨hdone, herror⟩)

/-- A command in DONE that is not RST: `err` replaces `done` by R50, and `done` by R198 stays. -/
theorem exec_in_done {i : Instr} (hs : Reached s) (hdone : s.regs.phase = .done) (hi : i ≠ .rst) :
    ∃ t, exec i s = .next t ∧ errPin t.regs = true ∧ donePinByPhase t.regs = false ∧ donePinUntilRst t.regs = true := by
  have hready : s.held = none := by
    by_contra hheld
    exact (hs.phase_of_held hheld).1 hdone
  have herror : s.regs.phase ≠ .error := by simp [hdone]
  have hexec : exec i s = .next { s with regs := enterError .illegalCommand s.regs, held := none } :=
    (exec_eq_command hi s).trans (command_illegal hready herror (hdone ▸ legalIn_done hi))
  exact ⟨_, hexec, rfl, rfl, (donePinUntilRst_enterError_illegal (hs.regsOk hready) herror).mpr hdone⟩

/-- Settles O17: each pin follows PHASE, and PHASE leaves ERROR and DONE only by the rules of the step; that no held step is in DONE or ERROR,
and that good registers have counted all frames exactly in DONE, is what holds along a run. -/
theorem pinsFollowPhase : Obligations.PinsFollowPhase := by
  refine ⟨fun r => ⟨donePinByPhase_iff, errPin_iff⟩, by decide, fun r hr => ?_, fun s t => errPin_falls,
    fun s t => donePinByPhase_falls, fun s hs hheld => ?_, fun r => donePinUntilRst_of_phase_ne_error,
    fun s t => donePinUntilRst_rises, fun s t => donePinUntilRst_falls, fun i s => exec_in_done⟩
  · obtain ⟨-, ⟨herrcode, -⟩, -⟩ := hr
    rw [ne_eq, errcodeBits_eq_zero_iff, errPin_iff, ← herrcode]
  · obtain ⟨hdone, herror⟩ := hs.phase_of_held hheld
    exact ⟨by simp [donePinByPhase, hdone], by simp [errPin, herror]⟩

end Sys2Proof.Machine
end

section
/-! A step the sink is holding (20 R61, R62, R63, R75): it takes no word, it waits while the sink withholds its answer, and it goes on as if
the answer had not been delayed. -/

namespace Sys2Proof.Machine

variable {s t : State} {run : Run}

/-! ### No word is taken -/

theorem exec_of_held (i : Instr) (hheld : s.held = some run) : exec i s = .next s := by
  by_cases hi : i = .rst
  · subst hi
    simp only [exec, execRst, hheld]
  · exact (exec_eq_command hi s).trans (command_held hheld)

/-- A held step leaves the host's moves as they are, but for a reset pin that is the next one (70 R220). -/
theorem host_of_held_step (hheld : s.held = some run) (h : step s = .next t) : t.host = s.host ∨ s.host = .resetPin :: t.host := by
  cases stepRule_of_step h with
  | wait hready | ignore hready | reset hready | turnAway hready | run hready => simp [hheld] at hready
  | resume _ hdeliver => exact .inl (deliver_next_cases hdeliver).1
  | resetHeld _ hhost => exact .inr hhost

/-- Settles O14: a held step goes through `resume`, which uses up no move but the reset pin. -/
theorem heldEngineTakesNoWord : Obligations.HeldEngineTakesNoWord := by
  refine ⟨fun s t run hheld h => ⟨by simp [cmdReady, hheld], fun hpin => ?_, fun rest hhost => ?_⟩, fun i s hheld => ?_⟩
  · exact (host_of_held_step hheld h).resolve_right fun hreset => hpin (by rw [hreset, List.head?_cons])
  · exact (host_of_held_step hheld h).imp_right fun hreset => (List.cons.inj (hreset.symm.trans hhost)).2
  · obtain ⟨run, hrun⟩ := Option.ne_none_iff_exists'.mp hheld
    exact exec_of_held i hrun

/-! ### The step waits -/

/-- Without the reset pin the held step is delivered on from the byte on offer, whatever the sink answers. -/
theorem step_of_held_of_no_resetPin (hheld : s.held = some run) (hpin : s.host.head? ≠ some .resetPin) :
    step s = deliver run s := by
  rw [step_of_held hheld, resume]
  split
  · next hhost => simp [hhost] at hpin
  · rfl

theorem offerAll_withhold {o : Offer} {os : List Offer} {stop : Option Stop} {r : Regs} (h : sinkAnswer s.sink = .withhold) :
    offerAll (o :: os) stop r s = .next (withheld o os stop r s) := by
  simp only [offerAll, h]

/-- Settles O47: offering the same byte again puts back the registers and the rest of the step that were held. -/
theorem heldStepWaitsForSink : Obligations.HeldStepWaitsForSink := by
  intro s run o hheld hhead hregs hsink hpin
  obtain ⟨os, hoffers⟩ := List.head?_eq_some_iff.mp hhead
  have hstep : step s = .next (withheld o os run.stop run.regs s) := by
    rw [step_of_held_of_no_resetPin hheld hpin, deliver, hoffers, offerAll_withhold hsink]
  have hrun : s.held = some ⟨o :: os, run.stop, run.regs⟩ := by rw [hheld, ← hoffers]
  refine ⟨_, hstep, ?_, rfl, rfl⟩
  simp only [withheld, ← hregs, ← hrun]

/-! ### The step goes on -/

/-- A step ends, or is held, in registers of its own: those of the state it is delivered from do not matter, nor does what is held there. -/
theorem offerAll_congr (stop : Option Stop) (r : Regs) :
    ∀ (os : List Offer) {s s' : State}, s.out = s'.out → s.host = s'.host → s.sink = s'.sink →
      offerAll os stop r s = offerAll os stop r s'
  | [], s, s', hout, hhost, hsink => by
    match stop with
    | none | some (.raise _) | some (.fault _) => simp [offerAll, finish, hout, hhost, hsink]
  | o :: os, s, s', hout, hhost, hsink => by
    unfold offerAll
    rw [hsink]
    cases sinkAnswer s'.sink with
    | accept => exact offerAll_congr stop r os (by simp [hout]) hhost (by simp [hsink])
    | error => simp [refused, hout, hhost, hsink]
    | withhold => simp [withheld, hout, hhost, hsink]

/-- A sink that accepts the first `k` bytes: they are in OUT, and the rest is offered. -/
theorem offerAll_accepts_first (stop : Option Stop) (r : Regs) (l : List Answer) (a : Answer) :
    ∀ (k : Nat) (os : List Offer) (s : State), k ≤ os.length → s.sink = ⟨List.replicate k .accept ++ l, a⟩ →
      offerAll os stop r s =
        offerAll (os.drop k) stop r { s with out := s.out ++ (os.take k).map Offer.byte, sink := ⟨l, a⟩ }
  | 0, os, s, _, hsink => by
    have hs : s = { s with out := s.out ++ [], sink := ⟨l, a⟩ } := by
      rw [List.append_nil, ← show s.sink = ⟨l, a⟩ from hsink]
    exact congrArg (offerAll os stop r) hs
  | k + 1, [], _, hk, _ => absurd hk (by simp)
  | k + 1, o :: os, s, hk, hsink => by
    have haccept : sinkAnswer s.sink = .accept := by rw [hsink]; rfl
    have hnext : (accepted o.byte s).sink = ⟨List.replicate k .accept ++ l, a⟩ := by rw [accepted_sink, hsink]; rfl
    have hoffer : offerAll (o :: os) stop r s = offerAll os stop r (accepted o.byte s) := by simp only [offerAll, haccept]
    rw [hoffer, offerAll_accepts_first stop r l a k os _ (Nat.le_of_succ_le_succ hk) hnext]
    simp [accepted]

/-- Settles O46: with and without the delay the first `k` bytes are accepted and the rest is offered to the same sink; in between there is
one hold, at byte `k`. -/
theorem delayedAnswerChangesNothing : Obligations.DelayedAnswerChangesNothing := by
  intro run s k l a o ho hsink hpin
  obtain ⟨hk, hbyte⟩ := List.getElem?_eq_some_iff.mp ho
  have hrest : run.offers.drop k = o :: run.offers.drop (k + 1) := hbyte ▸ List.drop_eq_getElem_cons hk
  have hdeliver (l' : List Answer) (s' : State) (hs' : s'.sink = ⟨List.replicate k .accept ++ l', a⟩) : deliver run s' =
      offerAll (o :: run.offers.drop (k + 1)) run.stop run.regs
        { s' with out := s'.out ++ (offeredBytes run).take k, sink := ⟨l', a⟩ } := by
    rw [deliver, offerAll_accepts_first _ _ l' a k _ _ hk.le hs', hrest, offeredBytes, List.map_take]
  refine ⟨_, (hdeliver _ s hsink).trans (offerAll_withhold rfl), rfl, rfl, rfl, ?_⟩
  rw [hdeliver l _ rfl, step_of_held_of_no_resetPin (withheld_held _ _ _ _ _)]
  · exact offerAll_congr _ _ _ rfl rfl rfl
  · exact hpin

end Sys2Proof.Machine
end

section
/-! The way to DONE (20 R73, 41 R150): only the last PIX writes that phase, behind the terminator and the trailer, and no byte gets lost while
a step is held (20 R75). -/

namespace Sys2Proof.Machine

variable {s t : State} {run : Run}

/-! ### Pseudocode -/

/-- The terminator of the last frame and the trailer, `00 3B`. -/
def closingBytes : List Byte := [terminatorByte, trailerByte]

/-- After the bytes `out`, a run that comes to its end in DONE comes to it behind the closing bytes. -/
def ClosesBeforeDone (out : List Byte) (run : Run) : Prop :=
  run.stop = none → run.regs.phase = .done → closingBytes <:+ out ++ offeredBytes run

theorem ClosesBeforeDone.after (out : List Byte) (h : ClosesBeforeDone [] run) : ClosesBeforeDone out run :=
  fun hstop hdone => (h hstop hdone).trans (List.suffix_append _ _)

/-- From any registers outside DONE, the pseudocode reaches DONE behind the closing bytes only. -/
def ReachesDoneClosed (p : Micro) : Prop := ∀ r, r.phase ≠ .done → ClosesBeforeDone [] (p r)

theorem HoldsPhase.reachesDoneClosed {p : Micro} (h : HoldsPhase p) : ReachesDoneClosed p := by
  intro r hr _ hdone
  obtain ⟨⟨-, hphase⟩, -⟩ := h r
  exact absurd (hphase.symm.trans hdone) hr

theorem reachesDoneClosed_write {f : Regs → Regs} (h : ∀ r, (f r).phase ≠ .done) : ReachesDoneClosed (write f) :=
  fun r _ _ hdone => absurd hdone (h r)

theorem reachesDoneClosed_whenever {c : Regs → Bool} {p : Micro} (h : ReachesDoneClosed p) : ReachesDoneClosed (whenever c p) := by
  intro r
  unfold whenever
  split
  · exact h r
  · exact holdsPhase_nil.reachesDoneClosed r

theorem reachesDoneClosed_andThen {p q : Micro} (hp : HoldsPhase p) (hq : ReachesDoneClosed q) : ReachesDoneClosed (andThen p q) := by
  intro r hr
  cases h : (p r).stop with
  | some st => exact andThen_of_some h ▸ hp.reachesDoneClosed r hr
  | none =>
    obtain ⟨⟨-, hphase⟩, -⟩ := hp r
    rw [andThen_of_none h]
    intro hstop hdone
    have hclosed := hq (p r).regs (fun hd => hr (hphase.symm.trans hd)) hstop hdone
    simpa [offeredBytes] using hclosed.trans (List.suffix_append _ _)

/-- A program whose last statement alone may write PHASE. -/
theorem reachesDoneClosed_snoc {q : Micro} (hq : ReachesDoneClosed q) :
    ∀ {ps : List Micro}, (∀ p ∈ ps, HoldsPhase p) → ReachesDoneClosed (program (ps ++ [q]))
  | [], _ => (program_singleton q).symm ▸ hq
  | p :: _, h => reachesDoneClosed_andThen (h p (by simp)) (reachesDoneClosed_snoc hq fun m hm => h m (by simp [hm]))

/-! ### Commands -/

theorem beginMicro_reachesDoneClosed : ReachesDoneClosed beginMicro :=
  reachesDoneClosed_snoc (ps := [_, _, _, _, _, _, _, _, _]) (reachesDoneClosed_write (by simp)) (by simp)

theorem frameMicro_reachesDoneClosed : ReachesDoneClosed frameMicro :=
  reachesDoneClosed_snoc (ps := [_, _, _, _, _, _, _, _, _]) (reachesDoneClosed_write (by simp)) (by simp)

/-- `EndFrame` offers the terminator, and then the trailer before it writes DONE (41 R150, R151). -/
theorem endFrame_reachesDoneClosed : ReachesDoneClosed endFrame := by
  refine reachesDoneClosed_andThen lzwFinish_holdsPhase fun r _ => ?_
  rw [program_emit]
  by_cases hfull : r.fdone.toNat = 65535
  · intro hstop
    simp [program_cons, andThen, guardFault, whenever, stuck, hfull] at hstop
  · rw [program_guard_pass (by simpa using hfull), program_write, program_singleton, ifElse]
    split
    · intro _ _
      simp [program_emit, offeredBytes, closingBytes]
    · intro _ hdone
      simp at hdone

theorem pixMicro_reachesDoneClosed (c : Byte) : ReachesDoneClosed (pixMicro c) :=
  reachesDoneClosed_snoc (ps := [_, _, _, _]) (reachesDoneClosed_whenever endFrame_reachesDoneClosed) (by simp)

theorem microOf_reachesDoneClosed (i : Instr) : ReachesDoneClosed (microOf i) := by
  cases i with
  | rst => exact holdsPhase_nil.reachesDoneClosed
  | pal => exact HoldsPhase.reachesDoneClosed (holdsPhase_program (by simp))
  | begin => exact beginMicro_reachesDoneClosed
  | frame => exact frameMicro_reachesDoneClosed
  | pix => exact pixMicro_reachesDoneClosed _
  | setw | seth | setnf | setloop | settr | setfx | setfy | setfw | setfh | setfd | setff =>
    exact (holdsPhase_write fun _ => rfl).reachesDoneClosed

/-! ### The sink -/

/-- A step that is over and in DONE has come to its end, every byte of it accepted: a fault or a refused byte would have led to ERROR. -/
theorem deliver_over_in_done (h : deliver run s = .next t) (hready : t.held = none) (hdone : t.regs.phase = .done) :
    run.stop = none ∧ t.regs = run.regs ∧ t.out = s.out ++ offeredBytes run := by
  obtain ⟨-, -, hcases⟩ := deliver_next_cases h
  rcases hcases with ⟨hstop, hregs, -, hout⟩ | ⟨e, -, hregs, -⟩ | ⟨o, -, hregs, -⟩ | ⟨o, -, rest, -, hheld, -⟩
  · exact ⟨hstop, hregs, hout⟩
  · simp [hregs] at hdone
  · simp [hregs] at hdone
  · simp [hready] at hheld

/-- A hold neither drops nor duplicates a byte: what is delivered and what is still to be offered make up what there was (20 R75). -/
theorem deliver_held_bytes {run' : Run} (h : deliver run s = .next t) (hheld : t.held = some run') :
    run'.stop = run.stop ∧ run'.regs = run.regs ∧ t.out ++ offeredBytes run' = s.out ++ offeredBytes run := by
  rcases offerAll_cases run.stop run.regs run.offers s with
    ⟨s', -, hfinish⟩ | ⟨pre, o, post, s', hoffers, hs', hrefused | hwithheld⟩
  · have hend : finish run.stop run.regs s' = .next t := hfinish.symm.trans h
    unfold finish at hend
    split at hend <;> cases hend <;> simp at hheld
  · obtain rfl : refused o s' = t := by simpa using hrefused.symm.trans h
    simp at hheld
  · obtain rfl : withheld o post run.stop run.regs s' = t := by simpa using hwithheld.symm.trans h
    obtain rfl : ⟨o :: post, run.stop, run.regs⟩ = run' := by simpa using hheld
    refine ⟨rfl, rfl, ?_⟩
    rw [withheld_out, hs']
    simp [offeredBytes, hoffers]

/-! ### Runs -/

/-- In DONE with no step held, OUT ends in the closing bytes; with a step held that will come to its end in DONE, it will then. -/
def DoneIsClosed (s : State) : Prop :=
  match s.held with
  | none => s.regs.phase = .done → closingBytes <:+ s.out
  | some run => ClosesBeforeDone s.out run

theorem doneIsClosed_of_ready (hready : s.held = none) : DoneIsClosed s ↔ (s.regs.phase = .done → closingBytes <:+ s.out) := by
  simp only [DoneIsClosed, hready]

theorem doneIsClosed_of_held (hheld : s.held = some run) : DoneIsClosed s ↔ ClosesBeforeDone s.out run := by
  simp only [DoneIsClosed, hheld]

theorem doneIsClosed_of_deliver (hrun : ClosesBeforeDone s.out run) (h : deliver run s = .next t) : DoneIsClosed t := by
  cases hheld : t.held with
  | none =>
    refine (doneIsClosed_of_ready hheld).mpr fun hdone => ?_
    obtain ⟨hstop, hregs, hout⟩ := deliver_over_in_done h hheld hdone
    exact hout ▸ hrun hstop (hregs ▸ hdone)
  | some run' =>
    obtain ⟨hstop, hregs, hbytes⟩ := deliver_held_bytes h hheld
    rw [doneIsClosed_of_held hheld, ClosesBeforeDone, hstop, hregs, hbytes]
    exact hrun

theorem doneIsClosed_step (hs : DoneIsClosed s) (h : step s = .next t) : DoneIsClosed t := by
  cases stepRule_of_step h with
  | wait => exact hs
  | ignore hready => exact (doneIsClosed_of_ready hready).mpr ((doneIsClosed_of_ready hready).mp hs)
  | reset | resetHeld | turnAway => exact (doneIsClosed_of_ready rfl).mpr (by simp [Regs.reset])
  | @run i _ _ _ _ _ hi hlegal hdeliver =>
    have hclosed := microOf_reachesDoneClosed i _ (phase_of_legalIn hi hlegal).1
    exact doneIsClosed_of_deliver (hclosed.after _) hdeliver
  | resume hheld hdeliver => exact doneIsClosed_of_deliver ((doneIsClosed_of_held hheld).mp hs) hdeliver

theorem Reached.doneIsClosed (h : Reached s) : DoneIsClosed s := by
  induction h with
  | start => exact (doneIsClosed_of_ready rfl).mpr (by simp [State.reset, Regs.reset])
  | next _ _ _ hstep ih => exact doneIsClosed_step ih hstep

/-- A command that goes from another phase to DONE is a legal one: no other word leads there, RST neither. -/
theorem exec_to_done {i : Instr} (hready : Ready s) (h : exec i s = .next t) (hs : s.regs.phase ≠ .done)
    (ht : t.regs.phase = .done) : deliver (microOf i s.regs) s = .next t := by
  by_cases hi : i = .rst
  · subst hi
    obtain rfl : resetBlock s = t := by simpa [exec_rst_of_ready hready] using h
    simp [Regs.reset] at ht
  · rw [exec_eq_command hi] at h
    rcases command_cases (legalIn i) (microOf i) s with hsame | ⟨-, -, -, hillegal⟩ | ⟨-, -, -, hlegal⟩
    · obtain rfl : s = t := by simpa [hsame] using h
      exact absurd ht hs
    · obtain rfl : { s with regs := enterError .illegalCommand s.regs, held := none } = t := by simpa [hillegal] using h
      simp at ht
    · exact hlegal.symm.trans h

/-- Settles O57: DONE is reached behind the closing bytes only, and only when every byte of the step has been accepted; along a run a hold
loses none of them. -/
theorem doneMeansTrailerDelivered : Obligations.DoneMeansTrailerDelivered := by
  refine ⟨fun i s t hready h hover hs ht => ?_, fun s t run hheld h hover ht => ?_, fun s hs hdone => ?_⟩
  · obtain ⟨hstop, hregs, hout⟩ := deliver_over_in_done (exec_to_done hready h hs ht) hover ht
    obtain ⟨bs, hbytes⟩ := microOf_reachesDoneClosed i _ hs hstop (hregs ▸ ht)
    exact ⟨bs, by rw [hout, List.append_assoc]; exact congrArg _ hbytes.symm⟩
  · cases stepRule_of_step h with
    | wait hready | ignore hready | reset hready | turnAway hready | run hready => simp [hheld] at hready
    | resume hheld' hdeliver =>
      obtain rfl := Option.some.inj (hheld.symm.trans hheld')
      obtain ⟨-, -, hout⟩ := deliver_over_in_done hdeliver hover ht
      exact hout
    | resetHeld => simp [Regs.reset] at ht
  · have hready : s.held = none := by
      by_contra hheld
      exact (hs.phase_of_held hheld).1 hdone
    obtain ⟨bs, hbytes⟩ := (doneIsClosed_of_ready hready).mp hs.doneIsClosed hdone
    exact ⟨bs, hbytes.symm⟩

end Sys2Proof.Machine
end

section
/-! Command words as numbers: a row of the opcode map fixes the high bits of a word and leaves the low ones to the operand, so a word of the
row is the row's match plus its low bits (30 R80 to R82). -/

namespace Sys2Proof.Machine

/-! ### A row and its low bits -/

/-- How many low bits of the word the row leaves to the operand: the width of the format's fields (30 R81). -/
def operandBits : Instr → Nat
  | .rst | .begin | .frame => 0
  | .setloop _ => 1
  | .setff _ _ => 2
  | .pix _ => 8
  | .settr _ _ => 9
  | .setw _ | .seth _ | .setnf _ | .setfx _ | .setfy _ | .setfw _ | .setfh _ | .setfd _ => 16
  | .pal _ _ _ => 24

/-- The fields of a command as one number, each at its place in the format (30 R81). -/
def operand : Instr → Nat
  | .rst | .begin | .frame => 0
  | .setloop lp => lp.toNat
  | .setff tr il => tr.toNat * 2 + il.toNat
  | .pix c => c.toNat
  | .settr tv ti => tv.toNat * 256 + ti.toNat
  | .setw v | .seth v | .setnf v | .setfx v | .setfy v | .setfw v | .setfh v | .setfd v => v.toNat
  | .pal r g b => r.toNat * 65536 + g.toNat * 256 + b.toNat

/-- A row matches the word. -/
abbrev MatchesRow (w : Word) (i : Instr) : Prop := w &&& (opcodeRow i).mask = (opcodeRow i).mat

theorem opcodeRow_mask (i : Instr) : (opcodeRow i).mask = BitVec.allOnes 32 <<< operandBits i := by
  cases i <;> (simp only [opcodeRow, operandBits]; decide)

/-- Under its mask a word loses its low bits and nothing else. -/
theorem toNat_masked (w : Word) (i : Instr) :
    (w &&& (opcodeRow i).mask).toNat = w.toNat - w.toNat % 2 ^ operandBits i := by
  have hle : w.toNat - w.toNat % 2 ^ operandBits i < 2 ^ 32 := (Nat.sub_le _ _).trans_lt w.isLt
  rw [opcodeRow_mask, ← BitVec.shiftLeft_ushiftRight, BitVec.toNat_shiftLeft, BitVec.toNat_ushiftRight,
    Nat.shiftRight_eq_div_pow, Nat.shiftLeft_eq, Nat.div_mul_self_eq_mod_sub_self, Nat.mod_eq_of_lt hle]

theorem matchesRow_iff_toNat {w : Word} {i : Instr} :
    MatchesRow w i ↔ w.toNat = (opcodeRow i).mat.toNat + w.toNat % 2 ^ operandBits i := by
  rw [MatchesRow, ← BitVec.toNat_inj, toNat_masked, Nat.sub_eq_iff_eq_add (Nat.mod_le _ _)]

/-- Every mask has the whole opcode (30 R80). -/
theorem opField_of_matchesRow {w : Word} {i : Instr} (h : MatchesRow w i) : opField w = opField (opcodeRow i).mat := by
  have hmask : opField (opcodeRow i).mask = BitVec.allOnes 8 := by cases i <;> (simp only [opcodeRow]; decide)
  calc opField w = opField w &&& opField (opcodeRow i).mask := by rw [hmask, BitVec.and_allOnes]
    _ = opField (w &&& (opcodeRow i).mask) := BitVec.extractLsb'_and.symm
    _ = opField (opcodeRow i).mat := by rw [h]

/-! ### The formats as numbers, and their fields read back -/

theorem wordH_toNat (op : Byte) (v : Half) : (wordH op v).toNat = op.toNat * 16777216 + v.toNat := by
  simp only [wordH, toNat_append_eq, BitVec.toNat_ofNat]
  omega

theorem wordB_toNat (op : Byte) (c : Byte) : (wordB op c).toNat = op.toNat * 16777216 + c.toNat := by
  simp only [wordB, toNat_append_eq, BitVec.toNat_ofNat]
  omega

theorem wordC_toNat (op r g b : Byte) :
    (wordC op r g b).toNat = op.toNat * 16777216 + (r.toNat * 65536 + g.toNat * 256 + b.toNat) := by
  simp only [wordC, toNat_append_eq]
  omega

theorem wordT_toNat (op : Byte) (tv : BitVec 1) (ti : Byte) :
    (wordT op tv ti).toNat = op.toNat * 16777216 + (tv.toNat * 256 + ti.toNat) := by
  simp only [wordT, toNat_append_eq, BitVec.toNat_ofNat]
  omega

theorem wordF_toNat (op : Byte) (tr il : BitVec 1) :
    (wordF op tr il).toNat = op.toNat * 16777216 + (tr.toNat * 2 + il.toNat) := by
  simp only [wordF, toNat_append_eq, BitVec.toNat_ofNat]
  omega

theorem wordL_toNat (op : Byte) (lp : BitVec 1) : (wordL op lp).toNat = op.toNat * 16777216 + lp.toNat := by
  simp only [wordL, toNat_append_eq, BitVec.toNat_ofNat]
  omega

/-- A field of a word, as quotient and remainder of its number. -/
theorem toNat_field (w : Word) (start len : Nat) : (w.extractLsb' start len).toNat = w.toNat / 2 ^ start % 2 ^ len := by
  rw [BitVec.extractLsb'_toNat, Nat.shiftRight_eq_div_pow]

theorem field_eq {w : Word} {start len : Nat} {x : BitVec len} (h : w.toNat / 2 ^ start % 2 ^ len = x.toNat) :
    w.extractLsb' start len = x :=
  BitVec.eq_of_toNat_eq ((toNat_field w start len).trans h)

theorem argHalf_wordH (op : Byte) (v : Half) : argHalf (wordH op v) = v :=
  field_eq (by rw [wordH_toNat]; omega)

theorem argByte_wordB (op c : Byte) : argByte (wordB op c) = c :=
  field_eq (by rw [wordB_toNat]; omega)

theorem argRed_wordC (op r g b : Byte) : argRed (wordC op r g b) = r :=
  field_eq (by rw [wordC_toNat]; omega)

theorem argGreen_wordC (op r g b : Byte) : argGreen (wordC op r g b) = g :=
  field_eq (by rw [wordC_toNat]; omega)

theorem argByte_wordC (op r g b : Byte) : argByte (wordC op r g b) = b :=
  field_eq (by rw [wordC_toNat]; omega)

theorem argBit8_wordT (op : Byte) (tv : BitVec 1) (ti : Byte) : argBit8 (wordT op tv ti) = tv :=
  field_eq (by rw [wordT_toNat]; omega)

theorem argByte_wordT (op : Byte) (tv : BitVec 1) (ti : Byte) : argByte (wordT op tv ti) = ti :=
  field_eq (by rw [wordT_toNat]; omega)

theorem argBit1_wordF (op : Byte) (tr il : BitVec 1) : argBit1 (wordF op tr il) = tr :=
  field_eq (by rw [wordF_toNat]; omega)

theorem argBit0_wordF (op : Byte) (tr il : BitVec 1) : argBit0 (wordF op tr il) = il :=
  field_eq (by rw [wordF_toNat]; omega)

theorem argBit0_wordL (op : Byte) (lp : BitVec 1) : argBit0 (wordL op lp) = lp :=
  field_eq (by rw [wordL_toNat]; omega)

/-! ### The encoder -/

/-- The word of a command is its row's match plus its operand. -/
theorem encode_toNat (i : Instr) : (encode i).toNat = (opcodeRow i).mat.toNat + operand i := by
  cases i with
  | rst | begin | frame => rfl
  | setw | seth | setnf | setfx | setfy | setfw | setfh | setfd => exact wordH_toNat _ _
  | setloop => exact wordL_toNat _ _
  | settr => exact wordT_toNat _ _ _
  | pal => exact wordC_toNat _ _ _ _
  | setff => exact wordF_toNat _ _ _
  | pix => exact wordB_toNat _ _

/-- The encoder's word is in the command's own row (30 R82). -/
theorem encode_matchesRow (i : Instr) : MatchesRow (encode i) i := by
  cases i with
  | rst => exact Laws.RowMatch.rst
  | setw v => exact Laws.RowMatch.setw v
  | seth v => exact Laws.RowMatch.seth v
  | setnf v => exact Laws.RowMatch.setnf v
  | setloop lp => exact Laws.RowMatch.setloop lp
  | settr tv ti => exact Laws.RowMatch.settr tv ti
  | pal r g b => exact Laws.RowMatch.pal r g b
  | begin => exact Laws.RowMatch.begin
  | setfx v => exact Laws.RowMatch.setfx v
  | setfy v => exact Laws.RowMatch.setfy v
  | setfw v => exact Laws.RowMatch.setfw v
  | setfh v => exact Laws.RowMatch.setfh v
  | setfd v => exact Laws.RowMatch.setfd v
  | setff tr il => exact Laws.RowMatch.setff tr il
  | frame => exact Laws.RowMatch.frame
  | pix c => exact Laws.RowMatch.pix c

/-! ### The decoder -/

/-- The opcode alone picks the row (30 R80). -/
theorem commandOf_of_opField {w : Word} {i : Instr} (h : opField w = opField (opcodeRow i).mat) :
    ∃ j, commandOf w = some j ∧ opcodeRow j = opcodeRow i := by
  unfold commandOf
  rw [h]
  cases i <;> simp [opcodeRow, opField]

/-- The fields `commandOf` reads are the low bits of the word. -/
theorem operand_of_commandOf {w : Word} {i : Instr} (h : commandOf w = some i) : operand i = w.toNat % 2 ^ operandBits i := by
  unfold commandOf at h
  split at h
  all_goals cases h
  all_goals
    simp only [operand, operandBits, argHalf, argByte, argRed, argGreen, argBit8, argBit1, argBit0, toNat_field]
    omega

/-- The opcode picks the row, and each field of the format reads back what the encoder put there. -/
theorem commandOf_encode (i : Instr) : commandOf (encode i) = some i := by
  have hop := opField_of_matchesRow (encode_matchesRow i)
  unfold commandOf
  rw [hop]
  cases i with
  | rst | begin | frame => rfl
  | setw | seth | setnf | setfx | setfy | setfw | setfh | setfd => simp [opcodeRow, opField, encode, argHalf_wordH]
  | setloop => simp [opcodeRow, opField, encode, argBit0_wordL]
  | settr => simp [opcodeRow, opField, encode, argBit8_wordT, argByte_wordT]
  | pal => simp [opcodeRow, opField, encode, argRed_wordC, argGreen_wordC, argByte_wordC]
  | setff => simp [opcodeRow, opField, encode, argBit1_wordF, argBit0_wordF]
  | pix => simp [opcodeRow, opField, encode, argByte_wordB]

theorem decode_eq_ok_iff {w : Word} {i : Instr} : decode w = .ok i ↔ commandOf w = some i ∧ MatchesRow w i := by
  unfold decode
  split
  next hnone => simp [hnone]
  next j hsome =>
    rw [hsome]
    constructor
    · intro h
      split at h
      next hrow =>
        cases h
        exact ⟨rfl, hrow⟩
      next => cases h
    · rintro ⟨⟨⟩, hrow⟩
      exact if_pos hrow

/-- A word of a row decodes, to a command of that row (30 R82). -/
theorem decode_of_matchesRow {w : Word} {i : Instr} (h : MatchesRow w i) : ∃ j, decode w = .ok j ∧ opcodeRow j = opcodeRow i := by
  obtain ⟨j, hcommand, hrow⟩ := commandOf_of_opField (opField_of_matchesRow h)
  exact ⟨j, decode_eq_ok_iff.mpr ⟨hcommand, by rwa [MatchesRow, hrow]⟩, hrow⟩

/-- Settles O2: the encoded word is in the command's row, and the fields of its format read back what was put there. -/
theorem decodeOfEncode : Obligations.DecodeOfEncode :=
  fun i => decode_eq_ok_iff.mpr ⟨commandOf_encode i, encode_matchesRow i⟩

/-- Settles O3: both words are the row's match plus the same low bits. -/
theorem encodeOfDecode : Obligations.EncodeOfDecode := by
  intro w i h
  obtain ⟨hcommand, hrow⟩ := decode_eq_ok_iff.mp h
  apply BitVec.eq_of_toNat_eq
  rw [encode_toNat, operand_of_commandOf hcommand, ← matchesRow_iff_toNat.mp hrow]

/-- Settles O4: a word of a row decodes to a command of it; the rows are disjoint because the decoder gives one answer. -/
theorem wordIsCommandExactlyWhenRowMatches : Obligations.WordIsCommandExactlyWhenRowMatches := by
  refine ⟨fun w i h => (decode_eq_ok_iff.mp h).2, fun w i h => decode_of_matchesRow h, fun w i j hi hj => ?_⟩
  obtain ⟨i', hdecode, hrow⟩ := decode_of_matchesRow hi
  obtain ⟨j', hdecode', hrow'⟩ := decode_of_matchesRow hj
  obtain rfl : i' = j' := Except.ok.inj (hdecode.symm.trans hdecode')
  exact hrow.symm.trans hrow'

theorem illegalWord_eq {s : State} (hready : Ready s) : illegalWord s =
    .next (if s.regs.phase = .error then s else { s with regs := enterError .illegalCommand s.regs }) := by
  obtain ⟨regs, out, host, sink, held⟩ := s
  obtain rfl : held = none := hready
  split
  next herror => exact command_error herror
  next hphase => exact command_illegal rfl hphase rfl

/-- Settles O5: a word of no row does not decode, and the three named words do not decode, so they are in no row. -/
theorem unmatchedWordIsIllegal : Obligations.UnmatchedWordIsIllegal := by
  constructor
  · intro s w rest hready hhost hnone
    cases hdecode : decode w with
    | ok i => exact absurd (decode_eq_ok_iff.mp hdecode).2 (hnone i)
    | error e =>
      rw [step_of_decode_error hready hhost hdecode]
      exact illegalWord_eq (s := { s with host := rest }) hready
  · intro i w hw hrow
    have hillegal : [0x00000000#32, 0xFFFFFFFF#32, 0x01000001#32].all (fun w => (decode w).toOption.isNone) := by decide
    obtain ⟨j, hdecode, -⟩ := decode_of_matchesRow hrow
    have hnone := List.all_eq_true.mp hillegal w hw
    simp [hdecode, Except.toOption] at hnone

/-- Settles O1: each word is the encoding of its command. -/
theorem sampleWordsDecode : Obligations.SampleWordsDecode :=
  ⟨decodeOfEncode .rst, decodeOfEncode (.setw 640#16), decodeOfEncode (.setloop 1#1), decodeOfEncode (.settr 1#1 255#8),
    decodeOfEncode (.pal 0xFF#8 0x80#8 0x00#8), decodeOfEncode (.setfd 0x1234#16), decodeOfEncode (.setff 1#1 0#1),
    decodeOfEncode (.pix 255#8)⟩

end Sys2Proof.Machine
end

section
/-! The assembler's words as numbers (30 R85, R86): each is the row's match plus its operands at their places. -/

namespace Sys2Proof.Machine

@[simp] theorem inHalf_iff {v : Nat} : inHalf v = true ↔ v ≤ 65535 := by simp only [inHalf, decide_eq_true_iff]; omega

@[simp] theorem inByte_iff {v : Nat} : inByte v = true ↔ v ≤ 255 := by simp only [inByte, decide_eq_true_iff]; omega

@[simp] theorem inBit_iff {v : Nat} : inBit v = true ↔ v ≤ 1 := by simp only [inBit, decide_eq_true_iff]; omega

@[simp] theorem inRgb_iff {v : Nat} : inRgb v = true ↔ v ≤ 0xFFFFFF := by simp only [inRgb, decide_eq_true_iff]; omega

/-- A line's result, from its ranges and its words in range. -/
theorem assembleLine_eq {l : AsmLine} {ws : List Word} {p : Prop} [Decidable p] (hrange : l.wellFormed = true ↔ p)
    (hwords : p → (expandLine l).map encode = ws) : assembleLine l = if p then .ok ws else .error .operandRange := by
  unfold assembleLine
  by_cases h : p
  · rw [if_pos (hrange.mpr h), if_pos h, hwords h]
  · rw [if_neg (mt hrange.mp h), if_neg h]

theorem words_of_assembleLine {l : AsmLine} {ws : List Word} (h : assembleLine l = .ok ws) : (expandLine l).map encode = ws := by
  unfold assembleLine at h
  split at h
  · exact Except.ok.inj h
  · cases h

/-- The word of a command, from the numbers of its row and of its operand. -/
theorem encode_eq_ofNat {i : Instr} {n : Nat} (h : (opcodeRow i).mat.toNat + operand i = n) : encode i = BitVec.ofNat 32 n := by
  rw [← h, ← encode_toNat, BitVec.ofNat_toNat, BitVec.setWidth_eq]

/-- A command whose operand is one number in range (formats H, L and B). -/
theorem encode_field {i : Instr} {m v width : Nat} (hrow : (opcodeRow i).mat.toNat = m)
    (hoperand : operand i = (BitVec.ofNat width v).toNat) (h : v < 2 ^ width) : encode i = BitVec.ofNat 32 (m + v) :=
  encode_eq_ofNat (by rw [hrow, hoperand, BitVec.toNat_ofNat, Nat.mod_eq_of_lt h])

theorem encode_pal {c : Nat} (h : c ≤ 0xFFFFFF) :
    encode (.pal (BitVec.ofNat 8 (c / 65536)) (BitVec.ofNat 8 (c / 256)) (BitVec.ofNat 8 c)) = BitVec.ofNat 32 (0x15000000 + c) :=
  encode_eq_ofNat (by simp only [operand, opcodeRow, BitVec.toNat_ofNat]; omega)

theorem encode_settr {tv ti : Nat} (htv : tv ≤ 1) (hti : ti ≤ 255) :
    encode (.settr (BitVec.ofNat 1 tv) (BitVec.ofNat 8 ti)) = BitVec.ofNat 32 (0x14000000 + tv * 256 + ti) :=
  encode_eq_ofNat (by simp only [operand, opcodeRow, BitVec.toNat_ofNat]; omega)

theorem encode_setff {tr il : Nat} (htr : tr ≤ 1) (hil : il ≤ 1) :
    encode (.setff (BitVec.ofNat 1 tr) (BitVec.ofNat 1 il)) = BitVec.ofNat 32 (0x35000000 + tr * 2 + il) :=
  encode_eq_ofNat (by simp only [operand, opcodeRow, BitVec.toNat_ofNat]; omega)

/-- A mnemonic with one operand that is a field by itself: one word in range, an assembly error out of range (30 R85). -/
theorem assembleLine_field {l : AsmLine} {i : Instr} {m v limit width : Nat} (hlimit : limit + 1 = 2 ^ width)
    (hrange : l.wellFormed = true ↔ v ≤ limit) (hexpand : expandLine l = [i]) (hrow : (opcodeRow i).mat.toNat = m)
    (hoperand : operand i = (BitVec.ofNat width v).toNat) :
    assembleLine l = if v ≤ limit then .ok [BitVec.ofNat 32 (m + v)] else .error .operandRange :=
  assembleLine_eq hrange fun h => by
    rw [hexpand, List.map_singleton, encode_field hrow hoperand (hlimit ▸ Nat.lt_succ_of_le h)]

/-- Settles O59: a line's words are the encodings of its commands, and those decode to the commands. -/
theorem assemblerWordsDecode : Obligations.AssemblerWordsDecode := by
  refine ⟨⟨rfl, rfl, rfl⟩,
    fun v => ⟨?setw, ?seth, ?setnf, ?setfx, ?setfy, ?setfw, ?setfh, ?setfd, ?setloop, ?pal, ?pix⟩,
    fun tv ti => ?settr, fun tr il => ?setff, fun l ws h => ?decodes⟩
  case setw | seth | setnf | setfx | setfy | setfw | setfh | setfd =>
    exact assembleLine_field (width := 16) rfl inHalf_iff rfl rfl rfl
  case setloop => exact assembleLine_field (width := 1) rfl inBit_iff rfl rfl rfl
  case pal => exact assembleLine_eq inRgb_iff fun hv => congrArg (fun w => [w]) (encode_pal hv)
  case pix => exact assembleLine_field (width := 8) rfl inByte_iff rfl rfl rfl
  case settr =>
    exact assembleLine_eq (by simp [AsmLine.wellFormed]) fun ⟨htv, hti⟩ => congrArg (fun w => [w]) (encode_settr htv hti)
  case setff =>
    exact assembleLine_eq (by simp [AsmLine.wellFormed]) fun ⟨htr, hil⟩ => congrArg (fun w => [w]) (encode_setff htr hil)
  case decodes =>
    rw [← words_of_assembleLine h, List.map_map]
    exact List.map_congr_left fun i _ => decodeOfEncode i

/-- Settles O60: each expansion's words, command by command, with the ranges of the commands. -/
theorem pseudoInstructionsExpand : Obligations.PseudoInstructionsExpand := by
  refine ⟨fun w h => ?canvas, fun cs => ?palette, fun x y w h d tr il => ?framedesc, fun ps => ?pixels, fun n p => ?times⟩
  case canvas =>
    refine assembleLine_eq (by simp [AsmLine.wellFormed]) fun ⟨hw, hh⟩ => ?_
    simp only [expandLine, List.map_cons, List.map_nil, List.cons.injEq, and_true]
    exact ⟨encode_field rfl rfl (by omega), encode_field rfl rfl (by omega)⟩
  case palette =>
    refine assembleLine_eq (by simp [AsmLine.wellFormed]) fun ⟨_, hcs⟩ => ?_
    rw [expandLine, List.map_map]
    exact List.map_congr_left fun c hc => encode_pal (hcs c hc)
  case framedesc =>
    refine assembleLine_eq (by simp [AsmLine.wellFormed, and_assoc]) fun ⟨hx, hy, hw, hh, hd, htr, hil⟩ => ?_
    simp only [expandLine, List.map_cons, List.map_nil, List.cons.injEq, and_true]
    exact ⟨encode_field rfl rfl (by omega), encode_field rfl rfl (by omega), encode_field rfl rfl (by omega),
      encode_field rfl rfl (by omega), encode_field rfl rfl (by omega), encode_setff htr hil⟩
  case pixels =>
    refine assembleLine_eq (by simp [AsmLine.wellFormed]) fun ⟨_, hps⟩ => ?_
    rw [expandLine, List.map_map]
    exact List.map_congr_left fun p hp => encode_field rfl rfl (Nat.lt_succ_of_le (hps p hp))
  case times =>
    refine assembleLine_eq inByte_iff fun hp => ?_
    rw [expandLine, List.map_replicate]
    exact congrArg (List.replicate n) (encode_field rfl rfl (Nat.lt_succ_of_le hp))

end Sys2Proof.Machine
end

section
/-! The global color table, entry by entry (30 R90). -/

namespace Sys2Proof.Machine

@[simp] theorem colorTableEntry_length (r : Regs) (i : Nat) : (colorTableEntry r i).length = 3 := by
  unfold colorTableEntry
  split <;> rfl

theorem length_flatMap_range {α : Type} {f : Nat → List α} {len : Nat} (hlen : ∀ i, (f i).length = len) (n : Nat) :
    ((List.range n).flatMap f).length = len * n := by
  simp [List.length_flatMap, hlen, Nat.mul_comm]

/-- Blocks of one length, one after the other: byte `j` of block `i` stands at `len * i + j`. -/
theorem getElem?_flatMap_range {α : Type} {f : Nat → List α} {len : Nat} (hlen : ∀ i, (f i).length = len) {n i j : Nat} (hi : i < n)
    (hj : j < len) : ((List.range n).flatMap f)[len * i + j]? = (f i)[j]? := by
  induction n with
  | zero => omega
  | succ n ih =>
    rw [List.range_succ, List.flatMap_append]
    rcases Nat.lt_or_eq_of_le (Nat.le_of_lt_succ hi) with hlt | rfl
    · have hin : len * i + j < len * n := by
        calc len * i + j < len * i + len := by omega
          _ = len * (i + 1) := (Nat.mul_succ len i).symm
          _ ≤ len * n := Nat.mul_le_mul_left len hlt
      rw [List.getElem?_append_left (by rw [length_flatMap_range hlen]; exact hin), ih hlt]
    · rw [List.getElem?_append_right (by rw [length_flatMap_range hlen]; omega), length_flatMap_range hlen, Nat.add_sub_cancel_left]
      simp

theorem getElem?_colorTableBytes {r : Regs} {i j : Nat} (hi : i < 2 ^ colorBits r) (hj : j < 3) :
    (colorTableBytes r)[3 * i + j]? = (colorTableEntry r i)[j]? :=
  getElem?_flatMap_range (colorTableEntry_length r) hi hj

/-- Settles O22: the table is its entries one after the other, and each has three bytes. -/
theorem colorTableLayout : Obligations.ColorTableLayout := by
  refine fun r => ⟨length_flatMap_range (colorTableEntry_length r) _, fun i hi => ?_⟩
  have hbyte : ∀ j < 3, (colorTableBytes r)[3 * i + j]? = (colorTableEntry r i)[j]? := fun j => getElem?_colorTableBytes hi
  rw [hbyte 1 (by omega), hbyte 2 (by omega), show (colorTableBytes r)[3 * i]? = _ from hbyte 0 (by omega)]
  unfold colorTableEntry
  split <;> rfl

end Sys2Proof.Machine
end

section
/-! The invariant of the step, the width law that follows from it (40 R115, R120), and the dictionary as a map (40 R110). -/

namespace Sys2Proof.Machine

/-- Settles O52: the inversion of `step`, with good registers after each command and at every byte on offer. -/
theorem stepKeepsInvariant : Obligations.StepKeepsInvariant := fun _ _ => invariant_step

/-- Settles O33: two pairs with one key are one pair, and a clear empties the list. -/
theorem dictionaryIsAMap : Obligations.DictionaryIsAMap :=
  ⟨dictLookup_insert, fun _ => dictLookup_of_dict_nil rfl⟩

/-- The least width that holds NEXTCODE, where it is not ICS + 1 already, is the logarithm rounded up. -/
theorem WidthOk.nbits_eq {r : Regs} (h : WidthOk r) :
    r.nbits.toNat = min 12 (max (ics r + 1) (Nat.clog 2 r.nextcode.toNat)) := by
  obtain ⟨hlow, hhigh, hfits, hleast⟩ := h
  have hclog : Nat.clog 2 r.nextcode.toNat ≤ r.nbits.toNat := Nat.clog_le_of_le_pow hfits
  rcases hleast with hinitial | hnarrow
  · omega
  · have hlog : r.nbits.toNat - 1 < Nat.clog 2 r.nextcode.toNat := (Nat.lt_clog_iff_pow_lt Nat.one_lt_two).mpr hnarrow
    omega

theorem RegsOk.phaseOk_pixels {r : Regs} (h : RegsOk r) (hp : r.phase = .pixels) :
    StreamConfigOk r ∧ r.fdone.toNat < r.nframes.toNat ∧ FrameOk r ∧ LzwOk r := by
  obtain ⟨-, -, hphase⟩ := h
  simpa only [PhaseOk, hp] using hphase

/-- Settles O44: between steps of a run the width rule of the invariant holds, and it is the closed form. -/
theorem widthLaw : Obligations.WidthLaw := by
  intro s hs hready hp
  obtain ⟨-, -, -, hwidth, -⟩ := (hs.regsOk hready).phaseOk_pixels hp
  exact hwidth.nbits_eq

end Sys2Proof.Machine
end

section
/-! The sub-block emitter and the code emitters, each as one equation (40 R112, R113, R114, R116). -/

namespace Sys2Proof.Machine

variable {r : Regs} {code : Nat}

/-! ### The sub-block emitter -/

theorem subFlush_of_empty (h : r.sbcnt = 0#8) : subFlush r = ⟨[], none, r⟩ := by
  simp [subFlush, whenever, h]

theorem subFlush_of_nonempty (hlow : 1 ≤ r.sbcnt.toNat) (hhigh : r.sbcnt.toNat ≤ 254) :
    subFlush r = ⟨(r.sbcnt :: subBlockBytes r).map (Offer.mk r), none, { r with sbcnt := 0#8 }⟩ := by
  unfold subFlush whenever
  rw [if_pos (by simp; omega), program_guard_pass (by simp; omega), program_emit]
  simp

/-- Settles O29: the two equations of `SubFlush`. -/
theorem subFlushFramesSubBlock : Obligations.SubFlushFramesSubBlock := by
  refine ⟨fun r => subFlush_of_empty, fun r hlow hhigh => ?_⟩
  rw [subFlush_of_nonempty hlow hhigh]
  refine ⟨map_byte_mk r _, subBlockBytes_length r, fun o ho => ?_, rfl, rfl⟩
  obtain ⟨b, -, rfl⟩ := List.mem_map.mp ho
  rfl

/-- `SubPut` whatever the count: the byte is stored, and the count goes round from 253 to 0 (40 R112). -/
theorem subPut_regs (v : Byte) (hs : r.sbcnt.toNat ≤ 253) :
    (subPut v r).regs =
      { r with sbbuf := Memory.put r.sbcnt.toNat v r.sbbuf, sbcnt := BitVec.ofNat 8 ((r.sbcnt.toNat + 1) % 254) } := by
  rcases Nat.lt_or_eq_of_le hs with hlt | heq
  · rw [subPut_stores v (by omega), Nat.mod_eq_of_lt (by omega)]
  · rw [subPut_flushes v heq, heq]

/-- Settles O28: the entry stored is the one written, and what leaves at the 254th byte is the buffer with that byte at its end. -/
theorem subPutStoresAndFlushesAt254 : Obligations.SubPutStoresAndFlushesAt254 := by
  intro r v hstores hs
  obtain ⟨-, -, hbuf, -⟩ := hstores
  have hfills := Fills.subPut v hbuf hs
  have hregs := subPut_regs v hs
  have hlength := subBlockBytes_length r
  refine ⟨hfills.stop, by rw [hregs], fun i => ?_, fun hlt => ?_, fun h253 => ⟨?_, ?_, fun o ho => ?_⟩⟩
  · rw [hregs, get_put hbuf]
    exact if_congr eq_comm rfl rfl
  · rw [subPut_stores v (by omega)]
    exact ⟨rfl, by simp; omega⟩
  · have hleaves := congrArg Prod.fst hfills.filled
    rw [fillSubBlock, if_neg (by simp; omega), List.take_of_length_le (by simp; omega)] at hleaves
    exact hleaves
  · rw [hregs, h253]
  · rw [subPut_flushes v h253] at ho ⊢
    obtain ⟨b, -, rfl⟩ := List.mem_map.mp ho
    rfl

/-! ### The code emitters -/

theorem widened_eq (r : Regs) : widened r =
    if 2 ^ r.nbits.toNat - 1 < r.nextcode.toNat ∧ r.nbits.toNat < 12 then r.nbits.toNat + 1 else r.nbits.toNat := by
  simp [widened, mustWiden]

theorem widened_lt (r : Regs) : widened r < 16 := by
  have := r.nbits.isLt
  rw [widened_eq]
  split <;> omega

/-- `EmitCode` is `PackCode` and then the width rule, which reads what `PackCode` leaves alone (40 R114). -/
theorem emitCode_eq (h : (packCode code r).stop = none) :
    emitCode code r =
      ⟨(packCode code r).offers, none, { (packCode code r).regs with nbits := BitVec.ofNat 4 (widened r) }⟩ := by
  obtain ⟨-, hframe⟩ := packCode_within code r
  have hnbits : (packCode code r).regs.nbits = r.nbits := by rw [hframe]
  have hnext : (packCode code r).regs.nextcode = r.nextcode := by rw [hframe]
  have hmust : mustWiden (packCode code r).regs = mustWiden r := by simp only [mustWiden, hnbits, hnext]
  unfold emitCode widened
  rw [program_cons, andThen_of_none h, program_single, whenever, hmust]
  split
  · simp [hnbits]
  · simp [← hnbits]

/-- Settles O30: the equation of `EmitCode`. -/
theorem emitCodeWidensAfterPacking : Obligations.EmitCodeWidensAfterPacking := by
  intro r code h
  rw [emitCode_eq h, ← widened_eq]
  exact ⟨rfl, rfl, rfl, Nat.mod_eq_of_lt (widened_lt r)⟩

/-- `EmitClear` is `PackCode` of CLEARC and then the clear (40 R116). -/
theorem emitClear_eq (h : (packCode (clearCode r) r).stop = none) :
    emitClear r =
      ⟨(packCode (clearCode r) r).offers, none, clearDictionary (packCode (clearCode r) r).regs⟩ := by
  unfold emitClear
  rw [program_cons, andThen_of_none (p := fun r => packCode (clearCode r) r) h]
  simp

/-- Settles O31: the equation of `EmitClear`; ICS + 1 and FIRSTFREE fit their registers. -/
theorem emitClearRestoresInitialState : Obligations.EmitClearRestoresInitialState := by
  intro r hlow hhigh h
  obtain ⟨-, hframe⟩ := packCode_within (clearCode r) r
  have hpaln : (packCode (clearCode r) r).regs.paln = r.paln := by rw [hframe]
  have hloaded : PaletteLoaded (packCode (clearCode r) r).regs := by
    rw [PaletteLoaded, hpaln]
    omega
  obtain ⟨-, -, hnext, hnbits⟩ := cleared_ok (q := clearDictionary _) hloaded rfl rfl rfl rfl
  rw [firstFree_congr hpaln] at hnext
  rw [ics_congr hpaln] at hnbits
  rw [emitClear_eq h]
  exact ⟨rfl, rfl, rfl, hnbits, hnext⟩

end Sys2Proof.Machine
end

section
/-! The packer as arithmetic: the bytes it moves out are the low bytes of one number, and what it packs next goes on top of that number
(40 R111, 20 R66). -/

namespace Sys2Proof.Machine

/-! ### Numbers as bytes, the lowest first -/

@[simp] theorem littleEndian_length (n value : Nat) : (littleEndian n value).length = n := by simp [littleEndian]

@[simp] theorem littleEndian_zero (value : Nat) : littleEndian 0 value = [] := rfl

theorem littleEndian_one (value : Nat) : littleEndian 1 value = [BitVec.ofNat 8 value] := by simp [littleEndian]

theorem littleEndian_add (m n value : Nat) :
    littleEndian (m + n) value = littleEndian m value ++ littleEndian n (value / 256 ^ m) := by
  simp [littleEndian, List.range_add, Nat.pow_add, Nat.div_div_eq_div_mul, Function.comp_def]

/-- What stands above the lowest `n` bytes does not change them. -/
theorem littleEndian_add_mul (n value high : Nat) : littleEndian n (value + high * 256 ^ n) = littleEndian n value := by
  refine List.map_congr_left fun i hi => BitVec.eq_of_toNat_eq ?_
  have hin : i < n := List.mem_range.mp hi
  have hsplit : high * 256 ^ n = high * 256 ^ (n - i - 1) * 256 * 256 ^ i := by
    rw [Nat.mul_assoc, Nat.mul_assoc, ← Nat.pow_succ', ← Nat.pow_add]
    congr 2
    omega
  rw [hsplit, Nat.add_mul_div_right _ _ (by positivity), BitVec.toNat_ofNat, BitVec.toNat_ofNat, Nat.add_mul_mod_self_right]

theorem two_pow_eq_bytes (total : Nat) : 2 ^ total = 256 ^ (total / 8) * 2 ^ (total % 8) := by
  rw [show 256 = 2 ^ 8 by norm_num, ← Nat.pow_mul, ← Nat.pow_add, Nat.div_add_mod]

/-- A number put above `total` bits: the whole bytes below it stay, and it stands above the bits that are left of them. -/
theorem littleEndian_add_shifted (total bits value code : Nat) :
    littleEndian ((total + bits) / 8) (value + code * 2 ^ total) =
      littleEndian (total / 8) value ++
        littleEndian ((total % 8 + bits) / 8) (value / 256 ^ (total / 8) + code * 2 ^ (total % 8)) := by
  have hcount : (total + bits) / 8 = total / 8 + (total % 8 + bits) / 8 := by omega
  have hcode : code * 2 ^ total = code * 2 ^ (total % 8) * 256 ^ (total / 8) := by
    rw [two_pow_eq_bytes total]
    ring
  rw [hcount, littleEndian_add, hcode, littleEndian_add_mul, Nat.add_mul_div_right _ _ (by positivity)]

theorem toNat_ushiftRight_bytes {w : Nat} (x : BitVec w) (n : Nat) : (x >>> (8 * n)).toNat = x.toNat / 256 ^ n := by
  rw [BitVec.toNat_ushiftRight, Nat.shiftRight_eq_div_pow, Nat.pow_mul]

theorem map_ushiftRight_eq_littleEndian {w : Nat} (x : BitVec w) (n : Nat) :
    (List.range n).map (fun i => (x >>> (8 * i)).setWidth 8) = littleEndian n x.toNat := by
  refine List.map_congr_left fun i _ => BitVec.eq_of_toNat_eq ?_
  rw [BitVec.toNat_setWidth, toNat_ushiftRight_bytes, BitVec.toNat_ofNat]

/-! ### Runs that pack -/

/-- With what ACC held, a run has packed the number `value` of `total` bits: its whole bytes have entered the sub-block buffer, the oldest
first, and the bits that make no whole byte are in ACC (40 R111, R120 (e)). -/
structure Packs (total value : Nat) (r : Regs) (run : Run) : Prop where
  fills : Fills (littleEndian (total / 8) value) r run
  bitcnt : run.regs.bitcnt.toNat = total % 8
  acc : run.regs.acc.toNat = value / 256 ^ (total / 8)
  lt : value < 2 ^ total

variable {total value bits code : Nat} {r : Regs}

theorem Packs.packerOk {run : Run} (h : Packs total value r run) : PackerOk run.regs := by
  refine ⟨by have := h.bitcnt; omega, ?_, h.fills.room⟩
  rw [h.acc, h.bitcnt]
  exact Nat.div_lt_of_lt_mul (two_pow_eq_bytes total ▸ h.lt)

/-- Nothing is packed. -/
theorem Packs.none {q : Regs} (hwf : Memory.wf 254 r.sbbuf = true) (hp : PackerOk r) (hacc : q.acc = r.acc)
    (hbitcnt : q.bitcnt = r.bitcnt) (hsbbuf : q.sbbuf = r.sbbuf) (hsbcnt : q.sbcnt = r.sbcnt) :
    Packs r.bitcnt.toNat r.acc.toNat r ⟨[], Option.none, q⟩ := by
  obtain ⟨hbits, hlt, hroom⟩ := hp
  have hwhole : r.bitcnt.toNat / 8 = 0 := by omega
  refine ⟨?_, ?_, ?_, hlt⟩
  · rw [hwhole]
    exact Fills.none hsbbuf hsbcnt hwf hroom
  · simp only [hbitcnt]
    omega
  · simp [hwhole, hacc]

/-- `PackCode` of a code that fits (40 R111). -/
theorem packCode_packs (hwf : Memory.wf 254 r.sbbuf = true) (hp : PackerOk r) (hn : r.nbits.toNat ≤ 12)
    (hcode : code < 2 ^ r.nbits.toNat) :
    Packs (r.bitcnt.toNat + r.nbits.toNat) (r.acc.toNat + code * 2 ^ r.bitcnt.toNat) r (packCode code r) := by
  obtain ⟨hfills, -, hacc, hbitcnt⟩ := packCode_fills hwf hp hcode hn
  obtain ⟨hbits, hlt, -⟩ := hp
  have hvalue := addCode_acc_eq hbits hlt hcode hn
  rw [map_ushiftRight_eq_littleEndian, hvalue] at hfills
  refine ⟨hfills, hbitcnt, ?_, hvalue ▸ addCode_acc_lt hlt hcode hn⟩
  rw [hacc, toNat_ushiftRight_bytes, hvalue]

/-- A run that ends in other registers, but with the same packer and buffer. -/
theorem Packs.congr {run : Run} {q : Regs} (h : Packs total value r run) (hacc : q.acc = run.regs.acc)
    (hbitcnt : q.bitcnt = run.regs.bitcnt) (hsbbuf : q.sbbuf = run.regs.sbbuf) (hsbcnt : q.sbcnt = run.regs.sbcnt) :
    Packs total value r ⟨run.offers, Option.none, q⟩ := by
  obtain ⟨⟨-, hfilled, hstored, hwf, hroom⟩, hbits, hvalue, hlt⟩ := h
  refine ⟨⟨rfl, ?_, ?_, ?_, ?_⟩, ?_, ?_, hlt⟩
  · simpa only [offeredBytes, subBlockBytes_congr hsbbuf hsbcnt] using hfilled
  all_goals simpa only [hacc, hbitcnt, hsbbuf, hsbcnt]

/-- `EmitCode` packs what `PackCode` packs (40 R114). -/
theorem emitCode_packs (hwf : Memory.wf 254 r.sbbuf = true) (hp : PackerOk r) (hn : r.nbits.toNat ≤ 12)
    (hcode : code < 2 ^ r.nbits.toNat) :
    Packs (r.bitcnt.toNat + r.nbits.toNat) (r.acc.toNat + code * 2 ^ r.bitcnt.toNat) r (emitCode code r) := by
  have hpacks := packCode_packs hwf hp hn hcode
  rw [emitCode_eq hpacks.fills.stop]
  exact hpacks.congr rfl rfl rfl rfl

/-- `EmitClear` packs CLEARC (40 R116). -/
theorem emitClear_packs (hwf : Memory.wf 254 r.sbbuf = true) (hp : PackerOk r) (hn : r.nbits.toNat ≤ 12)
    (hcode : clearCode r < 2 ^ r.nbits.toNat) :
    Packs (r.bitcnt.toNat + r.nbits.toNat) (r.acc.toNat + clearCode r * 2 ^ r.bitcnt.toNat) r (emitClear r) := by
  have hpacks := packCode_packs hwf hp hn hcode
  rw [emitClear_eq hpacks.fills.stop]
  exact hpacks.congr rfl rfl rfl rfl

/-- A second code goes above everything packed before it, with too few bytes for the buffer to fill twice. -/
theorem Packs.andThen {p q : Micro} (hp : Packs total value r (p r))
    (hq : Packs ((p r).regs.bitcnt.toNat + bits) ((p r).regs.acc.toNat + code * 2 ^ (p r).regs.bitcnt.toNat) (p r).regs
      (q (p r).regs))
    (hcode : code < 2 ^ bits) (hroom : r.sbcnt.toNat + (total + bits) / 8 < 508) :
    Packs (total + bits) (value + code * 2 ^ total) r (Sys2Proof.Machine.andThen p q r) := by
  have hand := andThen_of_none (q := q) hp.fills.stop
  rw [hp.bitcnt, hp.acc] at hq
  obtain ⟨hfills, hbitcnt, hacc, -⟩ := hq
  have hcount : (total + bits) / 8 = total / 8 + (total % 8 + bits) / 8 := by omega
  refine ⟨?_, ?_, ?_, ?_⟩
  · rw [littleEndian_add_shifted]
    exact hp.fills.andThen hfills (by simp [subBlockBytes_length]; omega)
  · rw [hand, hbitcnt]
    omega
  · have hhigh : code * 2 ^ total = code * 2 ^ (total % 8) * 256 ^ (total / 8) := by
      rw [two_pow_eq_bytes total]
      ring
    rw [hand, hacc, hcount, Nat.pow_add, ← Nat.div_div_eq_div_mul, hhigh, Nat.add_mul_div_right _ _ (by positivity)]
  · calc value + code * 2 ^ total < 2 ^ total + code * 2 ^ total := Nat.add_lt_add_right hp.lt _
      _ = (code + 1) * 2 ^ total := by ring
      _ ≤ 2 ^ bits * 2 ^ total := Nat.mul_le_mul_right _ hcode
      _ = 2 ^ (total + bits) := by ring

/-! ### `PackCode` at a byte on offer -/

/-- While the sub-block that `PackCode` fills is on offer, ACC and BITCNT have lost the bytes stored before the 254th (60 R206). -/
theorem packCode_offers (hwf : Memory.wf 254 r.sbbuf = true) (hp : PackerOk r) (hn : r.nbits.toNat ≤ 12)
    (hcode : code < 2 ^ r.nbits.toNat) {o : Offer} (ho : o ∈ (packCode code r).offers) :
    o.regs = { r with acc := o.regs.acc, bitcnt := o.regs.bitcnt, sbbuf := o.regs.sbbuf, sbcnt := 254#8 } ∧
    o.regs.bitcnt.toNat + 8 * (253 - r.sbcnt.toNat) = r.bitcnt.toNat + r.nbits.toNat ∧
    o.regs.acc.toNat = (r.acc.toNat + code * 2 ^ r.bitcnt.toNat) / 256 ^ (253 - r.sbcnt.toNat) := by
  obtain ⟨hbits, hlt, hroom⟩ := hp
  have hbitcnt : (addCode code r).bitcnt.toNat = r.bitcnt.toNat + r.nbits.toNat := by
    rw [addCode_bitcnt, BitVec.toNat_ofNat]
    exact Nat.mod_eq_of_lt (by omega)
  rw [packCode_eq hbits hcode hn] at ho
  obtain ⟨hturns, hregs⟩ := repeatShift_offers _ (addCode code r) hwf hroom (by omega) (by omega) o ho
  rw [addCode_sbcnt] at hturns hregs
  rw [hregs]
  refine ⟨rfl, ?_, ?_⟩
  · simp only [hbitcnt, BitVec.toNat_ofNat]
    omega
  · rw [toNat_ushiftRight_bytes, addCode_acc_eq hbits hlt hcode hn]

/-- Settles O27: what `PackCode` packs, what it leaves alone, and the registers at its offers. -/
theorem packCodePacksLowBitsFirst : Obligations.PackCodePacksLowBitsFirst := by
  intro r code hstores hp hn hcode
  obtain ⟨-, -, hwf, -⟩ := hstores
  obtain ⟨hfills, hbitcnt, hacc, -⟩ := packCode_packs hwf hp hn hcode
  exact ⟨hfills.stop, (packCode_within code r).2, hbitcnt, hacc, hfills.filled, fun o => packCode_offers hwf hp hn hcode,
    fun i hi => hfills.stored i fun j hj => hi j (by simpa using hj)⟩

end Sys2Proof.Machine
end

section
/-! `LzwPixel` branch by branch, and PIX short of the frame's last pixel (40 R117, R121). -/

namespace Sys2Proof.Machine

variable {r : Regs} {c : Byte} {s : State}

/-! ### The branches -/

theorem lzwPixel_of_first (hfirst : r.pixcnt = 0#32) : lzwPixel c r = ⟨[], none, { r with cur := pixelCode c }⟩ := if_pos hfirst

theorem lzwPixel_of_hit {code : BitVec 12} (hnot : r.pixcnt ≠ 0#32) (hhit : dictLookup r r.cur c = some code) :
    lzwPixel c r = ⟨[], none, { r with cur := code }⟩ := by
  refine (if_neg hnot).trans ?_
  rw [hhit]
  rfl

theorem lzwPixel_of_miss (hnot : r.pixcnt ≠ 0#32) (hmiss : dictLookup r r.cur c = none) : lzwPixel c r = lzwMiss c r := by
  refine (if_neg hnot).trans ?_
  rw [hmiss]

/-- The code of CUR, as a miss and the end of a frame emit it (40 R117, R118). -/
def emitCur : Micro := fun r => emitCode r.cur.toNat r

/-- A miss with room in the dictionary: CUR is emitted, then the pair is learned. -/
theorem lzwMiss_of_room (hstop : (emitCur r).stop = none) (hroom : (emitCur r).regs.nextcode.toNat < 4096) :
    lzwMiss c r = ⟨(emitCur r).offers, none, { insertPair c (emitCur r).regs with cur := pixelCode c }⟩ := by
  show andThen emitCur _ r = _
  rw [andThen_of_none hstop, program_cons, andThen, ifElse, if_pos (by simpa using hroom)]
  simp

/-- A miss with a full dictionary: CUR is emitted, then CLEARC, and the dictionary starts again. -/
theorem lzwMiss_of_full (hstop : (emitCur r).stop = none) (hclear : (emitClear (emitCur r).regs).stop = none)
    (hfull : (emitCur r).regs.nextcode.toNat = 4096) :
    lzwMiss c r = ⟨(andThen emitCur emitClear r).offers, none,
      { (andThen emitCur emitClear r).regs with cur := pixelCode c }⟩ := by
  show andThen emitCur _ r = _
  rw [andThen_of_none hstop, andThen_of_none hstop, program_cons, andThen, ifElse, if_neg (by simp [hfull])]
  simp [hclear]

/-! ### The registers of a frame -/

/-- What the compressor needs of the registers (40 R120): SBBUF in canonical form, a palette, and the invariants of R120. -/
def CompressorOk (r : Regs) : Prop := Memory.wf 254 r.sbbuf = true ∧ PaletteLoaded r ∧ LzwOk r

theorem RegsOk.compressorOk (h : RegsOk r) (hp : r.phase = .pixels) : CompressorOk r := by
  obtain ⟨hconfig, -, -, hlzw⟩ := h.phaseOk_pixels hp
  obtain ⟨-, -, hwf, -⟩ := h.1
  exact ⟨hwf, paletteLoaded_of h.1 hconfig, hlzw⟩

theorem CompressorOk.cur_lt (h : CompressorOk r) : r.cur.toNat < 2 ^ r.nbits.toNat := by
  obtain ⟨-, -, ⟨-, -, hfits, -⟩, -, ⟨hcur, -⟩, -⟩ := h
  exact hcur.trans_le hfits

theorem emitCur_packs (h : CompressorOk r) :
    Packs (r.bitcnt.toNat + r.nbits.toNat) (r.acc.toNat + r.cur.toNat * 2 ^ r.bitcnt.toNat) r (emitCur r) := by
  have hcur := h.cur_lt
  obtain ⟨hwf, -, ⟨-, hn, -⟩, -, -, hp⟩ := h
  exact emitCode_packs hwf hp hn hcur

/-- What `EmitCode` changes: the packer, the buffer, and NBITS by the width rule (40 R114). -/
theorem emitCode_regs {code : Nat} (hstop : (packCode code r).stop = none) :
    EmitFrame r (emitCode code r).regs ∧ (emitCode code r).regs.nbits.toNat = widened r := by
  obtain ⟨-, hframe⟩ := packCode_within code r
  rw [emitCode_eq hstop]
  exact ⟨hframe.emit.trans rfl, Nat.mod_eq_of_lt (widened_lt r)⟩

theorem emitCur_regs (h : CompressorOk r) : EmitFrame r (emitCur r).regs ∧ (emitCur r).regs.nbits.toNat = widened r := by
  have hcur := h.cur_lt
  obtain ⟨hwf, -, ⟨-, hn, -⟩, -, -, hp⟩ := h
  exact emitCode_regs (packCode_packs hwf hp hn hcur).fills.stop

/-- A miss with room in the dictionary (40 R114, R117). -/
theorem lzwPixel_learns (h : CompressorOk r) (hnot : r.pixcnt ≠ 0#32) (hmiss : dictLookup r r.cur c = none)
    (hroom : r.nextcode.toNat < 4096) :
    Packs (r.bitcnt.toNat + r.nbits.toNat) (r.acc.toNat + r.cur.toNat * 2 ^ r.bitcnt.toNat) r (lzwPixel c r) ∧
    (lzwPixel c r).regs.cur = pixelCode c ∧
    (lzwPixel c r).regs.nextcode.toNat = r.nextcode.toNat + 1 ∧
    (lzwPixel c r).regs.nbits.toNat = widened r ∧
    ∀ p d, dictLookup (lzwPixel c r).regs p d =
      if p = r.cur ∧ d = c then some (BitVec.ofNat 12 r.nextcode.toNat) else dictLookup r p d := by
  have hpacks := emitCur_packs h
  obtain ⟨hframe, hnbits⟩ := emitCur_regs h
  have hnext : (emitCur r).regs.nextcode = r.nextcode := by rw [hframe]
  have hcur : (emitCur r).regs.cur = r.cur := by rw [hframe]
  have hdict : (emitCur r).regs.dict = r.dict := by rw [hframe]
  rw [lzwPixel_of_miss hnot hmiss, lzwMiss_of_room hpacks.fills.stop (by rwa [hnext])]
  generalize emitCur r = run at *
  refine ⟨hpacks.congr rfl rfl rfl rfl, rfl, ?_, hnbits, fun p d => ?_⟩
  · simp only [insertPair_nextcode, hnext, BitVec.toNat_ofNat]
    omega
  · have hlookup : dictLookup run.regs p d = dictLookup r p d := by rw [dictLookup, hdict, dictLookup]
    rw [← hlookup, ← hcur, ← hnext]
    refine (dictLookup_insert run.regs _ p c d).trans (if_congr ?_ rfl rfl)
    exact and_congr eq_comm eq_comm

/-- With a full dictionary the codes are 12 bits wide (40 R115). -/
theorem CompressorOk.nbits_of_full (h : CompressorOk r) (hfull : r.nextcode.toNat = 4096) : r.nbits.toNat = 12 := by
  obtain ⟨-, -, ⟨-, hn, hfits, -⟩, -⟩ := h
  by_contra hne
  have : 2 ^ r.nbits.toNat ≤ 2 ^ 11 := Nat.pow_le_pow_right (by omega) (by omega)
  omega

/-- `EmitClear` at 12 bits (40 R116). -/
theorem emitClear_at_twelve (hwf : Memory.wf 254 r.sbbuf = true) (hp : PackerOk r) (hl : PaletteLoaded r) (hn : r.nbits.toNat = 12) :
    Packs (r.bitcnt.toNat + 12) (r.acc.toNat + clearCode r * 2 ^ r.bitcnt.toNat) r (emitClear r) ∧
    (emitClear r).regs.dict = [] ∧ (emitClear r).regs.nextcode.toNat = firstFree r ∧
    (emitClear r).regs.nbits.toNat = ics r + 1 := by
  obtain ⟨hne, hle⟩ := hl
  obtain ⟨-, hics, -⟩ := ics_range hne hle
  have hfits : clearCode r < 2 ^ r.nbits.toNat := by
    have := clearCode_le hics
    rw [hn]
    omega
  have hstop := (packCode_packs hwf hp hn.le hfits).fills.stop
  obtain ⟨-, -, -, hnbits, hnext⟩ := emitClearRestoresInitialState r (Nat.pos_of_ne_zero hne) hle hstop
  exact ⟨hn ▸ emitClear_packs hwf hp hn.le hfits, by rw [emitClear_eq hstop]; rfl, hnext, hnbits⟩

/-- A miss with a full dictionary (40 R116, R117). -/
theorem lzwPixel_clears (h : CompressorOk r) (hnot : r.pixcnt ≠ 0#32) (hmiss : dictLookup r r.cur c = none)
    (hfull : r.nextcode.toNat = 4096) :
    Packs (r.bitcnt.toNat + 24)
      (r.acc.toNat + r.cur.toNat * 2 ^ r.bitcnt.toNat + clearCode r * 2 ^ (r.bitcnt.toNat + 12)) r (lzwPixel c r) ∧
    (lzwPixel c r).regs.cur = pixelCode c ∧ (lzwPixel c r).regs.dict = [] ∧
    (lzwPixel c r).regs.nextcode.toNat = firstFree r ∧ (lzwPixel c r).regs.nbits.toNat = ics r + 1 := by
  have hwide := h.nbits_of_full hfull
  have hcur := emitCur_packs h
  obtain ⟨hframe, hnbits⟩ := emitCur_regs h
  have hnext : (emitCur r).regs.nextcode = r.nextcode := by rw [hframe]
  have hpaln : (emitCur r).regs.paln = r.paln := by rw [hframe]
  obtain ⟨-, hloaded, -, -, -, hbits, -, hroom⟩ := h
  have hstill : (emitCur r).regs.nbits.toNat = 12 := by rw [hnbits, widened_eq, hwide]; simp
  have hloaded' : PaletteLoaded (emitCur r).regs := by rwa [PaletteLoaded, hpaln]
  obtain ⟨hclear, hdict, hnext', hnbits'⟩ := emitClear_at_twelve hcur.fills.wf hcur.packerOk hloaded' hstill
  rw [hwide] at hcur
  rw [clearCode_congr hpaln] at hclear
  rw [firstFree_congr hpaln] at hnext'
  rw [ics_congr hpaln] at hnbits'
  have hfits : clearCode r < 2 ^ 12 := by
    have := clearCode_le (ics_range hloaded.1 hloaded.2).2.1
    omega
  have hboth : Packs (r.bitcnt.toNat + 24) _ r _ := hcur.andThen hclear hfits (by omega)
  rw [lzwPixel_of_miss hnot hmiss, lzwMiss_of_full hcur.fills.stop hclear.fills.stop (by rw [hnext, hfull])]
  refine ⟨hboth.congr rfl rfl rfl rfl, rfl, ?_⟩
  rw [andThen_of_none hcur.fills.stop]
  exact ⟨hdict, hnext', hnbits'⟩

/-- The bits `LzwPixel` packs: none, CUR, or CUR and CLEARC (40 R117). -/
def pixelBits (c : Byte) (r : Regs) : Nat :=
  if r.pixcnt = 0#32 ∨ dictLookup r r.cur c ≠ none then 0
  else if r.nextcode.toNat < 4096 then r.nbits.toNat else 2 * r.nbits.toNat

theorem pixelBits_le (h : CompressorOk r) : pixelBits c r ≤ 24 := by
  obtain ⟨-, -, ⟨-, hn, -⟩, -⟩ := h
  unfold pixelBits
  split
  · omega
  · split <;> omega

/-- `LzwPixel` in every branch. -/
theorem lzwPixel_packs (h : CompressorOk r) (c : Byte) :
    ∃ value, Packs (r.bitcnt.toNat + pixelBits c r) value r (lzwPixel c r) := by
  have hsame : ∀ q : Regs, q.acc = r.acc → q.bitcnt = r.bitcnt → q.sbbuf = r.sbbuf → q.sbcnt = r.sbcnt →
      ∃ value, Packs (r.bitcnt.toNat + 0) value r ⟨[], none, q⟩ := by
    obtain ⟨hwf, -, -, -, -, hp⟩ := h
    exact fun q hacc hbitcnt hsbbuf hsbcnt => ⟨_, Packs.none hwf hp hacc hbitcnt hsbbuf hsbcnt⟩
  unfold pixelBits
  by_cases hfirst : r.pixcnt = 0#32
  · rw [if_pos (.inl hfirst), lzwPixel_of_first hfirst]
    exact hsame _ rfl rfl rfl rfl
  cases hfound : dictLookup r r.cur c with
  | some code =>
    rw [if_pos (.inr (by simp)), lzwPixel_of_hit hfirst hfound]
    exact hsame _ rfl rfl rfl rfl
  | none =>
    rw [if_neg (by simp [hfirst])]
    by_cases hroom : r.nextcode.toNat < 4096
    · rw [if_pos hroom]
      exact ⟨_, (lzwPixel_learns h hfirst hfound hroom).1⟩
    · have hfull : r.nextcode.toNat = 4096 := by
        obtain ⟨-, -, -, ⟨-, hle, -⟩, -⟩ := h
        omega
      rw [if_neg hroom, h.nbits_of_full hfull]
      exact ⟨_, (lzwPixel_clears h hfirst hfound hfull).1⟩

/-! ### PIX -/

theorem exec_pix (hready : Ready s) (hp : s.regs.phase = .pixels) : exec (.pix c) s = deliver (pixMicro c s.regs) s :=
  (exec_eq_command (by simp) s).trans (command_legal hready (by simp [hp]) (by rw [hp]; rfl))

/-- A sink that accepts everything takes every byte of a run that comes to its end. -/
theorem deliver_to_end {run : Run} (hsink : AcceptsAll s.sink) (hstop : run.stop = none) :
    deliver run s = .next { s with
      regs := run.regs, out := s.out ++ offeredBytes run, sink := sinkDrop run.offers.length s.sink, held := none } := by
  rw [deliver_acceptsAll hsink, hstop]
  rfl

theorem acceptsAll_sinkDrop {k : Sink} (h : AcceptsAll k) (n : Nat) : AcceptsAll (sinkDrop n k) := by
  obtain ⟨hrest, hscript⟩ := h
  exact ⟨hrest, fun a ha => hscript a (List.mem_of_mem_drop ha)⟩

/-- PIX with an index in the palette, up to the count of the pixel (40 R121). -/
theorem pixMicro_eq (hc : c.toNat < r.paln.toNat) (hstop : (lzwPixel c r).stop = none) (hcount : r.pixcnt.toNat < r.npix.toNat) :
    pixMicro c r = andThen (lzwPixel c) (fun q => whenever (fun t => decide (t.pixcnt = t.npix)) endFrame
      { q with pixcnt := BitVec.ofNat 32 (r.pixcnt.toNat + 1) }) r := by
  obtain ⟨-, hframe⟩ := lzwPixel_within c r
  have hpixcnt : (lzwPixel c r).regs.pixcnt = r.pixcnt := by rw [hframe]
  have hnpix := r.npix.isLt
  unfold pixMicro
  rw [program_check_pass (by simpa using hc), program_cons, andThen_of_none hstop, andThen_of_none hstop,
    program_guard_pass (by simp [hpixcnt]; omega), program_write, program_singleton, hpixcnt]

/-- PIX that is not the last of its frame. -/
theorem pixMicro_of_not_last (hc : c.toNat < r.paln.toNat) (hstop : (lzwPixel c r).stop = none)
    (hmore : r.pixcnt.toNat + 1 < r.npix.toNat) :
    pixMicro c r = ⟨(lzwPixel c r).offers, none,
      { (lzwPixel c r).regs with pixcnt := BitVec.ofNat 32 (r.pixcnt.toNat + 1) }⟩ := by
  obtain ⟨-, hframe⟩ := lzwPixel_within c r
  have hnpix : (lzwPixel c r).regs.npix = r.npix := by rw [hframe]
  have hne : BitVec.ofNat 32 (r.pixcnt.toNat + 1) ≠ r.npix := by
    intro heq
    have := congrArg BitVec.toNat heq
    have := r.npix.isLt
    rw [BitVec.toNat_ofNat] at *
    omega
  rw [pixMicro_eq hc hstop (by omega), andThen_of_none hstop, whenever, if_neg (by simpa [hnpix] using hne)]
  simp

/-- The last PIX of a frame. -/
theorem pixMicro_of_last (hc : c.toNat < r.paln.toNat) (hstop : (lzwPixel c r).stop = none)
    (hlast : r.pixcnt.toNat + 1 = r.npix.toNat) :
    pixMicro c r = andThen (lzwPixel c) (fun q => endFrame { q with pixcnt := r.npix }) r := by
  obtain ⟨-, hframe⟩ := lzwPixel_within c r
  have hnpix : (lzwPixel c r).regs.npix = r.npix := by rw [hframe]
  have heq : BitVec.ofNat 32 (r.pixcnt.toNat + 1) = r.npix := by
    rw [hlast, BitVec.ofNat_toNat, BitVec.setWidth_eq]
  rw [pixMicro_eq hc hstop (by omega), heq, andThen_of_none hstop, andThen_of_none hstop, whenever, if_pos (by simp [hnpix])]

/-- A pixel for which no byte is offered does not ask the sink. -/
theorem exec_pix_of_quiet {q : Regs} (hready : Ready s) (hp : s.regs.phase = .pixels) (hc : c.toNat < s.regs.paln.toNat)
    (hpixel : lzwPixel c s.regs = ⟨[], none, q⟩) (hmore : s.regs.pixcnt.toNat + 1 < s.regs.npix.toNat) :
    exec (.pix c) s = .next { s with regs := { q with pixcnt := BitVec.ofNat 32 (s.regs.pixcnt.toNat + 1) } } := by
  unfold Ready at hready
  rw [exec_pix hready hp, pixMicro_of_not_last hc (by rw [hpixel]) hmore, hpixel, deliver_quiet, ← hready]

/-- A sink that accepts everything takes the bytes of `LzwPixel`. -/
theorem exec_pix_of_not_last {q : Regs} {bytes : List Byte} (hready : Ready s) (hp : s.regs.phase = .pixels)
    (hsink : AcceptsAll s.sink) (hc : c.toNat < s.regs.paln.toNat) (hmore : s.regs.pixcnt.toNat + 1 < s.regs.npix.toNat)
    (hstop : (lzwPixel c s.regs).stop = none) (hregs : (lzwPixel c s.regs).regs = q)
    (hbytes : offeredBytes (lzwPixel c s.regs) = bytes) :
    exec (.pix c) s = .next { s with
      regs := { q with pixcnt := BitVec.ofNat 32 (s.regs.pixcnt.toNat + 1) }
      out := s.out ++ bytes
      sink := sinkDrop (lzwPixel c s.regs).offers.length s.sink } := by
  unfold Ready at hready
  rw [exec_pix hready hp, pixMicro_of_not_last hc hstop hmore, deliver_to_end hsink rfl, ← hready, ← hregs, ← hbytes]
  rfl

/-- Settles O34: the first branch of `LzwPixel`. -/
theorem pixFirstSeedsCur : Obligations.PixFirstSeedsCur := by
  refine ⟨fun r c => lzwPixel_of_first, fun s c hready hp hc hfirst hmore => ?_⟩
  rw [exec_pix_of_quiet hready hp hc (lzwPixel_of_first hfirst) (by simpa [hfirst] using hmore), hfirst]
  rfl

/-- Settles O35: the second branch of `LzwPixel`. -/
theorem pixHitReplacesCur : Obligations.PixHitReplacesCur :=
  ⟨fun _ _ _ hnot hhit => lzwPixel_of_hit hnot hhit,
    fun _ _ _ hready hp hc hnot hhit hmore => exec_pix_of_quiet hready hp hc (lzwPixel_of_hit hnot hhit) hmore⟩

/-- The pixel is counted, and counting it does not overflow (10 R40). -/
theorem toNat_pixcnt_succ (h : r.pixcnt.toNat + 1 < r.npix.toNat) :
    (BitVec.ofNat 32 (r.pixcnt.toNat + 1)).toNat = r.pixcnt.toNat + 1 := by
  have := r.npix.isLt
  rw [BitVec.toNat_ofNat]
  exact Nat.mod_eq_of_lt (by omega)

theorem LzwFrame.of_cur {q : Regs} {cur : BitVec 12} (h : LzwFrame r q) (hcur : q.cur = cur) :
    q = { r with
      cur := cur, nextcode := q.nextcode, nbits := q.nbits, dict := q.dict
      acc := q.acc, bitcnt := q.bitcnt, sbbuf := q.sbbuf, sbcnt := q.sbcnt } := hcur ▸ h

/-- Settles O36: CUR is packed, and the insertion changes nothing of the packer. -/
theorem pixMissPacksCurAndLearnsPair : Obligations.PixMissPacksCurAndLearnsPair := by
  constructor
  · intro r c hp h hc hnot hmiss hroom
    obtain ⟨hpacks, hcur, hnext, hnbits, hdict⟩ := lzwPixel_learns (h.compressorOk hp) hnot hmiss hroom
    exact ⟨hpacks.fills.stop, LzwFrame.of_cur (lzwPixel_within c r).2 hcur, hnext, hnbits.trans (widened_eq r), hdict,
      hpacks.bitcnt, hpacks.acc, hpacks.fills.filled⟩
  · intro s c hready hp h hsink hc hnot hmiss hroom hmore
    obtain ⟨hpacks, hcur, hnext, hnbits, hdict⟩ := lzwPixel_learns (h.compressorOk hp) hnot hmiss hroom
    have hregs := LzwFrame.of_cur (lzwPixel_within c s.regs).2 hcur
    exact ⟨_, exec_pix_of_not_last hready hp hsink hc hmore hpacks.fills.stop hregs (congrArg Prod.fst hpacks.fills.filled), rfl,
      acceptsAll_sinkDrop hsink _, toNat_pixcnt_succ hmore, hnext, hnbits.trans (widened_eq _), hdict, hpacks.bitcnt, hpacks.acc,
      congrArg Prod.snd hpacks.fills.filled⟩

/-- Settles O37: CLEARC is packed on top of CUR, both at 12 bits. -/
theorem pixMissWithFullDictionaryClears : Obligations.PixMissWithFullDictionaryClears := by
  constructor
  · intro r c hp h hc hnot hmiss hfull
    obtain ⟨hpacks, hcur, hdict, hnext, hnbits⟩ := lzwPixel_clears (h.compressorOk hp) hnot hmiss hfull
    have hregs := LzwFrame.of_cur (lzwPixel_within c r).2 hcur
    rw [hdict] at hregs
    exact ⟨hpacks.fills.stop, hregs, hnext, hnbits, hpacks.bitcnt, hpacks.acc, hpacks.fills.filled⟩
  · intro s c hready hp h hsink hc hnot hmiss hfull hmore
    obtain ⟨hpacks, hcur, hdict, hnext, hnbits⟩ := lzwPixel_clears (h.compressorOk hp) hnot hmiss hfull
    have hregs := LzwFrame.of_cur (lzwPixel_within c s.regs).2 hcur
    rw [hdict] at hregs
    exact ⟨_, exec_pix_of_not_last hready hp hsink hc hmore hpacks.fills.stop hregs (congrArg Prod.fst hpacks.fills.filled), rfl,
      acceptsAll_sinkDrop hsink _, toNat_pixcnt_succ hmore, hnext, hnbits, hpacks.bitcnt, hpacks.acc,
      congrArg Prod.snd hpacks.fills.filled⟩

/-- Settles O42: the whole bytes among the bits packed enter the buffer, which fills at most once. -/
theorem pixOffersNothingOrOneFullSubBlock : Obligations.PixOffersNothingOrOneFullSubBlock := by
  intro r c h hp hc hmore
  have hok := h.compressorOk hp
  have hbits24 := pixelBits_le (c := c) hok
  obtain ⟨value, ⟨hfills, -⟩⟩ := lzwPixel_packs hok c
  obtain ⟨-, -, -, -, -, hbits7, -, hroom⟩ := hok
  rw [pixMicro_of_not_last hc hfills.stop hmore]
  refine ⟨(r.bitcnt.toNat + pixelBits c r) / 8, by omega, ?_, rfl, ?_, ?_, fun i hi => hfills.stored i (by simpa using hi)⟩
  · unfold pixelBits
    split
    · omega
    · split <;> rfl
  · simpa using hfills.count (by simp; omega)
  · exact hfills.offers.imp And.left fun ⟨hlength, hhead, _⟩ => ⟨hlength, hhead⟩

end Sys2Proof.Machine
end

section
/-! The end of a frame (40 R118, 41 R150, R151): CUR and EOFC, the padded last byte, the partial sub-block, the terminator and, after the
last frame, the trailer. -/

namespace Sys2Proof.Machine

variable {r : Regs} {c : Byte} {s : State}

/-! ### At a byte of a full sub-block -/

/-- From `r` on only the packer, the buffer and the width have changed, and every byte offered belongs to a full sub-block (60 R206). -/
def OffersFullSubBlocks (r : Regs) (run : Run) : Prop :=
  (∀ o ∈ run.offers, EmitFrame r o.regs ∧ o.regs.sbcnt = 254#8) ∧ EmitFrame r run.regs

theorem OffersFullSubBlocks.andThen {p q : Micro} (hp : OffersFullSubBlocks r (p r)) (hstop : (p r).stop = none)
    (hq : OffersFullSubBlocks (p r).regs (q (p r).regs)) : OffersFullSubBlocks r (andThen p q r) := by
  obtain ⟨hpoffers, hpregs⟩ := hp
  obtain ⟨hqoffers, hqregs⟩ := hq
  rw [andThen_of_none hstop]
  refine ⟨fun o ho => ?_, hpregs.trans hqregs⟩
  rcases List.mem_append.mp ho with ho | ho
  · exact hpoffers o ho
  · obtain ⟨hframe, hfull⟩ := hqoffers o ho
    exact ⟨hpregs.trans hframe, hfull⟩

theorem emitCode_offersFull {code : Nat} (hwf : Memory.wf 254 r.sbbuf = true) (hp : PackerOk r) (hn : r.nbits.toNat ≤ 12)
    (hcode : code < 2 ^ r.nbits.toNat) : OffersFullSubBlocks r (emitCode code r) := by
  have hstop := (packCode_packs hwf hp hn hcode).fills.stop
  refine ⟨fun o ho => ?_, (emitCode_regs hstop).1⟩
  rw [emitCode_eq hstop] at ho
  obtain ⟨hregs, -⟩ := packCode_offers hwf hp hn hcode ho
  rw [hregs]
  exact ⟨rfl, rfl⟩

/-! ### The last codes -/

/-- The second code of `LzwFinish` (40 R118). -/
def emitEof : Micro := fun r => emitCode (eofCode r) r

/-- The bits of CUR and EOFC on top of those ACC holds (40 R118). -/
def finishBits (r : Regs) : Nat := r.bitcnt.toNat + r.nbits.toNat + widened r

/-- The number they make. -/
def finishValue (r : Regs) : Nat :=
  r.acc.toNat + r.cur.toNat * 2 ^ r.bitcnt.toNat + eofCode r * 2 ^ (r.bitcnt.toNat + r.nbits.toNat)

theorem widened_bounds (h : CompressorOk r) : r.nbits.toNat ≤ widened r ∧ widened r ≤ 12 := by
  obtain ⟨-, -, hwidth, ⟨-, hnext, -⟩, -⟩ := h
  obtain ⟨hlow, hhigh, -⟩ := widened_ok hwidth hnext
  exact ⟨hlow, hhigh⟩

/-- EOFC fits the least width, ICS + 1, and every wider one. -/
theorem eofCode_lt {n : Nat} (hl : PaletteLoaded r) (hn : ics r + 1 ≤ n) : eofCode r < 2 ^ n := by
  have hclear := clearCode_ge (ics_range hl.1 hl.2).1
  calc eofCode r < 2 * clearCode r := by rw [eofCode]; omega
    _ = 2 ^ (ics r + 1) := (two_pow_succ_ics r).symm
    _ ≤ 2 ^ n := Nat.pow_le_pow_right (by omega) hn

/-- CUR at the width in force and EOFC at the width the width rule then gives. -/
theorem lastCodes_pack (h : CompressorOk r) :
    Packs (finishBits r) (finishValue r) r (andThen emitCur emitEof r) ∧ OffersFullSubBlocks r (andThen emitCur emitEof r) := by
  have hcur := emitCur_packs h
  have hcurlt := h.cur_lt
  obtain ⟨hframe, hwide⟩ := emitCur_regs h
  obtain ⟨hmore, h12⟩ := widened_bounds h
  obtain ⟨hwf, hloaded, ⟨hics, hn, -⟩, -, -, hp⟩ := h
  have heof : eofCode (emitCur r).regs = eofCode r := eofCode_congr (by rw [hframe])
  have hfits : eofCode r < 2 ^ widened r := eofCode_lt hloaded (hics.trans hmore)
  have hfits' : eofCode (emitCur r).regs < 2 ^ (emitCur r).regs.nbits.toNat := by rwa [heof, hwide]
  have hn' : (emitCur r).regs.nbits.toNat ≤ 12 := hwide ▸ h12
  have hsecond : Packs ((emitCur r).regs.bitcnt.toNat + widened r)
      ((emitCur r).regs.acc.toNat + eofCode r * 2 ^ (emitCur r).regs.bitcnt.toNat) (emitCur r).regs (emitEof (emitCur r).regs) := by
    rw [← hwide, ← heof]
    exact emitCode_packs hcur.fills.wf hcur.packerOk hn' hfits'
  refine ⟨hcur.andThen hsecond hfits ?_, ?_⟩
  · obtain ⟨hbits, -, hroom⟩ := hp
    omega
  · exact (emitCode_offersFull hwf hp hn hcurlt).andThen hcur.fills.stop
      (emitCode_offersFull hcur.fills.wf hcur.packerOk hn' hfits')

/-! ### The last byte -/

/-- The partial byte of `LzwFinish`, filled up with zero bits (40 R118). -/
def padByte : Micro :=
  whenever (fun r => decide (0 < r.bitcnt.toNat)) (program [
    fun r => subPut (r.acc.setWidth 8) r,
    write (fun r => { r with acc := 0, bitcnt := 0 })])

theorem padByte_of_whole (h : r.bitcnt.toNat = 0) : padByte r = ⟨[], none, r⟩ := by
  simp [padByte, whenever, h]

theorem padByte_of_partial (h : 0 < r.bitcnt.toNat) (hstop : (subPut (r.acc.setWidth 8) r).stop = none) :
    padByte r = ⟨(subPut (r.acc.setWidth 8) r).offers, none,
      { (subPut (r.acc.setWidth 8) r).regs with acc := 0, bitcnt := 0 }⟩ := by
  rw [padByte, whenever, if_pos (by simpa using h), program_cons, andThen_of_none (p := fun r => subPut (r.acc.setWidth 8) r) hstop]
  simp

/-- Whole bytes or not, the bits left in ACC become `(BITCNT + 7) / 8` bytes and ACC is empty. -/
theorem padByte_fills (hwf : Memory.wf 254 r.sbbuf = true) (hp : PackerOk r) :
    Fills (littleEndian ((r.bitcnt.toNat + 7) / 8) r.acc.toNat) r (padByte r) ∧ OffersFullSubBlocks r (padByte r) ∧
    (padByte r).regs.acc = 0#19 ∧ (padByte r).regs.bitcnt = 0#5 := by
  obtain ⟨hbits, hlt, hroom⟩ := hp
  rcases Nat.eq_zero_or_pos r.bitcnt.toNat with hzero | hpos
  · rw [padByte_of_whole hzero]
    rw [hzero] at hlt ⊢
    exact ⟨Fills.none rfl rfl hwf hroom, ⟨by simp, rfl⟩, BitVec.eq_of_toNat_eq (by simpa using hlt), BitVec.eq_of_toNat_eq hzero⟩
  · have hput := Fills.subPut (r.acc.setWidth 8) hwf hroom
    rw [padByte_of_partial hpos hput.stop, show (r.bitcnt.toNat + 7) / 8 = 1 by omega, littleEndian_one]
    refine ⟨?_, ⟨fun o ho => ?_, ?_⟩, rfl, rfl⟩
    · obtain ⟨-, hfilled, hstored, hwf', hroom'⟩ := hput
      exact ⟨rfl, hfilled, hstored, hwf', hroom'⟩
    · obtain ⟨-, hregs⟩ := subPut_offers _ hroom o ho
      rw [hregs]
      exact ⟨rfl, rfl⟩
    · rw [subPut_regs _ hroom]
      rfl

/-! ### `LzwFinish` -/

theorem andThen_assoc (p q m : Micro) : andThen (andThen p q) m = andThen p (andThen q m) := by
  funext r
  cases hp : (p r).stop with
  | some st => rw [andThen_of_some hp, andThen_of_some ((congrArg Run.stop (andThen_of_some hp)).trans hp), andThen_of_some hp]
  | none =>
    have hand := andThen_of_none (q := q) hp
    rw [andThen_of_none (q := andThen q m) hp]
    cases hq : (q (p r).regs).stop with
    | some st => rw [andThen_of_some ((congrArg Run.stop hand).trans hq), andThen_of_some hq, hand]
    | none => rw [andThen_of_none ((congrArg Run.stop hand).trans hq), andThen_of_none hq, hand]; simp

/-- `LzwFinish` up to its `SubFlush`. -/
def finishCodes : Micro := andThen (andThen emitCur emitEof) padByte

theorem lzwFinish_eq : lzwFinish = andThen finishCodes subFlush := by
  rw [finishCodes, andThen_assoc, andThen_assoc]
  show andThen emitCur (andThen emitEof (andThen padByte (program [subFlush]))) = _
  rw [program_singleton]

theorem finishCodes_fills (h : CompressorOk r) :
    Fills (littleEndian ((finishBits r + 7) / 8) (finishValue r)) r (finishCodes r) ∧ OffersFullSubBlocks r (finishCodes r) ∧
    (finishCodes r).regs.acc = 0#19 ∧ (finishCodes r).regs.bitcnt = 0#5 := by
  obtain ⟨hcodes, hcodesFull⟩ := lastCodes_pack h
  obtain ⟨hpad, hpadFull, hacc, hbitcnt⟩ := padByte_fills hcodes.fills.wf hcodes.packerOk
  obtain ⟨-, h12⟩ := widened_bounds h
  obtain ⟨-, -, ⟨-, hn, -⟩, -, -, hbits, -, hroom⟩ := h
  have hcount : (finishBits r + 7) / 8 = finishBits r / 8 + (finishBits r % 8 + 7) / 8 := by omega
  have htotal : finishBits r ≤ 31 := by unfold finishBits; omega
  rw [hcodes.bitcnt, hcodes.acc] at hpad
  refine ⟨?_, hcodesFull.andThen hcodes.fills.stop hpadFull, ?_⟩
  · rw [hcount, littleEndian_add]
    exact hcodes.fills.andThen hpad (by simp [subBlockBytes_length]; omega)
  · rw [finishCodes, andThen_of_none hcodes.fills.stop]
    exact ⟨hacc, hbitcnt⟩

/-- `SubFlush`, empty or not: a sub-block of the bytes that wait, if there are any (40 R113). -/
def waitingSubBlock (waiting : List Byte) : List Byte := if waiting = [] then [] else BitVec.ofNat 8 waiting.length :: waiting

theorem subFlush_eq (hs : r.sbcnt.toNat ≤ 253) :
    subFlush r = ⟨(waitingSubBlock (subBlockBytes r)).map (Offer.mk r), none, { r with sbcnt := 0#8 }⟩ := by
  have hlength := subBlockBytes_length r
  unfold waitingSubBlock
  rcases Nat.eq_zero_or_pos r.sbcnt.toNat with hzero | hpos
  · have hempty : r.sbcnt = 0#8 := BitVec.eq_of_toNat_eq hzero
    rw [subFlush_of_empty hempty, if_pos (List.length_eq_zero_iff.mp (hlength.trans hzero)), ← hempty]
    rfl
  · have hne : subBlockBytes r ≠ [] := List.ne_nil_of_length_pos (hlength ▸ hpos)
    rw [subFlush_of_nonempty hpos (by omega), if_neg hne, hlength, BitVec.ofNat_toNat, BitVec.setWidth_eq]

/-- `LzwFinish` from good registers: the last codes, then the sub-block that waits. -/
theorem lzwFinish_run (h : CompressorOk r) :
    lzwFinish r =
      ⟨(finishCodes r).offers ++ (waitingSubBlock (subBlockBytes (finishCodes r).regs)).map (Offer.mk (finishCodes r).regs), none,
        { (finishCodes r).regs with sbcnt := 0#8 }⟩ := by
  obtain ⟨hfills, -⟩ := finishCodes_fills h
  rw [lzwFinish_eq, andThen_of_none hfills.stop, subFlush_eq hfills.room]

/-- What `LzwFinish` offers: the sub-block that fills, if one does, and the sub-block that waits then. -/
theorem lzwFinish_offers (h : CompressorOk r) (filled : List Byte × List Byte)
    (hfilled : filled = fillSubBlock (subBlockBytes r ++ littleEndian ((finishBits r + 7) / 8) (finishValue r))) :
    offeredBytes (lzwFinish r) = filled.1 ++ waitingSubBlock filled.2 := by
  obtain ⟨hfills, -⟩ := finishCodes_fills h
  rw [hfilled, ← hfills.filled, lzwFinish_run h]
  simp [offeredBytes, Function.comp_def]

theorem lzwFinish_regs (h : CompressorOk r) :
    (lzwFinish r).regs =
      { r with
        nbits := (lzwFinish r).regs.nbits, acc := 0#19, bitcnt := 0#5, sbbuf := (lzwFinish r).regs.sbbuf, sbcnt := 0#8 } := by
  obtain ⟨-, ⟨-, hframe⟩, hacc, hbitcnt⟩ := finishCodes_fills h
  have hregs : (lzwFinish r).regs = { (finishCodes r).regs with sbcnt := 0#8 } := congrArg Run.regs (lzwFinish_run h)
  rw [hregs]
  conv_lhs => rw [hframe, hacc, hbitcnt]

/-- Settles O32: the last codes fill the buffer, and what waits in it then leaves with its length. -/
theorem finishEmitsCurThenEofThenFlushes : Obligations.FinishEmitsCurThenEofThenFlushes := by
  intro r hstores hpaln hlzw
  have h : CompressorOk r := ⟨hstores.2.2.1, ⟨hpaln, hstores.1⟩, hlzw⟩
  obtain ⟨hfills, ⟨hfull, -⟩, -⟩ := finishCodes_fills h
  have hrun := lzwFinish_run h
  rw [← widened_eq]
  intro wide total value filled run
  have hfilled : (offeredBytes (finishCodes r), subBlockBytes (finishCodes r).regs) = filled := hfills.filled
  have hwaits : BitVec.ofNat 8 filled.2.length = (finishCodes r).regs.sbcnt := by
    rw [← hfilled]
    simp [subBlockBytes_length]
  have hlength : (finishCodes r).offers.length = filled.1.length := by
    rw [← hfilled]
    simp [offeredBytes]
  refine ⟨?stop, lzwFinish_regs h, lzwFinish_offers h filled rfl, fun o ho => ?full, fun o ho => ?waiting, fun i hi => ?stored⟩
  case stop => simp only [run, hrun]
  case full =>
    simp only [run, hrun, List.take_left' hlength] at ho
    obtain ⟨hframe, hcount⟩ := hfull o ho
    unfold EmitFrame at hframe
    rwa [hcount] at hframe
  case waiting =>
    simp only [run, hrun, List.drop_left' hlength] at ho
    obtain ⟨b, -, rfl⟩ := List.mem_map.mp ho
    simp only [run, hrun, hwaits]
  case stored =>
    simp only [run, hrun]
    exact hfills.stored i fun j hj => hi j (hj.trans_eq (littleEndian_length _ _))

end Sys2Proof.Machine
end

section
/-! The last PIX of a frame, and what holds of every PIX: it completes, and it offers few bytes (40 R121, R124, 41 R150 to R152, 70 R228). -/

namespace Sys2Proof.Machine

variable {r : Regs} {c : Byte} {s : State}

/-! ### `EndFrame` -/

/-- `EndFrame` of a frame that can be counted: the rest of the code stream, the terminator, and after the last frame the trailer (41 R150,
R151). -/
theorem endFrame_eq (hstop : (lzwFinish r).stop = none) (hcount : r.fdone.toNat < 65535) :
    endFrame r =
      if BitVec.ofNat 16 (r.fdone.toNat + 1) = r.nframes then
        ⟨(lzwFinish r).offers ++ [⟨(lzwFinish r).regs, terminatorByte⟩,
            ⟨{ (lzwFinish r).regs with fdone := BitVec.ofNat 16 (r.fdone.toNat + 1) }, trailerByte⟩], none,
          { (lzwFinish r).regs with fdone := BitVec.ofNat 16 (r.fdone.toNat + 1), phase := .done }⟩
      else ⟨(lzwFinish r).offers ++ [⟨(lzwFinish r).regs, terminatorByte⟩], none,
        { (lzwFinish r).regs with fdone := BitVec.ofNat 16 (r.fdone.toNat + 1), phase := .stream }⟩ := by
  obtain ⟨-, hframe⟩ := lzwFinish_within r
  have hfdone : (lzwFinish r).regs.fdone = r.fdone := by rw [hframe]
  have hnframes : (lzwFinish r).regs.nframes = r.nframes := by rw [hframe]
  unfold endFrame
  rw [program_cons, andThen_of_none hstop, program_emit, program_guard_pass (by simp [hfdone]; omega), program_write,
    program_singleton, ifElse]
  simp only [hfdone, hnframes, decide_eq_true_eq]
  split
  · simp [program_emit]
  · simp

/-- Whether the frame just counted was the last (41 R150). -/
theorem lastFrame_iff (hcount : r.fdone.toNat < r.nframes.toNat) :
    BitVec.ofNat 16 (r.fdone.toNat + 1) = r.nframes ↔ r.fdone.toNat + 1 = r.nframes.toNat := by
  have := r.nframes.isLt
  rw [← BitVec.toNat_inj, BitVec.toNat_ofNat, Nat.mod_eq_of_lt (by omega)]

/-- The bytes behind the code stream (41 R150, R151). -/
def frameEnd (r : Regs) : List Byte :=
  if r.fdone.toNat + 1 = r.nframes.toNat then [terminatorByte, trailerByte] else [terminatorByte]

/-- The phase behind the frame (41 R150). -/
def phaseAfterFrame (r : Regs) : Phase := if r.fdone.toNat + 1 = r.nframes.toNat then .done else .stream

theorem phaseAfterFrame_ne (r : Regs) : phaseAfterFrame r ≠ .pixels ∧ phaseAfterFrame r ≠ .error := by
  unfold phaseAfterFrame
  split <;> simp

theorem endFrame_run (hstop : (lzwFinish r).stop = none) (hcount : r.fdone.toNat < r.nframes.toNat) :
    (endFrame r).stop = none ∧ offeredBytes (endFrame r) = offeredBytes (lzwFinish r) ++ frameEnd r ∧
    (endFrame r).regs =
      { (lzwFinish r).regs with fdone := BitVec.ofNat 16 (r.fdone.toNat + 1), phase := phaseAfterFrame r } := by
  have hnframes := r.nframes.isLt
  rw [endFrame_eq hstop (by omega), frameEnd, phaseAfterFrame]
  by_cases hlast : r.fdone.toNat + 1 = r.nframes.toNat
  · rw [if_pos ((lastFrame_iff hcount).mpr hlast), if_pos hlast, if_pos hlast]
    simp [offeredBytes]
  · rw [if_neg (mt (lastFrame_iff hcount).mp hlast), if_neg hlast, if_neg hlast]
    simp [offeredBytes]

/-! ### The last PIX of a frame -/

/-- The registers in which `EndFrame` begins: those `LzwPixel` leaves, the pixel counted (40 R121). -/
def afterLastPixel (c : Byte) (r : Regs) : Regs := { (lzwPixel c r).regs with pixcnt := r.npix }

theorem afterLastPixel_compressorOk (h : RegsOk r) (hp : r.phase = .pixels) (hc : c.toNat < r.paln.toNat) :
    CompressorOk (afterLastPixel c r) := by
  have hok := h.compressorOk hp
  obtain ⟨_, hpacks⟩ := lzwPixel_packs hok c
  obtain ⟨-, hloaded, hlzw⟩ := hok
  obtain ⟨-, hlzw', hframe⟩ := (lzwPixel_keeps (h.mid (by simp [hp])) hloaded hlzw hc).regs hpacks.fills.stop
  have hpaln : (lzwPixel c r).regs.paln = r.paln := by rw [hframe]
  exact ⟨hpacks.fills.wf, show PaletteLoaded (lzwPixel c r).regs by rwa [PaletteLoaded, hpaln], hlzw'⟩

/-- The whole run of the last PIX of a frame. -/
theorem pixMicro_last_run (h : RegsOk r) (hp : r.phase = .pixels) (hc : c.toNat < r.paln.toNat)
    (hlast : r.pixcnt.toNat + 1 = r.npix.toNat) :
    (pixMicro c r).stop = none ∧
    offeredBytes (pixMicro c r) = offeredBytes (lzwPixel c r) ++ offeredBytes (lzwFinish (afterLastPixel c r)) ++ frameEnd r ∧
    (pixMicro c r).regs = { (lzwFinish (afterLastPixel c r)).regs with
      fdone := BitVec.ofNat 16 (r.fdone.toNat + 1), phase := phaseAfterFrame r } := by
  obtain ⟨-, hcount, -⟩ := h.phaseOk_pixels hp
  obtain ⟨-, hframe⟩ := lzwPixel_within c r
  obtain ⟨_, hpacks⟩ := lzwPixel_packs (h.compressorOk hp) c
  have hfdone : (afterLastPixel c r).fdone = r.fdone := by rw [afterLastPixel, hframe]
  have hnframes : (afterLastPixel c r).nframes = r.nframes := by rw [afterLastPixel, hframe]
  have hfinish : (lzwFinish (afterLastPixel c r)).stop = none := by rw [lzwFinish_run (afterLastPixel_compressorOk h hp hc)]
  obtain ⟨hstop, hbytes, hregs⟩ := endFrame_run hfinish (by rwa [hfdone, hnframes])
  have hend : frameEnd (afterLastPixel c r) = frameEnd r := by rw [frameEnd, hfdone, hnframes, frameEnd]
  have hphase : phaseAfterFrame (afterLastPixel c r) = phaseAfterFrame r := by
    rw [phaseAfterFrame, hfdone, hnframes, phaseAfterFrame]
  rw [hend] at hbytes
  rw [hphase, hfdone] at hregs
  rw [pixMicro_of_last hc hpacks.fills.stop hlast, andThen_of_none hpacks.fills.stop]
  refine ⟨hstop, ?_, hregs⟩
  rw [List.append_assoc, ← hbytes]
  exact List.map_append

/-! ### PIX, the last of its frame or not -/

/-- From good registers a PIX with an index in the palette comes to its end, counts its pixel, and leaves PIXELS at the frame's last. -/
theorem pixMicro_ends (h : RegsOk r) (hp : r.phase = .pixels) (hc : c.toNat < r.paln.toNat) :
    (pixMicro c r).stop = none ∧ (pixMicro c r).regs.pixcnt.toNat = r.pixcnt.toNat + 1 ∧
    (pixMicro c r).regs.phase = if r.pixcnt.toNat + 1 = r.npix.toNat then phaseAfterFrame r else .pixels := by
  obtain ⟨-, -, ⟨-, -, -, -, -, -, hpixcnt⟩, -⟩ := h.phaseOk_pixels hp
  by_cases hlast : r.pixcnt.toNat + 1 = r.npix.toNat
  · obtain ⟨hstop, -, hregs⟩ := pixMicro_last_run h hp hc hlast
    have hfinish := lzwFinish_regs (afterLastPixel_compressorOk h hp hc)
    rw [if_pos hlast, hregs, hfinish]
    exact ⟨hstop, hlast.symm, rfl⟩
  · obtain ⟨-, hframe⟩ := lzwPixel_within c r
    obtain ⟨_, hpacks⟩ := lzwPixel_packs (h.compressorOk hp) c
    have hmore : r.pixcnt.toNat + 1 < r.npix.toNat := by omega
    rw [if_neg hlast, pixMicro_of_not_last hc hpacks.fills.stop hmore]
    exact ⟨rfl, toNat_pixcnt_succ hmore, by rw [hframe]; exact hp⟩

theorem pixMicro_leaves_good (h : RegsOk r) (hp : r.phase = .pixels) (hc : c.toNat < r.paln.toNat) :
    RegsOk (pixMicro c r).regs ∧ (pixMicro c r).regs.errcode = none := by
  obtain ⟨hstop, -, hphase⟩ := pixMicro_ends h hp hc
  have hok : RegsOk (pixMicro c r).regs := RunKeeps.regs (pixMicro_runOk h hp) hstop
  refine ⟨hok, regsOk_errcode hok ?_⟩
  rw [hphase]
  split
  · exact (phaseAfterFrame_ne r).2
  · simp

/-- Settles O39: the run comes to its end, and a sink that accepts everything lets it. -/
theorem pixCompletes : Obligations.PixCompletes := by
  intro s c hready hp h hsink hc
  obtain ⟨hstop, hpixcnt, hphase⟩ := pixMicro_ends h hp hc
  obtain ⟨hok, herrcode⟩ := pixMicro_leaves_good h hp hc
  refine ⟨_, (exec_pix hready hp).trans (deliver_to_end hsink hstop), rfl, rfl, acceptsAll_sinkDrop hsink _, hok, herrcode, hpixcnt, ?_⟩
  simp only [hphase]
  split
  · next hlast => simp [hlast, (phaseAfterFrame_ne s.regs).1]
  · next hmore => simp [hmore]

/-- Settles O41: the bytes of `LzwPixel`, of `LzwFinish` and of the end of the frame, one after the other. -/
theorem lastPixClosesFrame : Obligations.LastPixClosesFrame := by
  intro s c hready hp h hsink hc hlast
  obtain ⟨-, hcount, -⟩ := h.phaseOk_pixels hp
  have hnframes := s.regs.nframes.isLt
  obtain ⟨hstop, hbytes, hregs⟩ := pixMicro_last_run h hp hc hlast
  rw [lzwFinish_regs (afterLastPixel_compressorOk h hp hc)] at hregs
  have hphase : (pixMicro c s.regs).regs.phase = phaseAfterFrame s.regs := by rw [hregs]
  refine ⟨_, (exec_pix hready hp).trans (deliver_to_end hsink hstop), rfl, rfl, acceptsAll_sinkDrop hsink _,
    (pixMicro_leaves_good h hp hc).2, ?pixcnt, ?fdone, ?bitcnt, ?sbcnt, fun hmore => ⟨?_, ?_⟩, fun hend => ⟨?_, ?_⟩⟩
  case pixcnt | bitcnt | sbcnt =>
    simp only [hregs]
    rfl
  case fdone =>
    simp only [hregs, BitVec.toNat_ofNat]
    omega
  · exact hphase.trans (if_neg (by omega))
  · simp only [hbytes, frameEnd, if_neg (show ¬ s.regs.fdone.toNat + 1 = s.regs.nframes.toNat by omega), List.append_assoc]
    rfl
  · exact hphase.trans (if_pos hend)
  · simp only [hbytes, frameEnd, if_pos hend, List.append_assoc]
    rfl

/-! ### How many bytes -/

/-- No byte is lost in the sub-block buffer, and at most one length byte is added. -/
theorem fillSubBlock_length (data : List Byte) :
    (fillSubBlock data).1.length + (fillSubBlock data).2.length ≤ data.length + 1 := by
  unfold fillSubBlock
  split
  · simp
  · simp
    omega

theorem Fills.length_le {new : List Byte} {run : Run} (h : Fills new r run) :
    (offeredBytes run).length + run.regs.sbcnt.toNat ≤ r.sbcnt.toNat + new.length + 1 := by
  have hlength := fillSubBlock_length (subBlockBytes r ++ new)
  rw [← h.filled] at hlength
  simpa [subBlockBytes_length] using hlength

theorem waitingSubBlock_length (waiting : List Byte) : (waitingSubBlock waiting).length ≤ waiting.length + 1 := by
  unfold waitingSubBlock
  split <;> simp

/-- The data bytes of `LzwFinish` are those that wait and at most four more; the length bytes are at most two. -/
theorem lzwFinish_length (h : CompressorOk r) : (offeredBytes (lzwFinish r)).length ≤ r.sbcnt.toNat + 6 := by
  have hlength := fillSubBlock_length (subBlockBytes r ++ littleEndian ((finishBits r + 7) / 8) (finishValue r))
  have hwaiting := waitingSubBlock_length
    (fillSubBlock (subBlockBytes r ++ littleEndian ((finishBits r + 7) / 8) (finishValue r))).2
  obtain ⟨-, h12⟩ := widened_bounds h
  rw [lzwFinish_offers h _ rfl, List.length_append]
  obtain ⟨-, -, ⟨-, hn, -⟩, -, -, hbits, -, -⟩ := h
  have htotal : finishBits r ≤ 31 := by unfold finishBits; omega
  simp only [List.length_append, subBlockBytes_length, littleEndian_length] at hlength
  omega

/-- Settles O43: with what waits, at most seven data bytes and three length bytes leave, and then the end of the frame. -/
theorem pixOffersAtMost512 : Obligations.PixOffersAtMost512 := by
  intro r c h hp
  have hok := h.compressorOk hp
  have hbits24 := pixelBits_le (c := c) hok
  obtain ⟨_, hpacks⟩ := lzwPixel_packs hok c
  have hpixel := hpacks.fills.length_le
  rw [littleEndian_length] at hpixel
  obtain ⟨-, -, ⟨-, -, -, -, -, -, hpixcnt⟩, -, -, -, hbits7, -, hroom⟩ := h.phaseOk_pixels hp
  by_cases hc : c.toNat < r.paln.toNat
  · by_cases hlast : r.pixcnt.toNat + 1 = r.npix.toNat
    · obtain ⟨-, hbytes, -⟩ := pixMicro_last_run h hp hc hlast
      have hfinish := lzwFinish_length (afterLastPixel_compressorOk h hp hc)
      rw [show (afterLastPixel c r).sbcnt = (lzwPixel c r).regs.sbcnt from rfl] at hfinish
      have hend : (frameEnd r).length ≤ 2 := by
        unfold frameEnd
        split <;> simp
      rw [hbytes, List.length_append, List.length_append]
      omega
    · rw [pixMicro_of_not_last hc hpacks.fills.stop (by omega)]
      refine le_trans (Nat.le_of_add_right_le hpixel) ?_
      omega
  · rw [pixMicro, program_check_raise (by simpa using hc)]
    simp [offeredBytes]

end Sys2Proof.Machine
end

section
/-! What BEGIN, FRAME and PIX leave unchanged, from any registers and for every sink (40 R121, 41 R141, R146, R150). -/

namespace Sys2Proof.Machine

variable {s t : State} {i : Instr}

/-! ### The frames -/

/-- Only what BEGIN writes differs, and what a fault writes (41 R141). -/
def BeginFrame (r q : Regs) : Prop :=
  q = { r with phase := q.phase, errcode := q.errcode, fdone := q.fdone }

/-- Only what FRAME writes differs, and what a fault writes (41 R146). -/
def OpeningFrame (r q : Regs) : Prop :=
  q = { r with
    phase := q.phase, errcode := q.errcode, npix := q.npix, pixcnt := q.pixcnt, cur := q.cur, nextcode := q.nextcode
    nbits := q.nbits, dict := q.dict, acc := q.acc, bitcnt := q.bitcnt, sbbuf := q.sbbuf, sbcnt := q.sbcnt }

/-- Only what PIX and the end-of-frame actions write differs, and what a fault writes (40 R121, 41 R150). -/
def PixFrame (r q : Regs) : Prop :=
  q = { r with
    phase := q.phase, errcode := q.errcode, fdone := q.fdone, pixcnt := q.pixcnt, cur := q.cur, nextcode := q.nextcode
    nbits := q.nbits, dict := q.dict, acc := q.acc, bitcnt := q.bitcnt, sbbuf := q.sbbuf, sbcnt := q.sbcnt }

theorem BeginFrame.refl (r : Regs) : BeginFrame r r := rfl

theorem OpeningFrame.refl (r : Regs) : OpeningFrame r r := rfl

theorem PixFrame.refl (r : Regs) : PixFrame r r := rfl

theorem BeginFrame.trans (r q t : Regs) (h : BeginFrame r q) (h' : BeginFrame q t) : BeginFrame r t := by
  unfold BeginFrame at *
  rw [h']
  conv_lhs => rw [h]

theorem OpeningFrame.trans (r q t : Regs) (h : OpeningFrame r q) (h' : OpeningFrame q t) : OpeningFrame r t := by
  unfold OpeningFrame at *
  rw [h']
  conv_lhs => rw [h]

theorem PixFrame.trans (r q t : Regs) (h : PixFrame r q) (h' : PixFrame q t) : PixFrame r t := by
  unfold PixFrame at *
  rw [h']
  conv_lhs => rw [h]

theorem LzwFrame.opening {r q : Regs} (h : LzwFrame r q) : OpeningFrame r q := by
  unfold LzwFrame at h
  unfold OpeningFrame
  rw [h]

theorem LzwFrame.pix {r q : Regs} (h : LzwFrame r q) : PixFrame r q := by
  unfold LzwFrame at h
  unfold PixFrame
  rw [h]

/-! ### The pseudocode -/

/-- From any registers, the piece goes only through registers related to them. -/
def Within (R : Regs → Regs → Prop) (p : Micro) : Prop := ∀ r, RunWithin R r (p r)

theorem lzwInit_within : Within LzwFrame lzwInit := by
  refine within_program LzwFrame.refl (fun _ _ _ => LzwFrame.trans) _ ?_
  simp only [List.forall_mem_cons]
  exact ⟨fun _ => within_write rfl, emitClear_within, by simp⟩

theorem beginMicro_within : Within BeginFrame beginMicro := by
  have hcheck (c : Regs → Bool) (e : ErrorClass) : Within BeginFrame (check c e) :=
    fun r => within_whenever BeginFrame.refl (within_raise BeginFrame.refl e r)
  have hemit (f : Regs → List Byte) : Within BeginFrame (emit f) := within_emit BeginFrame.refl f
  refine within_program BeginFrame.refl BeginFrame.trans _ ?_
  simp only [List.forall_mem_cons]
  exact ⟨hcheck _ _, hcheck _ _, hcheck _ _, hcheck _ _, hemit _, hemit _, hemit _,
    fun r => within_whenever BeginFrame.refl (hemit _ r), fun _ => within_write rfl, fun _ => within_write rfl, by simp⟩

theorem frameMicro_within : Within OpeningFrame frameMicro := by
  have hcheck (c : Regs → Bool) (e : ErrorClass) : Within OpeningFrame (check c e) :=
    fun r => within_whenever OpeningFrame.refl (within_raise OpeningFrame.refl e r)
  have hemit (f : Regs → List Byte) : Within OpeningFrame (emit f) := within_emit OpeningFrame.refl f
  refine within_program OpeningFrame.refl OpeningFrame.trans _ ?_
  simp only [List.forall_mem_cons]
  exact ⟨hcheck _ _, hcheck _ _, hcheck _ _, fun r => within_whenever OpeningFrame.refl (hemit _ r), hemit _, hemit _,
    fun _ => within_write rfl, fun _ => within_write rfl, fun r => (lzwInit_within r).mono fun _ => LzwFrame.opening,
    fun _ => within_write rfl, by simp⟩

theorem endFrame_within : Within PixFrame endFrame := by
  have hlast : Within PixFrame (program [emit (fun _ => [trailerByte]), write (fun r => { r with phase := .done })]) := by
    refine within_program PixFrame.refl PixFrame.trans _ ?_
    simp only [List.forall_mem_cons]
    exact ⟨within_emit PixFrame.refl _, fun _ => within_write rfl, by simp⟩
  refine within_program PixFrame.refl PixFrame.trans _ ?_
  simp only [List.forall_mem_cons]
  refine ⟨fun r => (lzwFinish_within r).mono fun _ => LzwFrame.pix, within_emit PixFrame.refl _,
    fun r => within_whenever PixFrame.refl (within_stuck PixFrame.refl _ r), fun _ => within_write rfl, fun r => ?_, by simp⟩
  unfold ifElse
  split
  · exact hlast r
  · exact within_write rfl

theorem pixMicro_within (c : Byte) : Within PixFrame (pixMicro c) := by
  refine within_program PixFrame.refl PixFrame.trans _ ?_
  simp only [List.forall_mem_cons]
  exact ⟨fun r => within_whenever PixFrame.refl (within_raise PixFrame.refl _ r),
    fun r => (lzwPixel_within c r).mono fun _ => LzwFrame.pix,
    fun r => within_whenever PixFrame.refl (within_stuck PixFrame.refl _ r), fun _ => within_write rfl,
    fun r => within_whenever PixFrame.refl (endFrame_within r), by simp⟩

/-! ### The commands -/

/-- A command keeps what its pseudocode and the entry of a fault keep, whatever the sink answers; the host's queue it never touches. -/
theorem exec_within {R : Regs → Regs → Prop} (refl : ∀ r, R r r) (trans : ∀ r q t, R r q → R q t → R r t)
    (hfault : ∀ e r, R r (enterError e r)) (hmicro : Within R (microOf i)) (hi : i ≠ .rst) (h : exec i s = .next t) :
    t.host = s.host ∧ R s.regs t.regs := by
  rw [exec_eq_command hi] at h
  rcases command_cases (legalIn i) (microOf i) s with hsame | ⟨-, -, -, hillegal⟩ | ⟨-, -, -, hlegal⟩
  · obtain rfl : s = t := by simpa [hsame] using h
    exact ⟨rfl, refl _⟩
  · obtain rfl : { s with regs := enterError .illegalCommand s.regs, held := none } = t := by simpa [hillegal] using h
    exact ⟨rfl, hfault _ _⟩
  · obtain ⟨hoffers, hend⟩ := hmicro s.regs
    obtain ⟨hhost, -, hcases⟩ := deliver_next_cases (hlegal.symm.trans h)
    refine ⟨hhost, ?_⟩
    rcases hcases with ⟨-, hregs, -⟩ | ⟨e, -, hregs, -⟩ | ⟨o, ho, hregs, -⟩ | ⟨o, ho, rest, hregs, -⟩
    · exact hregs ▸ hend
    · exact hregs ▸ trans _ _ _ hend (hfault _ _)
    · exact hregs ▸ trans _ _ _ (hoffers o ho) (hfault _ _)
    · exact hregs ▸ hoffers o ho

/-- Settles O50: each command stays within its frame, statement by statement. -/
theorem streamCommandFrames : Obligations.StreamCommandFrames := fun _ _ =>
  ⟨exec_within BeginFrame.refl BeginFrame.trans (fun _ _ => rfl) beginMicro_within (by simp),
    exec_within OpeningFrame.refl OpeningFrame.trans (fun _ _ => rfl) frameMicro_within (by simp),
    fun c => exec_within PixFrame.refl PixFrame.trans (fun _ _ => rfl) (pixMicro_within c) (by simp)⟩

end Sys2Proof.Machine
end

section
/-! The list of phase changes (41 R152), of a command that runs to its end at once and of one that was held. -/

namespace Sys2Proof.Machine

variable {s t : State} {i : Instr} {run : Run}

/-- The phase behind a frame, by the frames counted (41 R150). -/
def countedPhase (q : Regs) : Phase := if q.fdone = q.nframes then .done else .stream

/-- The rows of the list for a command `i` that comes to its end, begun in the phase `ph` and leaving the registers `q`. -/
inductive EndListed (i : Instr) (ph : Phase) (q : Regs) : Prop
  | stay : q.phase = ph → EndListed i ph q
  | openStream : i = .begin → ph = .idle → q.phase = .stream → EndListed i ph q
  | openFrame : i = .frame → ph = .stream → q.phase = .pixels → EndListed i ph q
  | closeFrame : (∃ c, i = .pix c) → ph = .pixels → q.phase = countedPhase q → EndListed i ph q

/-! ### The end of the pseudocode -/

/-- From registers in a phase where `i` is legal, the piece comes to its end in a phase the list has for `i`, if it comes to its end. -/
def EndsListed (i : Instr) (p : Micro) : Prop :=
  ∀ r, legalIn i r.phase = true → (p r).stop = none → EndListed i r.phase (p r).regs

theorem HoldsPhase.endsListed {p : Micro} (h : HoldsPhase p) : EndsListed i p := fun r _ _ => .stay (h r).1.2

theorem endsListed_whenever {c : Regs → Bool} {p : Micro} (h : EndsListed i p) : EndsListed i (whenever c p) := by
  intro r
  unfold whenever
  split
  · exact h r
  · exact holdsPhase_nil.endsListed r

theorem endsListed_andThen {p q : Micro} (hp : HoldsPhase p) (hq : EndsListed i q) : EndsListed i (andThen p q) := by
  intro r hlegal hstop
  cases h : (p r).stop with
  | some st => simp [andThen_of_some h, h] at hstop
  | none =>
    obtain ⟨⟨-, hphase⟩, -⟩ := hp r
    unfold SamePhase at hphase
    rw [andThen_of_none h] at hstop ⊢
    exact hphase ▸ hq (p r).regs (hphase.symm ▸ hlegal) hstop

/-- A program whose last statement alone may write PHASE. -/
theorem endsListed_snoc {q : Micro} (hq : EndsListed i q) :
    ∀ {ps : List Micro}, (∀ p ∈ ps, HoldsPhase p) → EndsListed i (program (ps ++ [q]))
  | [], _ => (program_singleton q).symm ▸ hq
  | p :: _, h => endsListed_andThen (h p (by simp)) (endsListed_snoc hq fun m hm => h m (by simp [hm]))

theorem phase_of_legal_begin {p : Phase} (h : legalIn .begin p = true) : p = .idle := by
  cases p <;> simp_all [legalIn]

theorem phase_of_legal_frame {p : Phase} (h : legalIn .frame p = true) : p = .stream := by
  cases p <;> simp_all [legalIn]

theorem phase_of_legal_pix {p : Phase} {c : Byte} (h : legalIn (.pix c) p = true) : p = .pixels := by
  cases p <;> simp_all [legalIn]

theorem beginMicro_endsListed : EndsListed .begin beginMicro :=
  endsListed_snoc (ps := [_, _, _, _, _, _, _, _, _])
    (fun _ hlegal _ => .openStream rfl (phase_of_legal_begin hlegal) rfl) (by simp)

theorem frameMicro_endsListed : EndsListed .frame frameMicro :=
  endsListed_snoc (ps := [_, _, _, _, _, _, _, _, _])
    (fun _ hlegal _ => .openFrame rfl (phase_of_legal_frame hlegal) rfl) (by simp)

/-- The last statement of `EndFrame` writes the phase by the count it compares, which nothing changes after (41 R150). -/
theorem endFrame_endsListed (c : Byte) : EndsListed (.pix c) endFrame := by
  refine endsListed_snoc (ps := [_, _, _, _]) (fun r hlegal _ => ?_) (by simp)
  refine .closeFrame ⟨c, rfl⟩ (phase_of_legal_pix hlegal) ?_
  unfold ifElse
  split
  · next hlast =>
    have hall : r.fdone = r.nframes := of_decide_eq_true hlast
    simp [program_emit, countedPhase, hall]
  · next hmore =>
    have hleft : r.fdone ≠ r.nframes := by simpa using hmore
    simp [countedPhase, hleft]

theorem microOf_endsListed (i : Instr) : EndsListed i (microOf i) := by
  cases i with
  | rst => exact holdsPhase_nil.endsListed
  | pal => exact (holdsPhase_program (by simp)).endsListed
  | begin => exact beginMicro_endsListed
  | frame => exact frameMicro_endsListed
  | pix c => exact endsListed_snoc (ps := [_, _, _, _]) (endsListed_whenever (endFrame_endsListed c)) (by simp)
  | setw | seth | setnf | setloop | settr | setfx | setfy | setfw | setfh | setfd | setff =>
    exact HoldsPhase.endsListed (holdsPhase_write fun _ => rfl)

/-! ### The sink -/

/-- Where a step stands when the sink has answered: at its end, in ERROR by a fault or a refused byte, or held in the phase it began in. -/
theorem deliver_phase {ph : Phase} (hrun : RunSteady ph run) (h : deliver run s = .next t) :
    (t.held = none ∧ run.stop = none ∧ t.regs = run.regs) ∨ (t.held = none ∧ t.regs.phase = .error) ∨
    (∃ run', t.held = some run' ∧ run'.stop = run.stop ∧ run'.regs = run.regs ∧ t.regs.phase = ph) := by
  obtain ⟨hoffers, -⟩ := hrun
  obtain ⟨-, -, hcases⟩ := deliver_next_cases h
  rcases hcases with ⟨hstop, hregs, hheld, -⟩ | ⟨e, -, hregs, hheld⟩ | ⟨o, -, hregs, hheld⟩ | ⟨o, ho, rest, hregs, hheld, -⟩
  · exact .inl ⟨hheld, hstop, hregs⟩
  · exact .inr (.inl ⟨hheld, hregs ▸ rfl⟩)
  · exact .inr (.inl ⟨hheld, hregs ▸ rfl⟩)
  · exact .inr (.inr ⟨_, hheld, rfl, rfl, hregs ▸ hoffers o ho⟩)

/-! ### Runs -/

/-- The step that is held will take the phase where the list says for its command, if it comes to its end. -/
def HeldListed (s : State) : Prop :=
  ∀ run, s.held = some run → ∃ i, run.stop = none → EndListed i s.regs.phase run.regs

theorem heldListed_of_ready (h : s.held = none) : HeldListed s := by
  intro run hrun
  simp [h] at hrun

theorem heldListed_of_deliver {ph : Phase} (hsteady : RunSteady ph run) (hlisted : run.stop = none → EndListed i ph run.regs)
    (h : deliver run s = .next t) : HeldListed t := by
  rcases deliver_phase hsteady h with ⟨hready, -⟩ | ⟨hready, -⟩ | ⟨run', hheld, hstop, hregs, hphase⟩
  · exact heldListed_of_ready hready
  · exact heldListed_of_ready hready
  · intro run'' hheld'
    obtain rfl : run' = run'' := Option.some.inj (hheld.symm.trans hheld')
    rw [hstop, hregs, hphase]
    exact ⟨i, hlisted⟩

theorem heldListed_step (hsteady : HeldSteady s) (hs : HeldListed s) (h : step s = .next t) : HeldListed t := by
  cases stepRule_of_step h with
  | wait => exact hs
  | ignore hready => exact heldListed_of_ready hready
  | reset | resetHeld | turnAway => exact heldListed_of_ready rfl
  | run _ _ _ hlegal hdeliver => exact heldListed_of_deliver (microOf_steady _ _) (microOf_endsListed _ _ hlegal) hdeliver
  | resume hheld hdeliver =>
    obtain ⟨hrun, -⟩ := hsteady _ hheld
    obtain ⟨i, hlisted⟩ := hs _ hheld
    exact heldListed_of_deliver hrun hlisted hdeliver

theorem Reached.heldListed (h : Reached s) : HeldListed s := by
  induction h with
  | start => exact heldListed_of_ready rfl
  | next _ _ hs hstep ih => exact heldListed_step hs.heldSteady ih hstep

/-! ### The list -/

/-- A command that is not held takes the phase where the list says for it, RST to IDLE, and a fault to ERROR. -/
theorem exec_phase (hready : Ready s) (h : exec i s = .next t) (hover : t.held = none) :
    EndListed i s.regs.phase t.regs ∨ (i = .rst ∧ t.regs.phase = .idle) ∨ (s.regs.phase ≠ .error ∧ t.regs.phase = .error) := by
  by_cases hi : i = .rst
  · subst hi
    obtain rfl : resetBlock s = t := by simpa [exec_rst_of_ready hready] using h
    exact .inr (.inl ⟨rfl, rfl⟩)
  rw [exec_eq_command hi] at h
  rcases command_cases (legalIn i) (microOf i) s with hsame | ⟨-, herror, -, hillegal⟩ | ⟨-, herror, hlegal, hrun⟩
  · obtain rfl : s = t := by simpa [hsame] using h
    exact .inl (.stay rfl)
  · obtain rfl : { s with regs := enterError .illegalCommand s.regs, held := none } = t := by simpa [hillegal] using h
    exact .inr (.inr ⟨herror, rfl⟩)
  · rcases deliver_phase (microOf_steady i s.regs) (hrun.symm.trans h) with ⟨-, hstop, hregs⟩ | ⟨-, hfault⟩ | ⟨run', hheld, -⟩
    · exact .inl (hregs ▸ microOf_endsListed i s.regs hlegal hstop)
    · exact .inr (.inr ⟨herror, hfault⟩)
    · simp [hover] at hheld

/-- A held step of a run keeps the phase while it is held; its end takes the phase where the list says for some command, a fault to ERROR, and
the reset pin to IDLE. -/
theorem held_step_phase (hs : Reached s) (hheld : s.held = some run) (h : step s = .next t) :
    (¬ Ready t → t.regs.phase = s.regs.phase) ∧
    ((∃ i, EndListed i s.regs.phase t.regs) ∨ (s.regs.phase ≠ .error ∧ t.regs.phase = .error) ∨
      ((∃ rest, s.host = .resetPin :: rest ∧ t.host = rest) ∧ t.regs.phase = .idle)) := by
  cases stepRule_of_step h with
  | wait hready | ignore hready | reset hready | turnAway hready | run hready => simp [hheld] at hready
  | resetHeld _ hhost => exact ⟨fun hnot => absurd rfl hnot, .inr (.inr ⟨⟨_, hhost, rfl⟩, rfl⟩)⟩
  | resume hheld' hdeliver =>
    obtain ⟨hsteady, -, herror⟩ := hs.heldSteady _ hheld'
    obtain ⟨i, hlisted⟩ := hs.heldListed _ hheld'
    rcases deliver_phase hsteady hdeliver with ⟨hready, hstop, hregs⟩ | ⟨hready, hfault⟩ | ⟨run', -, -, -, hphase⟩
    · exact ⟨fun hnot => absurd hready hnot, .inl ⟨i, hregs ▸ hlisted hstop⟩⟩
    · exact ⟨fun hnot => absurd hready hnot, .inr (.inl ⟨herror, hfault⟩)⟩
    · exact ⟨fun _ => hphase, .inl ⟨i, .stay hphase⟩⟩

/-- Settles O56: the rows of `EndListed` are those of the list. -/
theorem phaseChangesOnlyAsListed : Obligations.PhaseChangesOnlyAsListed := by
  refine ⟨fun i s t hready h hover => ?_, fun s t hs hnot h => ?_⟩
  · rcases exec_phase hready h hover with hend | hreset | hfault
    · cases hend with
      | stay hsame => exact .inl hsame
      | openStream hi hidle hto => exact .inr (.inr (.inl ⟨hi, hidle, hto⟩))
      | openFrame hi hstream hto => exact .inr (.inr (.inr (.inl ⟨hi, hstream, hto⟩)))
      | closeFrame hi hpixels hto => exact .inr (.inr (.inr (.inr (.inl ⟨hi, hpixels, hto⟩))))
    · exact .inr (.inl hreset)
    · exact .inr (.inr (.inr (.inr (.inr hfault))))
  · obtain ⟨run, hheld⟩ := Option.ne_none_iff_exists'.mp hnot
    obtain ⟨hkeeps, hchanges⟩ := held_step_phase hs hheld h
    refine ⟨hkeeps, ?_⟩
    rcases hchanges with ⟨i, hend⟩ | hfault | hreset
    · cases hend with
      | stay hsame => exact .inl hsame
      | openStream _ hidle hto => exact .inr (.inl ⟨hidle, hto⟩)
      | openFrame _ hstream hto => exact .inr (.inr (.inl ⟨hstream, hto⟩))
      | closeFrame _ hpixels hto => exact .inr (.inr (.inr (.inl ⟨hpixels, hto⟩)))
    · exact .inr (.inr (.inr (.inr (.inl hfault))))
    · exact .inr (.inr (.inr (.inr (.inr hreset))))

end Sys2Proof.Machine
end

section
/-! BEGIN and FRAME as runs that come to their end: the bytes of the stream's head and of a frame's head, and the compressor at its start
(41 R141 to R149, 40 R119). Then the end of a frame (41 R150). -/

namespace Sys2Proof.Machine

variable {r : Regs} {s : State}

/-! ### Checks and bytes -/

theorem ne_zero_of_toNat_ne_zero {w : Nat} {x : BitVec w} (h : x.toNat ≠ 0) : x ≠ 0#w := by
  rintro rfl
  exact h BitVec.toNat_zero

/-- A statement that offers bytes on a condition, then the rest. -/
theorem program_whenever_emit (c : Regs → Bool) (f : Regs → List Byte) (ps : List Micro) (r : Regs) :
    program (whenever c (emit f) :: ps) r =
      ⟨(if c r then f r else []).map (Offer.mk r) ++ (program ps r).offers, (program ps r).stop, (program ps r).regs⟩ := by
  cases h : c r with
  | true => rw [program_whenever_true h, program_emit]; rfl
  | false => rw [program_whenever_false h]; rfl

/-! ### BEGIN -/

/-- The head of the stream (41 R142 to R145). -/
def streamHead (r : Regs) : List Byte :=
  signatureBytes ++ screenDescriptorBytes r ++ colorTableBytes r ++ if wantsLoopExtension r then loopExtensionBytes else []

/-- BEGIN with a configuration that passes its checks (41 R141). -/
theorem beginMicro_run (h : StreamConfigOk r) :
    beginMicro r = ⟨(streamHead r).map (Offer.mk r), none, { r with fdone := 0, phase := .stream }⟩ := by
  obtain ⟨hframes, hpaln, hwidth, hheight, htransparent⟩ := h
  have hframes' := ne_zero_of_toNat_ne_zero hframes
  have hpaln' := ne_zero_of_toNat_ne_zero hpaln
  have hwidth' := ne_zero_of_toNat_ne_zero hwidth
  have hheight' := ne_zero_of_toNat_ne_zero hheight
  unfold beginMicro streamHead
  rw [program_check_pass (by simpa using hframes'), program_check_pass (by simpa using hpaln'),
    program_check_pass (by simpa using ⟨hwidth', hheight'⟩), program_check_pass (by simpa using htransparent),
    program_emit, program_emit, program_emit, program_whenever_emit, program_write, program_write, program_nil]
  simp

theorem exec_begin (hready : Ready s) (hp : s.regs.phase = .idle) : exec .begin s = deliver (beginMicro s.regs) s :=
  (exec_eq_command (by simp) s).trans (command_legal hready (by simp [hp]) (by rw [hp]; rfl))

theorem offeredBytes_map_mk (bytes : List Byte) (stop : Option Stop) (q : Regs) :
    offeredBytes ⟨bytes.map (Offer.mk r), stop, q⟩ = bytes := map_byte_mk r bytes

/-- Settles O23: BEGIN comes to its end, and the sink takes the head of the stream. -/
theorem beginOpensStream : Obligations.BeginOpensStream := by
  intro s hready hp hsink hframes hpaln hwidth hheight htransparent
  have hrun := beginMicro_run ⟨hframes, hpaln, hwidth, hheight, htransparent⟩
  have hexec := (exec_begin hready hp).trans (deliver_to_end hsink (by rw [hrun]))
  rw [hrun, offeredBytes_map_mk] at hexec
  refine ⟨_, hexec, ?_, acceptsAll_sinkDrop hsink _, ?_⟩
  · simp only [← show s.held = none from hready]
    rfl
  · simp [streamHead, signatureBytes, screenDescriptorBytes, halfBytes, lowByte, highByte, wantsLoopExtension, loopExtensionBytes]

/-! ### The compressor at its start -/

theorem initCompressor_packerOk (r : Regs) : PackerOk (initCompressor r) := by
  simp [PackerOk]

theorem lzwInit_eq (r : Regs) : lzwInit r = emitClear (initCompressor r) := by
  rw [lzwInit, program_write, program_single]

/-- CLEARC at the least width, in an empty packer (40 R119). -/
theorem initCompressor_room (hl : PaletteLoaded r) :
    (initCompressor r).nbits.toNat = ics r + 1 ∧ (initCompressor r).nbits.toNat ≤ 12 ∧
    clearCode (initCompressor r) < 2 ^ (initCompressor r).nbits.toNat := by
  obtain ⟨-, hics, -⟩ := ics_range hl.1 hl.2
  have hn : (initCompressor r).nbits.toNat = ics r + 1 := by
    rw [initCompressor_nbits, BitVec.toNat_ofNat]
    exact Nat.mod_eq_of_lt (by omega)
  rw [hn]
  exact ⟨rfl, by omega, Nat.pow_lt_pow_right Nat.one_lt_two (Nat.lt_succ_self _)⟩

/-- `LzwInit` packs CLEARC into an empty packer (40 R119). -/
theorem lzwInit_packs (hl : PaletteLoaded r) (hwf : Memory.wf 254 r.sbbuf = true) :
    Packs (ics r + 1) (clearCode r) (initCompressor r) (lzwInit r) := by
  obtain ⟨hnbits, hn, hfits⟩ := initCompressor_room hl
  have hpacks := emitClear_packs (r := initCompressor r) hwf (initCompressor_packerOk r) hn hfits
  have hclear : clearCode (initCompressor r) = clearCode r := clearCode_congr rfl
  rw [hnbits, hclear, initCompressor_bitcnt, initCompressor_acc, ← lzwInit_eq] at hpacks
  simpa using hpacks

theorem LzwFrame.of_initCompressor {q : Regs} (h : LzwFrame (initCompressor r) q) (hcur : q.cur = 0#12) (hdict : q.dict = []) :
    q = { r with
      cur := 0#12, nextcode := q.nextcode, nbits := q.nbits, dict := []
      acc := q.acc, bitcnt := q.bitcnt, sbbuf := q.sbbuf, sbcnt := q.sbcnt } := by
  unfold LzwFrame at h
  rw [hcur, hdict] at h
  exact h

/-- The registers `LzwInit` leaves (40 R119). -/
theorem lzwInit_regs (hl : PaletteLoaded r) (hwf : Memory.wf 254 r.sbbuf = true) :
    (lzwInit r).regs = { r with
      cur := 0#12, nextcode := (lzwInit r).regs.nextcode, nbits := (lzwInit r).regs.nbits, dict := []
      acc := (lzwInit r).regs.acc, bitcnt := (lzwInit r).regs.bitcnt
      sbbuf := (lzwInit r).regs.sbbuf, sbcnt := (lzwInit r).regs.sbcnt } ∧
    (lzwInit r).regs.nextcode.toNat = firstFree r ∧ (lzwInit r).regs.nbits.toNat = ics r + 1 := by
  obtain ⟨-, hn, hfits⟩ := initCompressor_room hl
  have hstop := (packCode_packs (r := initCompressor r) hwf (initCompressor_packerOk r) hn hfits).fills.stop
  obtain ⟨-, hframe⟩ := packCode_within (clearCode (initCompressor r)) (initCompressor r)
  obtain ⟨-, -, -, hnbits, hnext⟩ := emitClearRestoresInitialState (initCompressor r) (Nat.pos_of_ne_zero hl.1) hl.2 hstop
  have hcur : (packCode (clearCode (initCompressor r)) (initCompressor r)).regs.cur = 0#12 := by
    rw [hframe, initCompressor_cur]
    rfl
  rw [lzwInit_eq]
  refine ⟨(emitClear_within (initCompressor r)).2.of_initCompressor ?_ ?_, hnext, hnbits⟩
  · rw [emitClear_eq hstop, clearDictionary_cur, hcur]
  · rw [emitClear_eq hstop, clearDictionary_dict]

/-- Fewer than eight bits wait in ACC: SBBUF is not written (40 R111). -/
theorem packCode_of_no_byte {code : Nat} (hb : r.bitcnt.toNat ≤ 7) (hcode : code < 2 ^ r.nbits.toNat) (hn : r.nbits.toNat ≤ 12)
    (hfew : r.bitcnt.toNat + r.nbits.toNat < 8) : packCode code r = ⟨[], none, addCode code r⟩ := by
  rw [packCode_eq hb hcode hn, Nat.div_eq_of_lt hfew]
  rfl

theorem lzwInit_sbbuf_of_no_byte (hl : PaletteLoaded r) (hfew : ics r + 1 < 8) : (lzwInit r).regs.sbbuf = r.sbbuf := by
  obtain ⟨hnbits, hn, hfits⟩ := initCompressor_room hl
  have hpack := packCode_of_no_byte (r := initCompressor r) (by simp) hfits hn (by rw [hnbits]; simpa using hfew)
  rw [lzwInit_eq, emitClear_eq (by rw [hpack]), hpack]
  rfl

/-- `LzwInit` offers no byte: of CLEARC one whole byte waits at most (40 R119). -/
theorem lzwInit_bytes (hl : PaletteLoaded r) (hwf : Memory.wf 254 r.sbbuf = true) :
    offeredBytes (lzwInit r) = [] ∧ subBlockBytes (lzwInit r).regs = littleEndian ((ics r + 1) / 8) (clearCode r) := by
  obtain ⟨-, hics, -⟩ := ics_range hl.1 hl.2
  have hempty : subBlockBytes (initCompressor r) = [] := rfl
  have hfilled := (lzwInit_packs hl hwf).fills.filled
  rw [hempty, List.nil_append, fillSubBlock, if_pos (by rw [littleEndian_length]; omega)] at hfilled
  exact Prod.mk.inj hfilled

/-- CLEARC of fewer than eight bits stays in ACC (40 R119). -/
theorem lzwInit_of_narrow (hl : PaletteLoaded r) (hwf : Memory.wf 254 r.sbbuf = true) (hfew : ics r + 1 < 8) :
    (lzwInit r).regs.bitcnt.toNat = ics r + 1 ∧ (lzwInit r).regs.acc.toNat = clearCode r ∧
    subBlockBytes (lzwInit r).regs = [] ∧ (lzwInit r).regs.sbbuf = r.sbbuf := by
  obtain ⟨-, hbitcnt, hacc, -⟩ := lzwInit_packs hl hwf
  obtain ⟨-, hwaits⟩ := lzwInit_bytes hl hwf
  rw [Nat.div_eq_of_lt hfew] at hacc hwaits
  exact ⟨hbitcnt.trans (Nat.mod_eq_of_lt hfew), hacc.trans (Nat.div_one _), hwaits, lzwInit_sbbuf_of_no_byte hl hfew⟩

/-- CLEARC of eight or nine bits leaves its low byte in SBBUF (40 R119). -/
theorem lzwInit_of_wide (hl : PaletteLoaded r) (hwf : Memory.wf 254 r.sbbuf = true) (hmany : 8 ≤ ics r + 1) :
    (lzwInit r).regs.bitcnt.toNat = ics r + 1 - 8 ∧ (lzwInit r).regs.acc.toNat = clearCode r / 256 ∧
    subBlockBytes (lzwInit r).regs = [BitVec.ofNat 8 (clearCode r)] ∧
    ∀ i, i ≠ 0 → Memory.get (lzwInit r).regs.sbbuf i = Memory.get r.sbbuf i := by
  obtain ⟨-, hics, -⟩ := ics_range hl.1 hl.2
  obtain ⟨hfills, hbitcnt, hacc, -⟩ := lzwInit_packs hl hwf
  obtain ⟨-, hwaits⟩ := lzwInit_bytes hl hwf
  have hone : (ics r + 1) / 8 = 1 := by omega
  rw [hone] at hacc hwaits hfills
  refine ⟨by omega, hacc.trans (by rw [Nat.pow_one]), hwaits.trans (littleEndian_one _), fun i hi => hfills.stored i fun j hj => ?_⟩
  rw [littleEndian_length, Nat.lt_one_iff] at hj
  simpa [hj] using hi

/-! ### FRAME -/

/-- What FRAME checks (41 R146). -/
def FrameFits (r : Regs) : Prop :=
  r.fw.toNat ≠ 0 ∧ r.fh.toNat ≠ 0 ∧ r.fx.toNat + r.fw.toNat ≤ r.canvw.toNat ∧ r.fy.toNat + r.fh.toNat ≤ r.canvh.toNat ∧
  (r.ftr = 1#1 → r.trv = 1#1)

/-- The head of a frame (41 R147 to R149). -/
def frameHead (r : Regs) : List Byte :=
  (if wantsGraphicControl r then graphicControlBytes r else []) ++ imageDescriptorBytes r ++ [minCodeSizeByte r]

/-- The registers in which `LzwInit` begins: NPIX latched, no pixel counted (41 R146). -/
def latched (r : Regs) : Regs := { r with npix := pixelCount r, pixcnt := 0 }

/-- The end of FRAME, behind its head (41 R146). -/
theorem startPixels_run (hstop : (lzwInit (latched r)).stop = none) :
    program [
        write (fun r => { r with npix := pixelCount r }),
        write (fun r => { r with pixcnt := 0 }),
        lzwInit,
        write (fun r => { r with phase := .pixels })] r =
      ⟨(lzwInit (latched r)).offers, none, { (lzwInit (latched r)).regs with phase := .pixels }⟩ := by
  rw [program_write, program_write]
  show program [lzwInit, _] (latched r) = _
  rw [program_cons, andThen_of_none hstop, program_write, program_nil, List.append_nil]

/-- FRAME with a frame that passes its checks (41 R146). -/
theorem frameMicro_run (h : FrameFits r) (hstop : (lzwInit (latched r)).stop = none) :
    frameMicro r = ⟨(frameHead r).map (Offer.mk r) ++ (lzwInit (latched r)).offers, none,
      { (lzwInit (latched r)).regs with phase := .pixels }⟩ := by
  obtain ⟨hw, hh, hx, hy, htransparent⟩ := h
  have hw' := ne_zero_of_toNat_ne_zero hw
  have hh' := ne_zero_of_toNat_ne_zero hh
  have htr : r.ftr = 1 → r.trv ≠ 0 := fun hf => by simp [htransparent hf]
  unfold frameMicro frameHead
  rw [program_check_pass (by simpa using ⟨hw', hh'⟩), program_check_pass (by simpa [outsideCanvas] using ⟨hx, hy⟩),
    program_check_pass (by simpa using htr), program_whenever_emit, program_emit, program_emit, startPixels_run hstop]
  simp only [List.map_append, List.append_assoc]

theorem exec_frame (hready : Ready s) (hp : s.regs.phase = .stream) : exec .frame s = deliver (frameMicro s.regs) s :=
  (exec_eq_command (by simp) s).trans (command_legal hready (by simp [hp]) (by rw [hp]; rfl))

/-- `FW * FH` fits NPIX (40 R122). -/
theorem pixelCount_toNat (r : Regs) : (pixelCount r).toNat = r.fw.toNat * r.fh.toNat := by
  rw [pixelCount, BitVec.toNat_ofNat]
  refine Nat.mod_eq_of_lt ?_
  calc r.fw.toNat * r.fh.toNat < 2 ^ 16 * 2 ^ 16 := Nat.mul_lt_mul'' r.fw.isLt r.fh.isLt
    _ = 2 ^ 32 := by norm_num

/-- FRAME with a frame that passes its checks, against a sink that accepts everything: the head of the frame leaves, and nothing else. -/
theorem exec_frame_completes (hready : Ready s) (hp : s.regs.phase = .stream) (hsink : AcceptsAll s.sink) (h : FrameFits s.regs)
    (hl : PaletteLoaded s.regs) (hwf : Memory.wf 254 s.regs.sbbuf = true) :
    ∃ n, exec .frame s = .next { s with
      regs := { (lzwInit (latched s.regs)).regs with phase := .pixels }
      out := s.out ++ frameHead s.regs, sink := sinkDrop n s.sink, held := none } := by
  have hpacks := lzwInit_packs (r := latched s.regs) hl hwf
  obtain ⟨hquiet, -⟩ := lzwInit_bytes (r := latched s.regs) hl hwf
  have hrun := frameMicro_run h hpacks.fills.stop
  have hbytes : offeredBytes (frameMicro s.regs) = frameHead s.regs := by
    unfold offeredBytes at hquiet
    rw [hrun, offeredBytes, List.map_append, map_byte_mk, hquiet, List.append_nil]
  have hexec := deliver_to_end hsink (show (frameMicro s.regs).stop = none by rw [hrun])
  rw [hbytes] at hexec
  exact ⟨_, (exec_frame hready hp).trans (by rw [hexec, hrun])⟩

/-- Settles O25: FRAME comes to its end; of CLEARC no whole byte is made, or one that waits. -/
theorem frameOpensFrame : Obligations.FrameOpensFrame := by
  intro s hready hp hsink hstores hpaln hw hh hx hy htransparent
  have hl : PaletteLoaded s.regs := ⟨hpaln, hstores.1⟩
  obtain ⟨-, -, hwf, -⟩ := hstores
  obtain ⟨n, hexec⟩ := exec_frame_completes hready hp hsink ⟨hw, hh, hx, hy, htransparent⟩ hl hwf
  obtain ⟨hregs, hnext, hnbits⟩ := lzwInit_regs (r := latched s.regs) hl hwf
  have hnpix : (lzwInit (latched s.regs)).regs.npix = pixelCount s.regs := by rw [hregs]; rfl
  refine ⟨_, hexec, rfl, rfl, acceptsAll_sinkDrop hsink n, ?bytes, ?regs, ?npix, hnext, hnbits,
    lzwInit_of_narrow (r := latched s.regs) hl hwf, lzwInit_of_wide (r := latched s.regs) hl hwf⟩
  case bytes =>
    simp [frameHead, graphicControlBytes, imageDescriptorBytes, halfBytes, lowByte, highByte, wantsGraphicControl, minCodeSizeByte]
  case regs =>
    conv_lhs => rw [hregs]
    simp only [hnpix]
    rfl
  case npix => simp only [hnpix, pixelCount_toNat]

/-! ### The end of a frame -/

/-- Settles O40: it is the equation of `EndFrame` for a frame that can be counted. -/
theorem endFrameActsInOrder : Obligations.EndFrameActsInOrder := fun _ => endFrame_eq

end Sys2Proof.Machine
end

section
/-! What the dispatcher answers to a command, test by test, and that it always answers (42 R160, R161, 00 R14). -/

namespace Sys2Proof.Machine

variable {s t : State} {i : Instr} {run : Run}

/-! ### The dispatcher's answers -/

/-- RST in any phase (42 R161): the registers are those of the reset state, and nothing else changes. -/
theorem exec_rst_regs (hready : Ready s) : exec .rst s = .next { s with regs := State.reset.regs } := by
  rw [exec_rst_of_ready hready, resetBlock, show s.held = none from hready]
  rfl

theorem exec_of_error (hi : i ≠ .rst) (herror : s.regs.phase = .error) : exec i s = .next s :=
  (exec_eq_command hi s).trans (command_error herror)

theorem exec_of_legal (hready : Ready s) (hi : i ≠ .rst) (hlegal : legalIn i s.regs.phase = true) :
    exec i s = deliver (microOf i s.regs) s :=
  (exec_eq_command hi s).trans (command_legal hready (phase_of_legalIn hi hlegal).2 hlegal)

/-- A command in a phase that does not allow it (42 R175, 60 R197). -/
theorem exec_of_illegal (hready : Ready s) (herror : s.regs.phase ≠ .error) (hillegal : legalIn i s.regs.phase = false) :
    exec i s = .next { s with regs := enterError .illegalCommand s.regs } := by
  have hi : i ≠ .rst := by
    rintro rfl
    simp [legalIn] at hillegal
  rw [exec_eq_command hi, command_illegal hready herror hillegal, show s.held = none from hready]

theorem decode_rst_word : decode 0x01000000#32 = .ok .rst := by decide

/-- Settles O8: the word of RST is the only one that decodes to RST; every other word is turned away or run as its phase demands. -/
theorem dispatcherTestsInOrder : Obligations.DispatcherTestsInOrder := by
  intro s w rest hready hhost
  by_cases hw : w = 0x01000000#32
  · subst hw
    rw [if_pos rfl, step_of_decode_ok hready hhost decode_rst_word]
    exact exec_rst_regs (s := { s with host := rest }) hready
  · rw [if_neg hw]
    cases hdecode : decode w with
    | error e =>
      rw [step_of_decode_error hready hhost hdecode, illegalWord_eq (s := { s with host := rest }) hready]
      exact apply_ite Host.Outcome.next _ _ _
    | ok i =>
      have hi : i ≠ .rst := fun hi => hw (word_of_decode_rst (hi ▸ hdecode))
      rw [step_of_decode_ok hready hhost hdecode]
      split
      next herror => exact exec_of_error (s := { s with host := rest }) hi herror
      next herror =>
        show _ = if legalIn i s.regs.phase then exec i { s with host := rest } else _
        split
        next => rfl
        next hlegal => exact exec_of_illegal (s := { s with host := rest }) hready herror (by simpa using hlegal)

/-- Settles O10: no command but RST is legal in DONE, and ERROR ignores them all. -/
theorem rstReturnsToReset : Obligations.RstReturnsToReset := by
  refine ⟨fun s => exec_rst_regs, fun s t hready h => ?_, fun i s t hready hi h => ⟨fun herror => ?_, fun hdone => ?_⟩⟩
  · obtain rfl : resetBlock s = t := by simpa [exec_rst_of_ready hready] using h
    exact exec_rst_of_ready rfl
  · rw [exec_of_error hi herror] at h
    injection h with h
    exact h.symm
  · rw [exec_of_illegal hready (by simp [hdone]) (hdone ▸ legalIn_done hi)] at h
    injection h with h
    rw [← h, enterError_phase]

/-! ### The dispatcher always answers -/

theorem finish_answers {stop : Option Stop} {r : Regs} (h : ∀ f, stop ≠ some (.fault f)) : ∃ t, finish stop r s = .next t := by
  match stop with
  | none | some (.raise _) => exact ⟨_, rfl⟩
  | some (.fault f) => exact absurd rfl (h f)

theorem RunOk.stop_ne_fault (h : RunOk run) (f : Fault) : run.stop ≠ some (.fault f) := by
  obtain ⟨-, hend⟩ := h
  intro hstop
  rw [hstop] at hend
  exact hend

/-- A good run, delivered to any sink, ends, is refused or is held. -/
theorem deliver_answers (h : RunOk run) : ∃ t, deliver run s = .next t := by
  unfold deliver
  rcases offerAll_cases run.stop run.regs run.offers s with ⟨s', -, hend⟩ | ⟨-, o, post, s', -, -, hrefused | hheld⟩
  · rw [hend]
    exact finish_answers h.stop_ne_fault
  · exact ⟨_, hrefused⟩
  · exact ⟨_, hheld⟩

theorem exec_answers (i : Instr) (hready : Ready s) (h : RegsOk s.regs) : ∃ t, exec i s = .next t ∧ t.host = s.host := by
  by_cases hi : i = .rst
  · subst hi
    exact ⟨_, exec_rst_of_ready hready, rfl⟩
  rw [exec_eq_command hi]
  rcases command_cases (legalIn i) (microOf i) s with hsame | ⟨-, -, -, hillegal⟩ | ⟨-, -, hlegal, hrun⟩
  · exact ⟨_, hsame, rfl⟩
  · exact ⟨_, hillegal, rfl⟩
  · obtain ⟨t, ht⟩ := deliver_answers (microOf_runOk hi h hlegal)
    exact ⟨t, hrun.trans ht, (deliver_next_cases ht).1⟩

/-- Settles O15: the pseudocode of a legal command is a good run from good registers. -/
theorem everyCommandAnswers : Obligations.EveryCommandAnswers := fun i _ => exec_answers i

theorem resume_answers (h : RunOk run) : ∃ t, resume run s = .next t := by
  unfold resume
  split
  · exact ⟨_, rfl⟩
  · exact deliver_answers h

/-- Settles O53: a held step is a good run that goes on; a ready engine waits, is reset, turns the word away or runs its command. -/
theorem invariantStatesNeverStop : Obligations.InvariantStatesNeverStop := by
  intro s hs
  cases hheld : s.held with
  | some run =>
    simp only [Invariant, hheld] at hs
    exact step_of_held hheld ▸ resume_answers hs.1
  | none =>
    match hhost : s.host with
    | [] => exact ⟨_, step_of_no_move hheld hhost⟩
    | .resetPin :: rest => exact ⟨_, step_of_resetPin hheld hhost⟩
    | .word w :: rest =>
      cases hdecode : decode w with
      | error e =>
        exact ⟨_, (step_of_decode_error hheld hhost hdecode).trans (illegalWord_eq (s := { s with host := rest }) hheld)⟩
      | ok i =>
        obtain ⟨t, ht, -⟩ := exec_answers (s := { s with host := rest }) i hheld ((invariant_of_ready hheld).mp hs)
        exact ⟨t, (step_of_decode_ok hheld hhost hdecode).trans ht⟩

end Sys2Proof.Machine
end

section
/-! The configuration commands (42 R162 to R173, R175): what each writes where it is legal, and what it leaves unchanged from any state. -/

namespace Sys2Proof.Machine

variable {s t : State} {i : Instr} {r q : Regs} {rgb : Rgb}

/-! ### Writes -/

/-- A legal command that offers no byte and raises nothing leaves its registers and changes nothing else. -/
theorem exec_of_quiet_run (hready : Ready s) (hi : i ≠ .rst) (hlegal : legalIn i s.regs.phase = true)
    (hrun : microOf i s.regs = ⟨[], none, q⟩) : exec i s = .next { s with regs := q } := by
  rw [exec_of_legal hready hi hlegal, hrun, deliver_quiet, show s.held = none from hready]

/-- Settles O18: each is one write, legal in IDLE. -/
theorem animationConfigWrites : Obligations.AnimationConfigWrites := by
  intro s hready hidle
  have hwrite {i : Instr} {q : Regs} (hi : i ≠ .rst) (hlegal : legalIn i .idle = true) (hrun : microOf i s.regs = ⟨[], none, q⟩) :
      exec i s = .next { s with regs := q } := exec_of_quiet_run hready hi (by rwa [hidle]) hrun
  exact ⟨fun _ => hwrite (by simp) rfl rfl, fun _ => hwrite (by simp) rfl rfl, fun _ => hwrite (by simp) rfl rfl,
    fun _ => hwrite (by simp) rfl rfl, fun _ _ => hwrite (by simp) rfl rfl⟩

/-- Settles O19: each is one write, legal in IDLE and in STREAM. -/
theorem frameConfigWrites : Obligations.FrameConfigWrites := by
  intro s hready hphase
  have hwrite {i : Instr} {q : Regs} (hi : i ≠ .rst) (hidle : legalIn i .idle = true) (hstream : legalIn i .stream = true)
      (hrun : microOf i s.regs = ⟨[], none, q⟩) : exec i s = .next { s with regs := q } := by
    refine exec_of_quiet_run hready hi ?_ hrun
    rcases hphase with hphase | hphase <;> rwa [hphase]
  exact ⟨fun _ => hwrite (by simp) rfl rfl rfl, fun _ => hwrite (by simp) rfl rfl rfl, fun _ => hwrite (by simp) rfl rfl rfl,
    fun _ => hwrite (by simp) rfl rfl rfl, fun _ => hwrite (by simp) rfl rfl rfl, fun _ _ => hwrite (by simp) rfl rfl rfl⟩

/-! ### PAL -/

theorem palMicro_of_room (h : r.paln.toNat < 256) : palMicro rgb r =
    ⟨[], none, { r with pal := Memory.put r.paln.toNat rgb r.pal, paln := BitVec.ofNat 9 (r.paln.toNat + 1) }⟩ := by
  unfold palMicro
  rw [program_check_pass (by simp; omega), program_guard_pass (by simpa using h), program_write, program_write, program_nil]

theorem palMicro_of_full (h : r.paln.toNat = 256) : palMicro rgb r = ⟨[], some (.raise .tooManyColors), r⟩ :=
  program_check_raise (by simpa using h)

/-- PALN above 256 is the model's own stop (log 10). -/
theorem palMicro_of_beyond (h : 256 < r.paln.toNat) : palMicro rgb r = ⟨[], some (.fault .palIndex), r⟩ := by
  have hguard : guardFault (fun r => decide (Config.palMax ≤ r.paln.toNat)) .palIndex r = ⟨[], some (.fault .palIndex), r⟩ :=
    if_pos (by simpa using h.le)
  unfold palMicro
  rw [program_check_pass (by simp; omega), program_cons, andThen_of_some (by rw [hguard]), hguard]

/-- Settles O20: below 256 entries the run of PAL is its two writes, at 256 it is its first check. -/
theorem palAppendsEntry : Obligations.PalAppendsEntry := by
  intro s r g b hready hidle hstores
  obtain ⟨-, hpal, -⟩ := hstores
  have hlegal : legalIn (.pal r g b) s.regs.phase = true := by rw [hidle]; rfl
  refine ⟨fun hroom => ⟨_, exec_of_quiet_run hready (by simp) hlegal (palMicro_of_room hroom), rfl, ?_, fun i => ?_⟩, fun hfull => ?_⟩
  · rw [BitVec.toNat_ofNat]
    exact Nat.mod_eq_of_lt (by omega)
  · simp only [get_put hpal, eq_comm (a := i)]
    rfl
  · rw [exec_of_legal hready (by simp) hlegal, show microOf (.pal r g b) s.regs = _ from palMicro_of_full hfull, deliver_raise,
      show s.held = none from hready]
    rfl

/-- PAL offers no byte and writes the palette only, whatever PALN is. -/
theorem palMicro_frame : (palMicro rgb r).offers = [] ∧
    ∃ entries count, (palMicro rgb r).regs = { r with pal := entries, paln := count } := by
  rcases lt_trichotomy r.paln.toNat 256 with hroom | hfull | hbeyond
  · rw [palMicro_of_room hroom]
    exact ⟨rfl, _, _, rfl⟩
  · rw [palMicro_of_full hfull]
    exact ⟨rfl, _, _, rfl⟩
  · rw [palMicro_of_beyond hbeyond]
    exact ⟨rfl, _, _, rfl⟩

/-! ### Commands that offer no byte -/

theorem microOf_offers_nil (hbegin : i ≠ .begin) (hframe : i ≠ .frame) (hpix : ∀ c, i ≠ .pix c) (r : Regs) :
    (microOf i r).offers = [] := by
  cases i with
  | begin => exact absurd rfl hbegin
  | frame => exact absurd rfl hframe
  | pix c => exact absurd rfl (hpix c)
  | pal => exact palMicro_frame.1
  | rst | setw | seth | setnf | setloop | settr | setfx | setfy | setfw | setfh | setfd | setff => rfl

/-- The registers a command that offers no byte can leave, from `r` (42 R160). -/
inductive QuietEnd (i : Instr) (r : Regs) : Regs → Prop
  /-- the word is ignored (60 R201) -/
  | ignored : QuietEnd i r r
  /-- the phase does not allow the command (60 R197) -/
  | illegal : QuietEnd i r (enterError .illegalCommand r)
  /-- the pseudocode came to its end -/
  | ended : QuietEnd i r (microOf i r).regs
  /-- the pseudocode raised a fault (60 R200) -/
  | raised (e : ErrorClass) : QuietEnd i r (enterError e (microOf i r).regs)

/-- A command that offers no byte changes nothing but registers. -/
theorem exec_quiet_cases (hi : i ≠ .rst) (hquiet : (microOf i s.regs).offers = []) (h : exec i s = .next t) :
    ∃ q, t = { s with regs := q } ∧ QuietEnd i s.regs q := by
  rw [exec_eq_command hi] at h
  rcases command_cases (legalIn i) (microOf i) s with hsame | ⟨hready, -, -, hillegal⟩ | ⟨hready, -, -, hrun⟩
  · obtain rfl : s = t := by simpa [hsame] using h
    exact ⟨_, rfl, .ignored⟩
  · obtain rfl : { s with regs := enterError .illegalCommand s.regs, held := none } = t := by simpa [hillegal] using h
    exact ⟨_, by rw [hready], .illegal⟩
  · rw [hrun, deliver, hquiet, offerAll] at h
    match hstop : (microOf i s.regs).stop with
    | none =>
      obtain rfl : { s with regs := (microOf i s.regs).regs, held := none } = t := by simpa [hstop, finish] using h
      exact ⟨_, by rw [hready], .ended⟩
    | some (.raise e) =>
      obtain rfl : { s with regs := enterError e (microOf i s.regs).regs, held := none } = t := by simpa [hstop, finish] using h
      exact ⟨_, by rw [hready], .raised e⟩
    | some (.fault f) => simp [hstop, finish] at h

theorem exec_rst_frame (h : exec .rst s = .next t) : t = { s with regs := t.regs } := by
  by_cases hready : Ready s
  · obtain rfl : { s with regs := State.reset.regs } = t := by simpa [exec_rst_regs hready] using h
    rfl
  · obtain ⟨run, hrun⟩ := Option.ne_none_iff_exists'.mp hready
    obtain rfl : s = t := by simpa [exec_of_held .rst hrun] using h
    rfl

/-- Settles O49: a configuration command ends with its registers written, with a fault entered, or with nothing done. -/
theorem configCommandFrames : Obligations.ConfigCommandFrames := by
  intro i s t h
  constructor
  · cases i with
    | rst | begin | frame | pix => trivial
    | setw | seth | setnf | setloop | settr | setfx | setfy | setfw | setfh | setfd | setff =>
      obtain ⟨q, rfl, hq⟩ := exec_quiet_cases (by simp) rfl h
      cases hq <;> rfl
    | pal r g b =>
      obtain ⟨hquiet, entries, count, hpal⟩ := palMicro_frame (rgb := rgbOf r g b) (r := s.regs)
      obtain ⟨q, rfl, hq⟩ := exec_quiet_cases (i := .pal r g b) (by simp) hquiet h
      cases hq with
      | ignored | illegal => rfl
      | ended | raised => rewrite [show (microOf (.pal r g b) s.regs).regs = _ from hpal]; rfl
  · intro hbegin hframe hpix
    by_cases hi : i = .rst
    · subst hi
      rw [exec_rst_frame h]
      exact ⟨rfl, rfl, rfl, rfl⟩
    · obtain ⟨q, rfl, -⟩ := exec_quiet_cases hi (microOf_offers_nil hbegin hframe hpix _) h
      exact ⟨rfl, rfl, rfl, rfl⟩

/-! ### The animation's configuration -/

/-- The animation-level configuration and the palette are the same (10 R21 to R27). -/
def SameAnimConfig (r q : Regs) : Prop :=
  q.canvw = r.canvw ∧ q.canvh = r.canvh ∧ q.nframes = r.nframes ∧ q.loop = r.loop ∧ q.trv = r.trv ∧ q.tridx = r.tridx ∧
  q.paln = r.paln ∧ q.pal = r.pal

theorem SameAnimConfig.refl (r : Regs) : SameAnimConfig r r := ⟨rfl, rfl, rfl, rfl, rfl, rfl, rfl, rfl⟩

/-- A command that neither STREAM nor PIXELS allows is legal in IDLE at most (42 R175). -/
theorem legalIn_eq_false {p : Phase} (hi : i ≠ .rst) (hstream : legalIn i .stream = false) (hpixels : legalIn i .pixels = false)
    (hp : p ≠ .idle) : legalIn i p = false := by
  cases p with
  | idle => exact absurd rfl hp
  | stream => exact hstream
  | pixels => exact hpixels
  | done => exact legalIn_done hi
  | error => exact legalIn_error hi

/-- Where it is not legal a command changes PHASE and ERRCODE at most (60 R197, R201). -/
theorem sameAnimConfig_of_illegal (hi : i ≠ .rst) (hillegal : legalIn i s.regs.phase = false) (h : exec i s = .next t) :
    SameAnimConfig s.regs t.regs := by
  rw [exec_eq_command hi] at h
  rcases command_cases (legalIn i) (microOf i) s with hsame | ⟨-, -, -, hturned⟩ | ⟨-, -, hlegal, -⟩
  · obtain rfl : s = t := by simpa [hsame] using h
    exact .refl _
  · obtain rfl : { s with regs := enterError .illegalCommand s.regs, held := none } = t := by simpa [hturned] using h
    exact .refl _
  · simp [hillegal] at hlegal

/-- Settles O58: the commands that write this configuration are legal in IDLE only, and the frames of the others leave it out. -/
theorem animationConfigFixedAfterBegin : Obligations.AnimationConfigFixedAfterBegin := by
  intro i s t hphase hi h
  obtain ⟨hbegin, hframe, hpix⟩ := streamCommandFrames s t
  obtain ⟨hconfig, -⟩ := configCommandFrames i s t h
  show SameAnimConfig s.regs t.regs
  cases i with
  | rst => exact absurd rfl hi
  | setw | seth | setnf | setloop | settr | pal =>
    exact sameAnimConfig_of_illegal hi (legalIn_eq_false hi rfl rfl hphase) h
  | begin => exact (hbegin h).2 ▸ .refl _
  | frame => exact (hframe h).2 ▸ .refl _
  | pix c => exact (hpix c h).2 ▸ .refl _
  | setfx | setfy | setfw | setfh | setfd | setff => exact hconfig ▸ .refl _

end Sys2Proof.Machine
end

section
/-! Faults raised before any byte is offered (60 R190 to R201): by a command's checks, and by the dispatcher that turns a word away. Then the
word ignored in ERROR, and the fault that no run raises (R194). -/

namespace Sys2Proof.Machine

variable {s : State} {i : Instr} {r : Regs} {e : ErrorClass}

/-! ### `raise` -/

/-- Nothing of the pseudocode behind a `raise` is carried out (60 R200). -/
theorem program_raise (e : ErrorClass) (ps : List Micro) (r : Regs) : program (raiseError e :: ps) r = ⟨[], some (.raise e), r⟩ :=
  andThen_of_some (p := raiseError e) rfl

/-- A check that fires, or passes to pseudocode that raises the same fault. -/
theorem program_check_or_raise {c : Regs → Bool} {ps : List Micro} (h : c r = false → program ps r = ⟨[], some (.raise e), r⟩) :
    program (check c e :: ps) r = ⟨[], some (.raise e), r⟩ := by
  cases hc : c r with
  | true => exact program_check_raise hc
  | false => exact (program_check_pass hc).trans (h hc)

theorem deliver_raise_of_ready (hready : Ready s) : deliver ⟨[], some (.raise e), r⟩ s = .next { s with regs := enterError e r } := by
  rw [deliver_raise, show s.held = none from hready]

/-- A legal command whose pseudocode raises a fault before it writes or offers anything. -/
theorem exec_of_raising_run (hready : Ready s) (hi : i ≠ .rst) (hlegal : legalIn i s.regs.phase = true)
    (hrun : microOf i s.regs = ⟨[], some (.raise e), s.regs⟩) : exec i s = .next { s with regs := enterError e s.regs } := by
  rw [exec_of_legal hready hi hlegal, hrun, deliver_raise_of_ready hready]

/-- Settles O12: `raise` is the whole run, and the codes are read off the table. -/
theorem faultEntryWritesTwoRegisters : Obligations.FaultEntryWritesTwoRegisters := by
  refine ⟨fun e rest r s _ hready => ?_, by decide, by decide⟩
  rw [program_raise, deliver_raise_of_ready hready]
  rfl

/-! ### The dispatcher's tests -/

/-- Settles O11: in ERROR the dispatcher asks only whether the word is RST. -/
theorem errorPhaseIgnoresAllButRst : Obligations.ErrorPhaseIgnoresAllButRst := by
  intro s w rest hready herror hhost hw
  rw [dispatcherTestsInOrder s w rest hready hhost, if_neg hw, if_pos herror]

/-- Settles O13: the dispatcher turns the word away, whether it decodes or not; it is not the word of RST, which is legal everywhere. -/
theorem commandOutsideItsPhasesIsIllegal : Obligations.CommandOutsideItsPhasesIsIllegal := by
  refine ⟨fun i s => exec_of_illegal, fun s w rest hready herror hhost hillegal => ?_⟩
  have hw : w ≠ 0x01000000#32 := by
    rintro rfl
    simpa [legalIn] using hillegal _ decode_rst_word
  rw [dispatcherTestsInOrder s w rest hready hhost, if_neg hw, if_neg herror]
  cases hdecode : decode w with
  | error _ => rfl
  | ok i => simp only [hillegal i hdecode, Bool.false_eq_true, if_false]

/-! ### The checks of BEGIN, FRAME and PIX -/

theorem eq_zero_of_toNat_eq_zero {w : Nat} {x : BitVec w} (h : x.toNat = 0) : x = 0#w := BitVec.eq_of_toNat_eq (by simpa using h)

/-- Settles O24: it is the first check of BEGIN. -/
theorem beginWithoutFramesIsEmptyAnimation : Obligations.BeginWithoutFramesIsEmptyAnimation := by
  intro s hready hidle hframes
  exact exec_of_raising_run hready (by simp) (by rw [hidle]; rfl) (beginMicro_of_no_frames (eq_zero_of_toNat_eq_zero hframes))

/-- BEGIN of some frames with a configuration that fails one of the checks behind the first (41 R141). -/
theorem beginMicro_of_bad_config (hframes : r.nframes.toNat ≠ 0)
    (hbad : r.paln.toNat = 0 ∨ r.canvw.toNat = 0 ∨ r.canvh.toNat = 0 ∨ (r.trv = 1#1 ∧ r.paln.toNat ≤ r.tridx.toNat)) :
    beginMicro r = ⟨[], some (.raise .badConfig), r⟩ := by
  have hframes' := ne_zero_of_toNat_ne_zero hframes
  unfold beginMicro
  rw [program_check_pass (by simpa using hframes')]
  refine program_check_or_raise fun hpaln => program_check_or_raise fun hcanvas => program_check_raise ?_
  rcases hbad with hbad | hbad | hbad | hbad
  · simp [eq_zero_of_toNat_eq_zero hbad] at hpaln
  · simp [eq_zero_of_toNat_eq_zero hbad] at hcanvas
  · simp [eq_zero_of_toNat_eq_zero hbad] at hcanvas
  · simpa using hbad

/-- FRAME with a frame that fails one of its checks (41 R146). -/
theorem frameMicro_of_bad_config
    (hbad : r.fw.toNat = 0 ∨ r.fh.toNat = 0 ∨ r.canvw.toNat < r.fx.toNat + r.fw.toNat ∨
      r.canvh.toNat < r.fy.toNat + r.fh.toNat ∨ (r.ftr = 1#1 ∧ r.trv = 0#1)) :
    frameMicro r = ⟨[], some (.raise .badConfig), r⟩ := by
  refine program_check_or_raise fun hsize => program_check_or_raise fun hextent => program_check_raise ?_
  rcases hbad with hbad | hbad | hbad | hbad | hbad
  · simp [eq_zero_of_toNat_eq_zero hbad] at hsize
  · simp [eq_zero_of_toNat_eq_zero hbad] at hsize
  · simp [outsideCanvas, hbad] at hextent
  · simp [outsideCanvas, hbad] at hextent
  · simpa using hbad

/-- Settles O26: one of the checks of BEGIN, or of FRAME, fires, and they all raise BadConfig. -/
theorem badConfigurationRaisesBadConfig : Obligations.BadConfigurationRaisesBadConfig :=
  ⟨fun _ hready hidle hframes hbad =>
      exec_of_raising_run hready (by simp) (by rw [hidle]; rfl) (beginMicro_of_bad_config hframes hbad),
    fun _ hready hstream hbad => exec_of_raising_run hready (by simp) (by rw [hstream]; rfl) (frameMicro_of_bad_config hbad)⟩

/-- Settles O38: it is the first statement of PIX. -/
theorem pixOutOfRangeRaisesPixelRange : Obligations.PixOutOfRangeRaisesPixelRange := by
  intro s c hready hpixels hrange
  exact exec_of_raising_run hready (by simp) (by rw [hpixels]; rfl) (program_check_raise (by simpa using hrange))

/-! ### InvariantViolation -/

/-- The invariant leaves InvariantViolation out of ERRCODE, at a byte on offer as between steps (60 R194). -/
theorem Invariant.errcode_ne (h : Invariant s) : s.regs.errcode ≠ some .invariantViolation := by
  unfold Invariant at h
  split at h
  · obtain ⟨-, ⟨-, hne⟩, -⟩ := h
    exact hne
  · obtain ⟨⟨hoffers, -⟩, hhead⟩ := h
    obtain ⟨o, ho, hregs⟩ := Option.map_eq_some_iff.mp hhead
    obtain ⟨-, hnone, -⟩ := hoffers o (List.mem_of_mem_head? ho)
    rw [← hregs, hnone]
    simp

/-- Settles O54: the check is the first statement of `PackCode`; a run stays in the invariant, from which every step answers. -/
theorem noRunReachesInvariantViolation : Obligations.NoRunReachesInvariantViolation := by
  refine ⟨fun r code hwide => program_check_raise (by simpa using hwide), fun s hs => ?_⟩
  obtain ⟨t, ht⟩ := invariantStatesNeverStop s hs.invariant
  exact ⟨hs.invariant.errcode_ne, fun ⟨f, hf⟩ => by simp [ht] at hf, fun ⟨f, hf⟩ => by simp [ht] at hf⟩

end Sys2Proof.Machine
end

section
/-! A byte the sink refuses (60 R193, R206, 20 R63): what has been delivered by then, and the registers in which the bytes of BEGIN, FRAME
and PIX are offered. -/

namespace Sys2Proof.Machine

variable {r : Regs} {c : Byte}

/-! ### The sink -/

/-- A sink that accepts `k` bytes and refuses the next: the `k` are delivered, and the fault is raised from the registers at the refused
byte. -/
theorem deliver_refused {run : Run} {s : State} {k : Nat} {l : List Answer} {a : Answer} {o : Offer} (ho : run.offers[k]? = some o)
    (hsink : s.sink = ⟨List.replicate k .accept ++ .error :: l, a⟩) :
    deliver run s = .next { s with
      regs := enterError .sinkIOError o.regs, out := s.out ++ (offeredBytes run).take k, sink := ⟨l, a⟩, held := none } := by
  obtain ⟨hk, hbyte⟩ := List.getElem?_eq_some_iff.mp ho
  have hrest : run.offers.drop k = o :: run.offers.drop (k + 1) := hbyte ▸ List.drop_eq_getElem_cons hk
  rw [deliver, offerAll_accepts_first _ _ _ _ k _ _ hk.le hsink, hrest, offeredBytes, List.map_take]
  rfl

/-! ### BEGIN and FRAME -/

/-- Every byte is offered in the registers `r`. -/
def OffersFrom (r : Regs) (run : Run) : Prop := ∀ o ∈ run.offers, o.regs = r

theorem offersFrom_of_nil {run : Run} (h : run.offers = []) : OffersFrom r run := by simp [OffersFrom, h]

theorem offersFrom_check {test : Regs → Bool} {e : ErrorClass} {ps : List Micro} (h : OffersFrom r (program ps r)) :
    OffersFrom r (program (check test e :: ps) r) := by
  cases hc : test r with
  | true => exact offersFrom_of_nil (by rw [program_check_raise hc])
  | false => rwa [program_check_pass hc]

theorem offersFrom_append {bytes : List Byte} {os : List Offer} {stop : Option Stop} {q : Regs}
    (h : ∀ o ∈ os, o.regs = r) : OffersFrom r ⟨bytes.map (Offer.mk r) ++ os, stop, q⟩ := by
  intro o ho
  rcases List.mem_append.mp ho with ho | ho
  · obtain ⟨b, -, rfl⟩ := List.mem_map.mp ho
    rfl
  · exact h o ho

theorem offersFrom_emit {f : Regs → List Byte} {ps : List Micro} (h : OffersFrom r (program ps r)) :
    OffersFrom r (program (emit f :: ps) r) := by
  rw [program_emit]
  exact offersFrom_append h

theorem offersFrom_whenever_emit {c : Regs → Bool} {f : Regs → List Byte} {ps : List Micro} (h : OffersFrom r (program ps r)) :
    OffersFrom r (program (whenever c (emit f) :: ps) r) := by
  rw [program_whenever_emit]
  exact offersFrom_append h

/-- BEGIN offers its bytes before it writes anything (41 R141). -/
theorem beginMicro_offersFrom (r : Regs) : OffersFrom r (beginMicro r) := by
  refine offersFrom_check (offersFrom_check (offersFrom_check (offersFrom_check ?_)))
  refine offersFrom_emit (offersFrom_emit (offersFrom_emit (offersFrom_whenever_emit ?_)))
  exact offersFrom_of_nil (by simp)

/-- A register write at the end offers nothing more. -/
theorem offers_program_write_last (p : Micro) (f : Regs → Regs) (r : Regs) : (program [p, write f] r).offers = (p r).offers := by
  rw [program_cons]
  cases h : (p r).stop with
  | some st => rw [andThen_of_some h]
  | none => rw [andThen_of_none h]; simp

/-- Too few bytes to fill the buffer leave nothing on offer (40 R111, R112). -/
theorem repeatShift_offers_nil : ∀ (n : Nat) (r : Regs), r.sbcnt.toNat + n < 254 → (repeatTimes n shiftOutByte r).offers = []
  | 0, _, _ => rfl
  | n + 1, r, hroom => by
    have hturn : shiftOutByte r = ⟨[], none, { r with
        sbbuf := Memory.put r.sbcnt.toNat (r.acc.setWidth 8) r.sbbuf, sbcnt := BitVec.ofNat 8 (r.sbcnt.toNat + 1)
        acc := r.acc >>> 8, bitcnt := BitVec.ofNat 5 (r.bitcnt.toNat - 8) }⟩ := by
      unfold shiftOutByte
      rw [program_quiet (p := fun r => subPut (r.acc.setWidth 8) r) (subPut_stores _ (by omega)), program_write, program_write,
        program_nil]
    show (andThen shiftOutByte (repeatTimes n shiftOutByte) r).offers = []
    rw [andThen_of_none (by rw [hturn]), hturn]
    refine repeatShift_offers_nil n _ ?_
    simp only [BitVec.toNat_ofNat]
    omega

/-- `PackCode` into an empty packer offers nothing, whatever the code and the width: at most one byte is made (40 R111). -/
theorem packCode_offers_nil {code : Nat} (hb : r.bitcnt = 0#5) (hs : r.sbcnt = 0#8) : (packCode code r).offers = [] := by
  have hn := r.nbits.isLt
  unfold packCode
  by_cases hfits : code < 2 ^ r.nbits.toNat
  · rw [program_check_pass (by simpa using hfits), program_guard_pass (by simp [hb]; omega), program_write, program_single]
    refine repeatShift_offers_nil _ _ ?_
    simp only [addCode_sbcnt, addCode_bitcnt, hs, hb, BitVec.toNat_ofNat]
    omega
  · rw [program_check_raise (by simpa using hfits)]

/-- `LzwInit` offers nothing, from any registers (40 R119). -/
theorem lzwInit_offers_nil (r : Regs) : (lzwInit r).offers = [] := by
  rw [lzwInit_eq, emitClear, offers_program_write_last]
  exact packCode_offers_nil rfl rfl

/-- FRAME offers its bytes before it writes anything: behind them `LzwInit` offers none (41 R146). -/
theorem frameMicro_offersFrom (r : Regs) : OffersFrom r (frameMicro r) := by
  refine offersFrom_check (offersFrom_check (offersFrom_check ?_))
  refine offersFrom_whenever_emit (offersFrom_emit (offersFrom_emit ?_))
  rw [program_write, program_write]
  exact offersFrom_of_nil ((offers_program_write_last _ _ _).trans (lzwInit_offers_nil _))

/-! ### PIX -/

/-- From `r` on only the packer and the buffer have changed, and the byte on offer belongs to a full sub-block (60 R206). -/
def AtFullSubBlock (r : Regs) (o : Offer) : Prop := PackFrame r o.regs ∧ o.regs.sbcnt = 254#8

theorem AtFullSubBlock.regs {o : Offer} (h : AtFullSubBlock r o) :
    o.regs = { r with acc := o.regs.acc, bitcnt := o.regs.bitcnt, sbbuf := o.regs.sbbuf, sbcnt := 254#8 } := by
  obtain ⟨hframe, hfull⟩ := h
  exact hfull ▸ hframe

theorem packCode_atFullSubBlock {code : Nat} (hwf : Memory.wf 254 r.sbbuf = true) (hp : PackerOk r) (hn : r.nbits.toNat ≤ 12)
    (hcode : code < 2 ^ r.nbits.toNat) : ∀ o ∈ (packCode code r).offers, AtFullSubBlock r o := by
  intro o ho
  obtain ⟨hregs, -⟩ := packCode_offers hwf hp hn hcode ho
  rw [AtFullSubBlock, hregs]
  exact ⟨rfl, rfl⟩

theorem emitCur_atFullSubBlock (h : CompressorOk r) : ∀ o ∈ (emitCur r).offers, AtFullSubBlock r o := by
  have hcur := h.cur_lt
  obtain ⟨hwf, -, ⟨-, hn, -⟩, -, -, hp⟩ := h
  rw [emitCur, emitCode_eq (packCode_packs hwf hp hn hcur).fills.stop]
  exact packCode_atFullSubBlock hwf hp hn hcur

/-- With a full dictionary the width is 12 and stays so: emitting CUR changes only the packer and the buffer (40 R114, R115). -/
theorem emitCur_packFrame_of_full (h : CompressorOk r) (hfull : r.nextcode.toNat = 4096) : PackFrame r (emitCur r).regs := by
  obtain ⟨hframe, hnbits⟩ := emitCur_regs h
  have hsame : (emitCur r).regs.nbits = r.nbits :=
    BitVec.eq_of_toNat_eq (by rw [hnbits, widened_eq, h.nbits_of_full hfull]; simp)
  unfold EmitFrame at hframe
  rwa [hsame] at hframe

theorem emitClear_after_emitCur (h : CompressorOk r) (hfull : r.nextcode.toNat = 4096) :
    (emitClear (emitCur r).regs).stop = none ∧ ∀ o ∈ (emitClear (emitCur r).regs).offers, AtFullSubBlock r o := by
  have hcur := emitCur_packs h
  have hframe := emitCur_packFrame_of_full h hfull
  have hnbits : (emitCur r).regs.nbits.toNat = 12 := by rw [hframe, ← h.nbits_of_full hfull]
  have hpaln : (emitCur r).regs.paln = r.paln := by rw [hframe]
  have hfits : clearCode (emitCur r).regs < 2 ^ (emitCur r).regs.nbits.toNat := by
    obtain ⟨-, ⟨hne, hle⟩, -⟩ := h
    have := clearCode_le (ics_range hne hle).2.1
    rw [hnbits, clearCode_congr hpaln]
    omega
  have hstop := (packCode_packs hcur.fills.wf hcur.packerOk hnbits.le hfits).fills.stop
  rw [emitClear_eq hstop]
  refine ⟨rfl, fun o ho => ?_⟩
  obtain ⟨hframe', h254⟩ := packCode_atFullSubBlock hcur.fills.wf hcur.packerOk hnbits.le hfits o ho
  exact ⟨hframe.trans hframe', h254⟩

/-- The bytes `LzwPixel` offers are those of full sub-blocks, and CUR, the width and the dictionary are not written before them (40 R117). -/
theorem lzwPixel_atFullSubBlock (h : CompressorOk r) : ∀ o ∈ (lzwPixel c r).offers, AtFullSubBlock r o := by
  by_cases hfirst : r.pixcnt = 0#32
  · simp [lzwPixel_of_first hfirst]
  cases hfound : dictLookup r r.cur c with
  | some code => simp [lzwPixel_of_hit hfirst hfound]
  | none =>
    have hcur := (emitCur_packs h).fills.stop
    obtain ⟨hframe, -⟩ := emitCur_regs h
    have hnext : (emitCur r).regs.nextcode = r.nextcode := by rw [hframe]
    rw [lzwPixel_of_miss hfirst hfound]
    by_cases hroom : r.nextcode.toNat < 4096
    · rw [lzwMiss_of_room hcur (by rwa [hnext])]
      exact emitCur_atFullSubBlock h
    · have hfull : r.nextcode.toNat = 4096 := by
        obtain ⟨-, -, -, ⟨-, hle, -⟩, -⟩ := h
        omega
      obtain ⟨hclear, hoffers⟩ := emitClear_after_emitCur h hfull
      rw [lzwMiss_of_full hcur hclear (by rw [hnext, hfull]), andThen_of_none hcur]
      intro o ho
      rcases List.mem_append.mp ho with ho | ho
      · exact emitCur_atFullSubBlock h o ho
      · exact hoffers o ho

/-- PIX offers the bytes of its `LzwPixel` and, behind the last pixel of a frame, those of `EndFrame` (40 R121). -/
theorem pixMicro_offers (h : RegsOk r) (hp : r.phase = .pixels) (hc : c.toNat < r.paln.toNat) :
    (pixMicro c r).offers = (lzwPixel c r).offers ++
      (if r.pixcnt.toNat + 1 = r.npix.toNat then (endFrame { (lzwPixel c r).regs with pixcnt := r.npix }).offers else []) := by
  obtain ⟨-, -, ⟨-, -, -, -, -, -, hcount⟩, -⟩ := h.phaseOk_pixels hp
  obtain ⟨_, hpacks⟩ := lzwPixel_packs (h.compressorOk hp) c
  have hstop := hpacks.fills.stop
  split
  next hlast => rw [pixMicro_of_last hc hstop hlast, andThen_of_none hstop]
  next hmore => rw [pixMicro_of_not_last hc hstop (by omega), List.append_nil]

/-- Settles O45: `deliver` stops at the refused byte; BEGIN and FRAME write behind their last byte, and PIX offers full sub-blocks until it
has counted the pixel. -/
theorem sinkErrorDeliversExactPrefix : Obligations.SinkErrorDeliversExactPrefix :=
  ⟨fun _ _ _ _ _ _ => deliver_refused, fun r => ⟨beginMicro_offersFrom r, frameMicro_offersFrom r⟩,
    fun _ _ h hp hc => ⟨pixMicro_offers h hp hc, fun o ho => (lzwPixel_atFullSubBlock (h.compressorOk hp) o ho).regs⟩⟩

end Sys2Proof.Machine
end

section
/-! The wait with no word to take, and the reset pin between steps and at a byte the sink withholds its answer to (70 R220, R230). -/

namespace Sys2Proof.Machine

variable {s : State} {run : Run} {rest : List HostMove}

/-- Settles O9: it is the equation of `step` for a ready engine without a move of the host. -/
theorem waitChangesNothing : Obligations.WaitChangesNothing :=
  fun _ => step_of_no_move

/-- Between steps the reset pin is the command RST, with no word taken for it (70 R220). -/
theorem step_of_resetPin_eq_exec_rst (hready : Ready s) (hhost : s.host = .resetPin :: rest) :
    step s = exec .rst { s with host := rest } := by
  rw [step_of_resetPin hready hhost, exec_rst_of_ready (s := { s with host := rest }) hready, resetInput]

/-- In a held step whose byte the sink does not answer, the reset pin resets the block in place of delivering (70 R220). -/
theorem step_of_held_of_resetPin (hheld : s.held = some run) (hhost : s.host = .resetPin :: rest)
    (hsink : sinkAnswer s.sink = .withhold) :
    step s = .next (resetBlock { s with sink := sinkNext s.sink, host := rest }) := by
  rw [step_of_held hheld]
  simp only [resume, hsink, hhost]

/-- Settles O48: between steps the pin is RST; in a held step it resets the block, and OUT stays as it is. -/
theorem resetPinActsAsRst : Obligations.ResetPinActsAsRst := by
  refine ⟨fun s rest hready hhost => ?_, fun s run rest hheld hhost hsink => ?_⟩
  · rw [step_of_resetPin_eq_exec_rst hready hhost, exec_rst_regs (s := { s with host := rest }) hready]
  · exact ⟨_, step_of_held_of_resetPin hheld hhost hsink, rfl⟩

end Sys2Proof.Machine
end
